-- ==== Sys2Proof/Word.lean ====
section
/-! DEFINITION. The widths of 00_scope.md rule R7 and of the two address spaces (10_state.md rule R48).
All values are unsigned bit vectors (00_scope.md rule R12). -/

namespace Sys2Proof

/-- One byte of the DMA memory (20_memory.md rule R60). -/
abbrev Byte := BitVec 8

/-- A 32-bit register value, or a command word (10_state.md rule R22, 30_encoding.md rule R80). -/
abbrev Word := BitVec 32

/-- The left or right half of a block (42_block_core.md rule R140). -/
abbrev Half := BitVec 32

/-- A byte address of the DMA space, `ADDR_WIDTH` = 32 (00_scope.md rule R9). -/
abbrev Addr := BitVec 32

/-- A 64-bit block, or the 64-bit master key (00_scope.md rule R7). -/
abbrev Block := BitVec 64

/-- A 48-bit round subkey, or the expansion of a half (00_scope.md rule R7). -/
abbrev Subkey := BitVec 48

/-- The subkey store `SK[0..15]` (10_state.md rule R40). -/
abbrev Schedule := Vector Subkey 16

end Sys2Proof
end

