-- ==== Sys2Proof/Config.lean ====
section
/-! DEFINITION. What an instance fixes for its whole life (00_scope.md rules R8 and R9, 10_state.md
rule R50) and the source of the values the spec leaves open. The machine's definitions take a `Config`
as an argument (rule R10); the machine itself runs on `Config.chip`, of which nothing is known. -/

namespace Sys2Proof

/-- The kind of a DMA access, the second argument of `MEM_OK` (00_scope.md rule R9). -/
inductive AccessKind where
  | read
  | write
  deriving DecidableEq, Repr

/-- The configuration of one instance. Its types hold the conditions of 00_scope.md rule R8, so an
ill-formed table is no `Config` at all (93_implementation_defined.md U17: no model is built from it).
A position p in 1..32 is held as the number p - 1 in `Fin 32`; `Config.eEntry` and `Config.pEntry`
give the entry as the spec writes it. -/
structure Config where
  /-- `ETABLE`: 48 positions of a 32-bit value; an entry may repeat. -/
  etable : Vector (Fin 32) 48
  /-- `PTABLE`: a bijection onto the 32 positions. -/
  ptable : Equiv.Perm (Fin 32)
  /-- `SBOX`: 4 rows of 16 entries in 0..15, shared by all eight groups. -/
  sbox : Vector (Vector (BitVec 4) 16) 4
  /-- `SUBKEY(i, K)`: a total function of the round index and the key alone (40_subkey_schedule.md
  rule R100). -/
  subkey : Fin 16 → Block → Subkey
  /-- `REG_BASE`: the bus address of the register window. -/
  regBase : Nat
  /-- `MEM_OK(addr, kind)`: the platform answers this DMA byte access without a bus error. -/
  memOk : Addr → AccessKind → Bool
  /-- `COHERENT`: host caches are coherent with DMA (20_memory.md rule R76). -/
  coherent : Bool
  deriving Inhabited

/-- `ETABLE[i]` as the spec numbers it, a position in 1..32. -/
def Config.eEntry (c : Config) (i : Fin 48) : Nat := c.etable[i].val + 1

/-- `PTABLE[i]` as the spec numbers it, a position in 1..32. -/
def Config.pEntry (c : Config) (i : Fin 32) : Nat := (c.ptable i).val + 1

/-- `SBOX[row][col]`. -/
def Config.sboxEntry (c : Config) (row : BitVec 2) (col : BitVec 4) : BitVec 4 :=
  c.sbox[row.toFin][col.toFin]

/-- The configuration of the instance that is modelled: OPEN in the spec (92_eei_decisions.md D3, D17,
D20, D24), so uninterpreted here (notes/assumptions/6.md). -/
opaque Config.chip : Config

/-- The value number `n` of width `w` of the values the spec leaves open: nothing constrains it
(notes/assumptions/5.md). -/
opaque Config.free (w n : Nat) : BitVec w

/-- A configuration as the spec writes its tables, in lists of integers (00_scope.md rule R8), before
its conditions are checked (WellFormed.lean). -/
structure RawTables where
  etable : List Nat
  ptable : List Nat
  sbox : List (List Nat)
  deriving DecidableEq, Repr

end Sys2Proof
end

