-- ==== Sys2Proof/Syntax.lean ====
section
/-! DEFINITION. The commands of the FBC core: the five rows of spec/opcode_table.json
(30_encoding.md rule R83). A command word has no operand fields (rule R82), so no constructor takes
an argument; the operands are the registers each command's rule names. -/

namespace Sys2Proof

/-- A command of 30_encoding.md rule R83. -/
inductive Instr where
  /-- `SETKEY`, word 0x00000001: load the master key into the subkey schedule (rule R103). -/
  | setkey
  /-- `ENCB`, word 0x00000002: encode one block (rule R147). -/
  | encb
  /-- `DECB`, word 0x00000003: decode one block (rule R148). -/
  | decb
  /-- `ENCBUF`, word 0x00000004: encode a buffer (rule R165). -/
  | encbuf
  /-- `DECBUF`, word 0x00000005: decode a buffer (rule R166). -/
  | decbuf
  deriving DecidableEq, Repr

end Sys2Proof
end

