-- ==== Sys2Proof/WellFormed.lean ====
section
/-! DEFINITION. Well-formedness: of the configuration tables (00_scope.md rule R8, 92_eei_decisions.md
D35), of a register access (10_state.md rule R23) and of a command (30_encoding.md rule R82). -/

namespace Sys2Proof

/-- Every entry is a 1-based position of a 32-bit value. -/
def positionsOk (t : List Nat) : Bool := t.all fun e => decide (1 ≤ e ∧ e ≤ 32)

/-- `ETABLE`: 48 entries in 1..32; repeats are allowed. -/
def RawTables.etableOk (t : RawTables) : Bool := decide (t.etable.length = 48) && positionsOk t.etable

/-- `PTABLE`: a bijection onto 1..32, that is 32 entries in 1..32 with no repeat. -/
def RawTables.ptableOk (t : RawTables) : Bool :=
  decide (t.ptable.length = 32) && positionsOk t.ptable && decide t.ptable.Nodup

/-- `SBOX`: 4 rows of 16 entries in 0..15. -/
def RawTables.sboxOk (t : RawTables) : Bool :=
  decide (t.sbox.length = 4) &&
    t.sbox.all fun row => decide (row.length = 16) && row.all fun e => decide (e ≤ 15)

/-- The tables meet every condition of 00_scope.md rule R8. -/
def RawTables.wf (t : RawTables) : Bool := t.etableOk && t.ptableOk && t.sboxOk

/-- The only defined register access: 32 bits at an offset that is a multiple of 4 (10_state.md rule
R23, 93_implementation_defined.md U1). -/
def accessWf (offset : BitVec 8) (size : Nat) : Bool :=
  decide (size = 4) && decide (offset.toNat % 4 = 0)

/-- A command has no fields (30_encoding.md rule R82), so there is nothing in it to be ill-formed. -/
def Instr.wf : Instr → Bool
  | .setkey => true
  | .encb => true
  | .decb => true
  | .encbuf => true
  | .decbuf => true

end Sys2Proof
end

