-- ==== Sys2Proof/Decode.lean ====
section
/-! DEFINITION. The command word (30_encoding.md): its two fields (rule R81), the opcode map (rule R83)
and the refusal, by name, of every other word (rules R84 and R85). Then the encoder, from the same
map. -/

namespace Sys2Proof

/-- Why a word is no command (30_encoding.md rule R84). Either reason completes with ILLEGAL_CMD. -/
inductive DecodeError where
  /-- `RSV` is not 0, whatever `OPC` is. -/
  | reservedBits
  /-- `RSV` is 0 and `OPC` is 0x00 or 0x06..0xFF. -/
  | unassignedOpcode
  deriving DecidableEq, Repr

/-- `OPC`, bits [7:0] of a command word (30_encoding.md rule R81). -/
def opcField (w : Word) : BitVec 8 := w.extractLsb' 0 8

/-- `RSV`, bits [31:8] of a command word (30_encoding.md rule R81). -/
def rsvField (w : Word) : BitVec 24 := w.extractLsb' 8 24

/-- The command an opcode selects (30_encoding.md rule R83). -/
def commandOf (opc : BitVec 8) : Option Instr :=
  if opc = 0x01#8 then some .setkey
  else if opc = 0x02#8 then some .encb
  else if opc = 0x03#8 then some .decb
  else if opc = 0x04#8 then some .encbuf
  else if opc = 0x05#8 then some .decbuf
  else none

/-- Decode a command word: total on the 2^32 words (30_encoding.md rule R85). -/
def decode (w : Word) : Except DecodeError Instr :=
  if rsvField w = 0#24 then
    match commandOf (opcField w) with
    | some i => .ok i
    | none => .error .unassignedOpcode
  else .error .reservedBits

/-- The opcode of a command (30_encoding.md rule R83). -/
def opcodeOf : Instr → BitVec 8
  | .setkey => 0x01#8
  | .encb => 0x02#8
  | .decb => 0x03#8
  | .encbuf => 0x04#8
  | .decbuf => 0x05#8

/-- The word of a command: `RSV` = 0 above its opcode (30_encoding.md rules R81 and R83). -/
def encode (i : Instr) : Word := 0#24 ++ opcodeOf i

/-- The command the decoder reads from the word with the bits `w`, numbered as spec/opcode_table.json
numbers them. Every command is one 32-bit word written in one bus write (30_encoding.md rule R86);
the bits above `nbits` are 0. -/
def decodeTableWord (nbits w : Nat) : Option Instr :=
  if nbits ≤ 32 ∧ w < 2 ^ nbits then
    match decode (BitVec.ofNat 32 w) with
    | .ok i => some i
    | .error _ => none
  else none

/-- The word 0x00000001 of rule R83, bit by bit. -/
theorem decode_setkey : decode 0b00000000000000000000000000000001#32 = .ok .setkey := by decide

/-- The word 0x00000002 of rule R83, bit by bit. -/
theorem decode_encb : decode 0b00000000000000000000000000000010#32 = .ok .encb := by decide

/-- The word 0x00000003 of rule R83, bit by bit. -/
theorem decode_decb : decode 0b00000000000000000000000000000011#32 = .ok .decb := by decide

/-- The word 0x00000004 of rule R83, bit by bit. -/
theorem decode_encbuf : decode 0b00000000000000000000000000000100#32 = .ok .encbuf := by decide

/-- The word 0x00000005 of rule R83, bit by bit. -/
theorem decode_decbuf : decode 0b00000000000000000000000000000101#32 = .ok .decbuf := by decide

end Sys2Proof
end

