-- ==== Sys2Proof/Machine/State.lean ====
section
/-! DEFINITION. The machine's state as plain data (10_state.md), the reasons a step can stop, and the
state right after reset (10_state.md rule R49). -/

namespace Sys2Proof.Machine

/-- The sequencer's phase (10_state.md rule R44). -/
inductive Phase where
  | idle
  | keygen
  | rounds
  | bufRead
  | bufRounds
  | bufWrite
  deriving DecidableEq, Repr

/-- The direction `LDIR`: 0 is encode, 1 is decode (10_state.md rule R43). -/
inductive Dir where
  | encode
  | decode
  deriving DecidableEq, Repr

/-- The fields of STATUS (10_state.md rule R28). The word a read returns is `Status.word`, in
Flags.lean. -/
structure Status where
  busy : Bool
  done : Bool
  err : Bool
  keyValid : Bool
  ovr : Bool
  errcode : BitVec 4
  lastop : BitVec 8
  deriving DecidableEq, Repr

/-- The working halves, the latched operands and the counters: the internal state that is unspecified
after reset and between commands (10_state.md rules R42, R43 and R44). -/
structure Work where
  /-- `WL`, the left working half (rule R42). -/
  wl : Half
  /-- `WR`, the right working half (rule R42). -/
  wr : Half
  /-- `LOP`, the latched opcode (rule R43). -/
  lop : BitVec 8
  /-- `LKEY`, the copy of KEY for SETKEY. -/
  lkey : Block
  /-- `LBLK`, the copy of DIN for ENCB and DECB. -/
  lblk : Block
  /-- `LSRC`, the copy of SRC. -/
  lsrc : Addr
  /-- `LDST`, the copy of DST. -/
  ldst : Addr
  /-- `LLEN`, the copy of LEN. -/
  llen : Word
  /-- `LOUT`, the padded length, 0 to 2^32. -/
  lout : BitVec 33
  /-- `LDIR`, the direction. -/
  ldir : Dir
  /-- `RND`, the round steps done on the current block, 0..15 (rule R44). -/
  rnd : Fin 16
  /-- `BLK`, the index of the current block of a buffer command, 0..2^29 (rule R44). -/
  blk : Nat
  deriving DecidableEq, Repr

/-- One event of the outstanding schedule: what the host or the platform does next, or that the core
takes its next step now (20_memory.md rule R78: these happen one at a time in one interleaving).
A register access carries its offset in the 256-byte window; `Transaction.event` in Program.lean
gives the event of a transaction at a bus address (30_encoding.md rule R87). -/
inductive Event where
  /-- `WR`: a bus write of `size` bytes at `offset` (00_scope.md rule R14). -/
  | wr (offset : BitVec 8) (size : Nat) (data : Word)
  /-- `RD`: a bus read of `size` bytes at `offset`. -/
  | rd (offset : BitVec 8) (size : Nat)
  /-- `POLL`: 32-bit reads at `offset` until `(data & mask) == value`. -/
  | poll (offset : BitVec 8) (mask value : Word)
  /-- The core takes its next step. -/
  | core
  /-- A memory write by the host: performed at once where its caches are coherent, else by a later clean
  (20_memory.md rules R70 and R76). -/
  | memWrite (a : Addr) (v : Byte)
  /-- A memory read by the host (20_memory.md rules R71 and R72). -/
  | memRead (a : Addr)
  /-- A performed memory write by another bus master (20_memory.md rule R72). -/
  | masterWrite (a : Addr) (v : Byte)
  /-- A memory read by another bus master (20_memory.md rule R72). -/
  | masterRead (a : Addr)
  /-- The host cleans its caches of the byte at `a` (20_memory.md rule R76). -/
  | clean (a : Addr)
  /-- The host invalidates the byte at `a` in its caches (20_memory.md rule R76). -/
  | invalidate (a : Addr)
  /-- The platform asserts reset (70_reset_and_hazards.md rule R240). -/
  | reset
  deriving DecidableEq, Repr

/-- The answer to the host's last read: the model's own field (notes/assumptions/21.md). -/
inductive Reply where
  | none
  | word (v : Word)
  | byte (v : Byte)
  deriving DecidableEq, Repr

/-- The DMA memory as the written bytes, addresses strictly rising; what an unlisted address reads as
is `Memory.unlisted` (Memory.lean). -/
abbrev Memory := List Host.Cell

/-- The state of one FBC core instance and of the DMA memory it reaches (10_state.md rule R20), with
the outstanding schedule. CAPS is a constant and IRQ is computed (Flags.lean); CMD holds no state
(rule R27). -/
structure State where
  /-- CTRL.IRQ_EN (10_state.md rule R26). -/
  irqEn : Bool
  /-- STATUS (rule R28). -/
  status : Status
  /-- KEY_LO (rule R30). -/
  keyLo : Word
  /-- KEY_HI (rule R30). -/
  keyHi : Word
  /-- DIN_LO (rule R31). -/
  dinLo : Word
  /-- DIN_HI (rule R31). -/
  dinHi : Word
  /-- DOUT_LO (rule R32). -/
  doutLo : Word
  /-- DOUT_HI (rule R32). -/
  doutHi : Word
  /-- SRC (rule R33). -/
  src : Word
  /-- DST (rule R34). -/
  dst : Word
  /-- LEN (rule R35). -/
  len : Word
  /-- OUTLEN (rule R36). -/
  outlen : Word
  /-- BLKDONE (rule R37). -/
  blkdone : Word
  /-- The subkey store SK (rule R40). -/
  sk : Schedule
  /-- WL, WR, the latches, RND and BLK (rules R42 to R44). -/
  work : Work
  /-- PHASE (rule R44). -/
  phase : Phase
  /-- The DMA memory (20_memory.md rule R60). -/
  mem : Memory
  /-- The model's own: the outstanding schedule, next event first (notes/assumptions/7.md). -/
  host : List Event
  /-- The model's own: the answer to the host's last read (notes/assumptions/21.md). -/
  reply : Reply
  /-- The model's own: how many free values have been drawn (notes/assumptions/5.md). -/
  drawn : Nat
  /-- The model's own: the padded input blocks that the running buffer command has read, block 0 first
  (20_memory.md rule R72 a; notes/assumptions/10.md). -/
  taken : List Block
  /-- The model's own: source bytes written by another master during the running buffer command
  (20_memory.md rule R72 a; notes/assumptions/10.md). -/
  racedSrc : List Nat
  /-- The model's own: destination bytes written by another master during the running buffer command
  (20_memory.md rule R72 c; notes/assumptions/12.md). -/
  racedDst : List Nat
  /-- The model's own: bytes the host wrote and has not cleaned (20_memory.md rule R76;
  notes/assumptions/14.md). -/
  dirty : List Nat
  /-- The model's own: bytes the core or another master wrote and the host has neither invalidated nor
  written since (20_memory.md rule R76;
  notes/assumptions/14.md). -/
  stale : List Nat
  deriving DecidableEq, Repr

/-- The reasons the machine stops with a fault. The core itself has no traps (60_exceptions.md rule
R208): its errors are completion codes in STATUS. -/
inductive Fault where
  /-- Raised by the BUF_READ and BUF_WRITE steps on a DMA address at or above 2^32, which the DMA
  space does not have (20_memory.md rule R60). The RANGE check (43_block_chainer.md rule R167) keeps
  every run from making one. SAFE: the model stops (notes/assumptions/16.md). -/
  | dmaOutsideSpace
  deriving DecidableEq, Repr

/-- The reasons a step is refused. -/
inductive Refusal where
  /-- Raised by `exec` for an instruction that has no meaning yet. SAFE. -/
  | notModelled (mnemonic : String)
  /-- Raised by a register access that is not 32 bits wide: undefined by the spec, "the model refuses
  such an access" (10_state.md rule R23, 92_eei_decisions.md D34). SAFE (notes/assumptions/15.md). -/
  | accessSize
  /-- Raised by a register access at an offset that is not a multiple of 4: undefined by the spec,
  refused as `accessSize` is. SAFE (notes/assumptions/15.md). -/
  | accessMisaligned
  deriving DecidableEq, Repr

/-- STATUS after reset: every field 0 (10_state.md rule R49). -/
def Status.reset : Status where
  busy := false
  done := false
  err := false
  keyValid := false
  ovr := false
  errcode := 0#4
  lastop := 0x00#8

/-- The internal state that rule R49 calls unspecified after reset, at the value the model names for
`State.reset` (DESIGN CHOICE, notes/assumptions/2.md). No rule reads it before writing it. -/
def Work.reset : Work where
  wl := 0#32
  wr := 0#32
  lop := 0#8
  lkey := 0#64
  lblk := 0#64
  lsrc := 0#32
  ldst := 0#32
  llen := 0#32
  lout := 0#33
  ldir := .encode
  rnd := 0
  blk := 0

/-- The machine right after reset (10_state.md rule R49): every host-visible register 0, PHASE IDLE,
nothing in memory written yet, nothing outstanding. SK is unspecified there; 0 is the model's choice
(DESIGN CHOICE, notes/assumptions/2.md). The spec gives the host's caches no starting state: that no byte
is uncleaned or stale in them, `dirty` and `stale` both empty, is the model's choice too (DESIGN CHOICE,
notes/assumptions/25.md). -/
def State.reset : State where
  irqEn := false
  status := Status.reset
  keyLo := 0#32
  keyHi := 0#32
  dinLo := 0#32
  dinHi := 0#32
  doutLo := 0#32
  doutHi := 0#32
  src := 0#32
  dst := 0#32
  len := 0#32
  outlen := 0#32
  blkdone := 0#32
  sk := Vector.replicate 16 0#48
  work := Work.reset
  phase := .idle
  mem := []
  host := []
  reply := .none
  drawn := 0
  taken := []
  racedSrc := []
  racedDst := []
  dirty := []
  stale := []

end Sys2Proof.Machine
end

