-- ==== Sys2Proof/Machine/Operands.lean ====
section
/-! DEFINITION. The operand forms: blocks as halves and as big-endian bytes, the 64-bit register
pairs, and the lengths and ranges of a buffer command. -/

namespace Sys2Proof.Machine

/-- The left half, bits [63:32] (42_block_core.md rule R140). -/
def hi (b : Block) : Half := b.extractLsb' 32 32

/-- The right half, bits [31:0] (42_block_core.md rule R140). -/
def lo (b : Block) : Half := b.extractLsb' 0 32

/-- Two 32-bit values as one 64-bit value, the first in the more significant bits (00_scope.md rule
R12, `a || b`). -/
def join (h l : Half) : Block := h ++ l

/-- Byte `j` of a block in memory order, big-endian: byte 0 is bits [63:56] and byte 7 bits [7:0]
(20_memory.md rule R61). -/
def blockByte (b : Block) (j : Nat) : Byte := b.extractLsb' (56 - 8 * j) 8

/-- The block whose byte `j` in memory order is `f j`: `b0 || b1 || ... || b7` (20_memory.md rule
R61). -/
def ofBytes (f : Nat → Byte) : Block :=
  f 0 ++ f 1 ++ f 2 ++ f 3 ++ f 4 ++ f 5 ++ f 6 ++ f 7

/-- `KEY = KEY_HI || KEY_LO` (10_state.md rule R30). -/
def State.key (s : State) : Block := join s.keyHi s.keyLo

/-- `DIN = DIN_HI || DIN_LO` (10_state.md rule R31). -/
def State.din (s : State) : Block := join s.dinHi s.dinLo

/-- `DOUT = DOUT_HI || DOUT_LO` (10_state.md rule R32). -/
def State.dout (s : State) : Block := join s.doutHi s.doutLo

/-- The padded length `8 * ceil(n / 8)` of `n` bytes, on unbounded integers (43_block_chainer.md rule
R160). -/
def paddedLength (n : Nat) : Nat := 8 * ((n + 7) / 8)

/-- The address of byte `j` of block `k` of a buffer at `base`, an unbounded integer (20_memory.md rule
R61, 00_scope.md rule R12). -/
def byteAddr (base : Addr) (k j : Nat) : Nat := base.toNat + 8 * k + j

/-- `a` lies in the source range `[LSRC, LSRC + LLEN)` (20_memory.md rule R72). -/
def Work.inSource (w : Work) (a : Nat) : Bool :=
  decide (w.lsrc.toNat ≤ a ∧ a < w.lsrc.toNat + w.llen.toNat)

/-- `a` lies in the destination range `[LDST, LDST + LOUT)` (20_memory.md rule R72). -/
def Work.inDestination (w : Work) (a : Nat) : Bool :=
  decide (w.ldst.toNat ≤ a ∧ a < w.ldst.toNat + w.lout.toNat)

/-- `a` lies in the destination block of one of the blocks `ks` (43_block_chainer.md rule R163). -/
def Work.inBlocks (w : Work) (ks : List Nat) (a : Nat) : Bool :=
  decide (w.ldst.toNat ≤ a) && ks.contains ((a - w.ldst.toNat) / 8)

/-- `a` lies in a destination block the running command has already written: block `BLK` is the
current one (43_block_chainer.md rule R173). -/
def Work.written (w : Work) (a : Nat) : Bool :=
  decide (w.ldst.toNat ≤ a ∧ a < w.ldst.toNat + 8 * w.blk)

/-- A buffer command is running: PHASE is one of its three (43_block_chainer.md rule R173). -/
def Phase.isBuffer : Phase → Bool
  | .idle => false
  | .keygen => false
  | .rounds => false
  | .bufRead => true
  | .bufRounds => true
  | .bufWrite => true

end Sys2Proof.Machine
end

