-- ==== Sys2Proof/Machine/Cipher.lean ====
section
/-! DEFINITION. The cipher: the round function (41_round_function.md), the subkey schedule
(40_subkey_schedule.md rules R100 to R102) and the block transform (42_block_core.md rules R140 to
R145). All of it is pure and total (41_round_function.md rule R127), with the configuration as an
argument. -/

namespace Sys2Proof.Machine

/-- `expand`: output index `47 - i` is input index `32 - ETABLE[i]` (41_round_function.md rule R120).
`BitVec.ofFnBE f` has `f i` at index `47 - i`. -/
def expand (c : Config) (x : Half) : Subkey :=
  BitVec.ofFnBE fun i : Fin 48 => x.getLsbD (32 - c.eEntry i)

/-- Group `j` of an expansion, `y[47 - 6j : 42 - 6j]` (41_round_function.md rule R121). -/
def group (y : Subkey) (j : Nat) : BitVec 6 := y.extractLsb' (42 - 6 * j) 6

/-- The row of a group, `g[5] || g[0]` (41_round_function.md rule R122). -/
def groupRow (g : BitVec 6) : BitVec 2 := g.extractLsb' 5 1 ++ g.extractLsb' 0 1

/-- The column of a group, `g[4:1]` (41_round_function.md rule R122). -/
def groupCol (g : BitVec 6) : BitVec 4 := g.extractLsb' 1 4

/-- The nibble of group `j` (41_round_function.md rule R123). -/
def nibble (c : Config) (y : Subkey) (j : Nat) : BitVec 4 :=
  c.sboxEntry (groupRow (group y j)) (groupCol (group y j))

/-- `substitute`: the eight nibbles, group 0 the most significant (41_round_function.md rules R123 and
R124). -/
def substitute (c : Config) (y : Subkey) : Half :=
  nibble c y 0 ++ nibble c y 1 ++ nibble c y 2 ++ nibble c y 3 ++ nibble c y 4 ++ nibble c y 5
    ++ nibble c y 6 ++ nibble c y 7

/-- `permute`: output index `31 - i` is input index `32 - PTABLE[i]` (41_round_function.md rule
R125). -/
def permute (c : Config) (z : Half) : Half :=
  BitVec.ofFnBE fun i : Fin 32 => z.getLsbD (32 - c.pEntry i)

/-- The round function `permute(substitute(expand(r) ^ k))` (41_round_function.md rule R126). -/
def feistel (c : Config) (r : Half) (k : Subkey) : Half :=
  permute c (substitute c (expand c r ^^^ k))

/-- One round on the halves (L, R) (42_block_core.md rule R142). -/
def oneRound (c : Config) (k : Subkey) (p : Half × Half) : Half × Half :=
  (p.2, p.1 ^^^ feistel c p.2 k)

/-- The schedule of a key: entry i is `SUBKEY(i, K)` (40_subkey_schedule.md rule R101). -/
def sched (c : Config) (k : Block) : Schedule := Vector.ofFn fun i => c.subkey i k

/-- The subkey of round step `n`: `SK[n]` for encode, `SK[15 - n]` for decode (42_block_core.md rules
R144 and R145). -/
def subkeyAt (sk : Schedule) (d : Dir) (n : Fin 16) : Subkey :=
  match d with
  | .encode => sk[n]
  | .decode => sk[n.rev]

/-- `m` rounds from round number `n` on (42_block_core.md rules R144 and R145). -/
def roundsFrom (c : Config) (sk : Schedule) (d : Dir) : (m n : Nat) → Half × Half → Half × Half
  | 0, _, p => p
  | m + 1, n, p => roundsFrom c sk d m (n + 1) (oneRound c (subkeyAt sk d (Fin.ofNat 16 n)) p)

/-- The split of a block into its halves; the initial permutation is the identity (42_block_core.md
rules R140 and R141). -/
def split (b : Block) : Half × Half := (hi b, lo b)

/-- The merge after the last round, `R || L`; the final permutation is the identity
(42_block_core.md rules R141 and R143, 90_conflicts.md C1). -/
def merge (p : Half × Half) : Block := join p.2 p.1

/-- `ENC(b, SK)` for encode and `DEC(b, SK)` for decode (42_block_core.md rules R144 and R145). -/
def crypt (c : Config) (sk : Schedule) (d : Dir) (b : Block) : Block :=
  merge (roundsFrom c sk d 16 0 (split b))

end Sys2Proof.Machine
end

