-- ==== Sys2Proof/Machine/Flags.lean ====
section
/-! DEFINITION. The flags are the STATUS fields and nothing else (10_state.md rule R46): the word a
read of STATUS returns (rule R28), a write to it (rule R29), the error codes (60_exceptions.md rule
R205), and the IRQ output (10_state.md rule R45). -/

namespace Sys2Proof.Machine

/-- The completion codes that are ever raised (60_exceptions.md rule R205); 5 to 15 are reserved. -/
inductive ErrCode where
  | none
  | illegalCmd
  | noKey
  | range
  | bus
  deriving DecidableEq, Repr

/-- The number of a completion code (60_exceptions.md rule R205). -/
def ErrCode.bits : ErrCode → BitVec 4
  | .none => 0#4
  | .illegalCmd => 1#4
  | .noKey => 2#4
  | .range => 3#4
  | .bus => 4#4

/-- The word a read of STATUS returns; reserved bits read 0 (10_state.md rule R28). -/
def Status.word (t : Status) : Word :=
  0#8 ++ t.lastop ++ 0#4 ++ t.errcode ++ 0#3 ++ BitVec.ofBool t.ovr ++ BitVec.ofBool t.keyValid
    ++ BitVec.ofBool t.err ++ BitVec.ofBool t.done ++ BitVec.ofBool t.busy

/-- A host write of `w` to STATUS: bits 1 and 4 clear DONE and OVR, every other bit is ignored
(10_state.md rule R29). -/
def Status.write (t : Status) (w : Word) : Status :=
  { t with done := t.done && !w.getLsbD 1, ovr := t.ovr && !w.getLsbD 4 }

/-- STATUS at the acceptance of a command with the opcode bits `op` (60_exceptions.md rule R200). OVR
and KEY_VALID are not changed. -/
def Status.accept (t : Status) (op : BitVec 8) : Status :=
  { t with busy := true, done := false, err := false, errcode := 0#4, lastop := op }

/-- STATUS at a completion with `code` (60_exceptions.md rule R204). KEY_VALID, OVR and LASTOP are not
changed. -/
def Status.complete (t : Status) (code : ErrCode) : Status :=
  { t with busy := false, done := true, err := decide (code ≠ .none), errcode := code.bits }

/-- The word a read of CTRL returns: IRQ_EN in bit 0, the rest 0 (10_state.md rule R26). -/
def ctrlWord (irqEn : Bool) : Word := 0#31 ++ BitVec.ofBool irqEn

/-- CAPS: ROUNDS 16, BLOCK_BYTES 8, SUBKEY_BITS 48, KEY_BITS 64 (10_state.md rule R25). -/
def capsWord : Word := 0x40#8 ++ 0x30#8 ++ 0x08#8 ++ 0x10#8

/-- The IRQ output: `CTRL.IRQ_EN & STATUS.DONE` (10_state.md rule R45). -/
def State.irq (s : State) : Bool := s.irqEn && s.status.done

end Sys2Proof.Machine
end

