-- ==== Sys2Proof/Machine/Memory.lean ====
section
/-! DEFINITION. The DMA memory (20_memory.md rule R60): the written bytes as (address, byte) pairs in
one canonical form, and the reading and writing of one byte, the only access width there is (rule
R64). -/

namespace Sys2Proof.Machine

/-- What an unlisted address reads as: the spec gives memory no content, and the model takes 0x00
(DESIGN CHOICE, notes/assumptions/1.md). -/
def Memory.unlisted : Byte := 0x00#8

/-- The canonical form: addresses strictly rising, all below 2^32, and no entry equal to what an
unlisted address reads as. -/
abbrev Memory.wf (m : Memory) : Prop :=
  m.Pairwise (fun e f => e.1 < f.1) ∧ ∀ e ∈ m, e.1 < 2 ^ 32 ∧ e.2 ≠ Memory.unlisted

/-- The byte at `a`. -/
def Memory.read : Memory → Nat → Byte
  | [], _ => Memory.unlisted
  | e :: m, a => if a = e.1 then e.2 else Memory.read m a

/-- Put `v` before the entries of `m`, all of which lie above `a`, unless it is what an unlisted
address reads as. -/
def Memory.put (m : Memory) (a : Nat) (v : Byte) : Memory :=
  if v = Memory.unlisted then m else (a, v) :: m

/-- Write the byte `v` at `a`, keeping the canonical form. -/
def Memory.write : Memory → Nat → Byte → Memory
  | [], a, v => Memory.put [] a v
  | e :: m, a, v =>
    if a < e.1 then Memory.put (e :: m) a v
    else if a = e.1 then Memory.put m a v
    else e :: Memory.write m a v

end Sys2Proof.Machine
end

