-- ==== Sys2Proof/Machine/Ops.lean ====
section
/-! DEFINITION. The named operations the meanings and the steps are written over: acceptance, drop and
completion (60_exceptions.md rules R200, R201 and R204, the core's one way to end a command and to
report an error), the DMA port (20_memory.md), the register window (10_state.md rules R22 to R39), and
reset (70_reset_and_hazards.md rules R240 to R243). -/

namespace Sys2Proof.Machine

/-- A free bit: number `n` of the open values (notes/assumptions/5.md). -/
def freeBit (n : Nat) : Bool := (Config.free 1 n).getLsbD 0

/-- Any working halves, latches and counters, from the 12 open values from number `n` on
(10_state.md rules R42 to R44, 93_implementation_defined.md U6; notes/assumptions/4.md). -/
def freeWork (n : Nat) : Work where
  wl := Config.free 32 n
  wr := Config.free 32 (n + 1)
  lop := Config.free 8 (n + 2)
  lkey := Config.free 64 (n + 3)
  lblk := Config.free 64 (n + 4)
  lsrc := Config.free 32 (n + 5)
  ldst := Config.free 32 (n + 6)
  llen := Config.free 32 (n + 7)
  lout := BitVec.ofNat 33 ((Config.free 33 (n + 8)).toNat % (2 ^ 32 + 1))
  ldir := if freeBit (n + 9) then .decode else .encode
  rnd := (Config.free 4 (n + 10)).toFin
  blk := (Config.free 30 (n + 11)).toNat % (2 ^ 29 + 1)

/-- Any subkey store, from the 16 open values from number `n` on (70_reset_and_hazards.md rule R241,
93_implementation_defined.md U5; notes/assumptions/3.md). -/
def freeSchedule (n : Nat) : Schedule := Vector.ofFn fun i : Fin 16 => Config.free 48 (n + i)

/-! ### Acceptance, drop and completion -/

/-- The common part of an acceptance: STATUS and LOP (60_exceptions.md rule R200). PHASE is set by the
command's own rule. -/
def State.accept (op : BitVec 8) (s : State) : State :=
  { s with status := s.status.accept op, work := { s.work with lop := op } }

/-- A CMD write while BUSY = 1: OVR is set and nothing else changes (60_exceptions.md rule R201). -/
def State.drop (s : State) : State := { s with status := { s.status with ovr := true } }

/-- `complete(code)`, and `raise Err(code)` for a code other than 0 (60_exceptions.md rule R204). The
working halves, latches and counters are unspecified until the next acceptance (10_state.md rules
R42 to R44; notes/assumptions/4.md). -/
def State.complete (code : ErrCode) (s : State) : State :=
  { s with
    phase := .idle
    status := s.status.complete code
    work := freeWork s.drawn
    drawn := s.drawn + 12 }

/-- A CMD write of a word with the opcode bits `op`: dropped while BUSY = 1 (rule R201), otherwise
accepted and then `body`, the command's own acceptance part (60_exceptions.md rule R200). -/
def State.issue (op : BitVec 8) (body : State → State) (s : State) : State :=
  if s.status.busy then s.drop else body (s.accept op)

/-- A CMD write of a word that is no command: ILLEGAL_CMD, and nothing else (30_encoding.md rule R84,
60_exceptions.md rule R200). -/
def State.illegal (w : Word) (s : State) : State :=
  s.issue (opcField w) fun a => a.complete .illegalCmd

/-- `DOUT <- v`: both halves in one step (10_state.md rule R38). -/
def State.setDout (v : Block) (s : State) : State := { s with doutHi := hi v, doutLo := lo v }

/-! ### The DMA port -/

/-- Why a DMA access fails. -/
inductive DmaFail where
  /-- `BUSERR`: `MEM_OK` is false (20_memory.md rule R60). -/
  | busErr
  /-- The address is not in the DMA space. -/
  | outside
  deriving DecidableEq, Repr

/-- The byte a DMA read of `a` finds: what memory holds, or any byte (open value `n`) where the byte is
written by another master during the command (20_memory.md rule R72 a) or where the host has not
cleaned its write on a platform that is not coherent (20_memory.md rule R76,
93_implementation_defined.md U9). -/
def State.dmaByte (c : Config) (s : State) (a n : Nat) : Byte :=
  if s.racedSrc.contains a || (s.dirty.contains a && !c.coherent) then Config.free 8 n
  else Memory.read s.mem a

/-- `MemRead(a, 1)` (00_scope.md rule R13, 20_memory.md rule R60). -/
def State.dmaRead (c : Config) (s : State) (a n : Nat) : Except DmaFail Byte :=
  if a < 2 ^ 32 then
    if c.memOk (BitVec.ofNat 32 a) .read then .ok (s.dmaByte c a n) else .error .busErr
  else .error .outside

/-- `MemWrite(a, 1, v)` (00_scope.md rule R13, 20_memory.md rule R60). Where another master has written
the byte during the command, a free bit says whether the core's value or the other one stays
(20_memory.md rule R72 c). The byte may now be stale in the host's caches (rule R76). -/
def State.dmaWrite (c : Config) (a : Nat) (v : Byte) (n : Nat) (s : State) : Except DmaFail State :=
  if a < 2 ^ 32 then
    if c.memOk (BitVec.ofNat 32 a) .write then
      .ok { s with
        mem := if s.racedDst.contains a && !freeBit n then s.mem else Memory.write s.mem a v
        stale := s.stale.insert a }
    else .error .busErr
  else .error .outside

/-- Byte `j` of block `BLK` of the padded source: a DMA read, or a zero byte of padding with no access
(43_block_chainer.md rule R162). -/
def State.sourceByte (c : Config) (s : State) (j : Nat) : Except DmaFail Byte :=
  if 8 * s.work.blk + j < s.work.llen.toNat then
    s.dmaRead c (byteAddr s.work.lsrc s.work.blk j) (s.drawn + j)
  else .ok 0x00#8

/-- `readBlock(BLK)`: the bytes in ascending order, the first failure ends it (43_block_chainer.md rule
R162). -/
def State.readBlock (c : Config) (s : State) : Except DmaFail Block := do
  let b0 ← s.sourceByte c 0
  let b1 ← s.sourceByte c 1
  let b2 ← s.sourceByte c 2
  let b3 ← s.sourceByte c 3
  let b4 ← s.sourceByte c 4
  let b5 ← s.sourceByte c 5
  let b6 ← s.sourceByte c 6
  let b7 ← s.sourceByte c 7
  .ok (b0 ++ b1 ++ b2 ++ b3 ++ b4 ++ b5 ++ b6 ++ b7)

/-- The bytes `js` of the output block `o` written at block `BLK` of the destination, in the order of
`js`: the state after them, or the state at the first failure with its reason (43_block_chainer.md
rule R163). -/
def State.writeBytes (c : Config) (o : Block) : List Nat → State → State × Option DmaFail
  | [], s => (s, none)
  | j :: js, s =>
    match s.dmaWrite c (byteAddr s.work.ldst s.work.blk j) (blockByte o j) (s.drawn + j) with
    | .ok s' => State.writeBytes c o js s'
    | .error e => (s, some e)

/-- The byte numbers of a block in ascending order (20_memory.md rule R65). -/
def byteOrder : List Nat := [0, 1, 2, 3, 4, 5, 6, 7]

/-! ### The register window -/

/-- A register of the window (10_state.md rule R22). -/
inductive Reg where
  | caps
  | ctrl
  | cmd
  | status
  | keyLo
  | keyHi
  | dinLo
  | dinHi
  | doutLo
  | doutHi
  | src
  | dst
  | len
  | outlen
  | blkdone
  | reserved
  deriving DecidableEq, Repr

/-- The register at an aligned offset (10_state.md rule R22). -/
def regAt (offset : BitVec 8) : Reg :=
  match offset.toNat with
  | 0x00 => .caps
  | 0x04 => .ctrl
  | 0x08 => .cmd
  | 0x0C => .status
  | 0x10 => .keyLo
  | 0x14 => .keyHi
  | 0x18 => .dinLo
  | 0x1C => .dinHi
  | 0x20 => .doutLo
  | 0x24 => .doutHi
  | 0x28 => .src
  | 0x2C => .dst
  | 0x30 => .len
  | 0x34 => .outlen
  | 0x38 => .blkdone
  | _ => .reserved

/-- The value a read of a register returns; no read has a side effect (10_state.md rules R23 to R37). -/
def State.readReg (s : State) : Reg → Word
  | .caps => capsWord
  | .ctrl => ctrlWord s.irqEn
  | .cmd => 0x00000000#32
  | .status => s.status.word
  | .keyLo => s.keyLo
  | .keyHi => s.keyHi
  | .dinLo => s.dinLo
  | .dinHi => s.dinHi
  | .doutLo => s.doutLo
  | .doutHi => s.doutHi
  | .src => s.src
  | .dst => s.dst
  | .len => s.len
  | .outlen => s.outlen
  | .blkdone => s.blkdone
  | .reserved => 0x00000000#32

/-- A write of `w` to a register other than CMD: RW registers take it, STATUS clears its W1C bits, RO
registers and reserved offsets ignore it (10_state.md rules R23, R24, R26 and R29 to R37). The
effect of a write to CMD is `command`, in HostPort.lean. -/
def State.writeReg (r : Reg) (w : Word) (s : State) : State :=
  match r with
  | .caps => s
  | .ctrl => { s with irqEn := w.getLsbD 0 }
  | .cmd => s
  | .status => { s with status := s.status.write w }
  | .keyLo => { s with keyLo := w }
  | .keyHi => { s with keyHi := w }
  | .dinLo => { s with dinLo := w }
  | .dinHi => { s with dinHi := w }
  | .doutLo => s
  | .doutHi => s
  | .src => { s with src := w }
  | .dst => { s with dst := w }
  | .len => { s with len := w }
  | .outlen => s
  | .blkdone => s
  | .reserved => s

/-! ### Memory accesses and cache maintenance by other masters -/

/-- The rounds that are done on the block in progress (43_block_chainer.md rule R173). -/
def State.roundsDone (s : State) : Nat :=
  match s.phase with
  | .idle => 0
  | .keygen => 0
  | .rounds => s.work.rnd.val
  | .bufRead => 0
  | .bufRounds => s.work.rnd.val
  | .bufWrite => 16

/-- The running buffer command has read `v` as its block `k`, whatever it read before: the working halves
follow if `k` is the block in progress, and the output block in memory if it is written. A destination
byte that another master has written during the command takes the new value or not, by a free bit
(20_memory.md rule R72). -/
def State.retake (c : Config) (k : Nat) (v : Block) (s : State) : State :=
  let t : State := { s with taken := s.taken.set k v }
  if k = s.work.blk then
    let p := roundsFrom c s.sk s.work.ldir s.roundsDone 0 (split v)
    { t with work := { s.work with wl := p.1, wr := p.2 } }
  else
    let u := (State.writeBytes c (crypt c s.sk s.work.ldir v) byteOrder
      { t with work := { s.work with blk := k } }).1
    { t with mem := u.mem, stale := u.stale, drawn := s.drawn + 8 }

/-- The output blocks `ks` have changed under the running command: of the `n` blocks from `m` on, each
that reads a byte of one of them reads it anew, and its own output block changes in turn (20_memory.md
rules R72 and R77). -/
def State.retakeReaders (c : Config) : (n m : Nat) → (ks : List Nat) → State → State
  | 0, _, _, s => s
  | n + 1, m, ks, s =>
    let reads := fun j => decide (8 * m + j < s.work.llen.toNat)
      && s.work.inBlocks ks (byteAddr s.work.lsrc m j)
    if byteOrder.any reads then
      let v := ofBytes fun j =>
        if reads j then s.dmaByte c (byteAddr s.work.lsrc m j) (s.drawn + j)
        else blockByte (s.taken.getD m 0#64) j
      State.retakeReaders c n (m + 1) (m :: ks)
        (State.retake c m v { s with drawn := s.drawn + 8 })
    else State.retakeReaders c n (m + 1) ks s

/-- The running buffer command may have read any byte at `n`: where it has read that byte of its source
already, its block is taken anew with a free value there, and so is what was computed from it
(20_memory.md rule R72 a; notes/assumptions/10.md). -/
def State.redraw (c : Config) (n : Nat) (s : State) : State :=
  let k := (n - s.work.lsrc.toNat) / 8
  if s.phase.isBuffer && s.work.inSource n && decide (k < s.taken.length) then
    let v := ofBytes fun j =>
      if j = (n - s.work.lsrc.toNat) % 8 then Config.free 8 s.drawn
      else blockByte (s.taken.getD k 0#64) j
    State.retakeReaders c (s.taken.length - (k + 1)) (k + 1) [k]
      (State.retake c k v { s with drawn := s.drawn + 1 })
  else s

/-- Where `performed` holds, a write of the byte at `n` by a bus master other than the core is performed
now. While a buffer command runs, what the core reads of a source byte is open, whether it reads it
later or has read it already (20_memory.md rule R72 a), and so is which write of a destination byte
stays (rule R72 c). -/
def State.markRace (c : Config) (performed : Bool) (n : Nat) (s : State) : State :=
  let races := performed && s.phase.isBuffer
  let t : State := { s with
    racedSrc := if races && s.work.inSource n then s.racedSrc.insert n else s.racedSrc
    racedDst := if races && s.work.inDestination n then s.racedDst.insert n else s.racedDst }
  let u := if races then t.redraw c n else t
  { t with
    mem := u.mem
    work := { s.work with wl := u.work.wl, wr := u.work.wr }
    taken := u.taken
    stale := u.stale
    drawn := u.drawn }

/-- A write of `v` at `a` by any bus master but the core (20_memory.md rule R72). During a buffer command
it is a race: in the source range the core's read of the byte gives any byte (rule R72 a); in the
destination range the byte's final value is this one or the core's (rule R72 c), by a free bit here if
the core has written it already, at the core's own write otherwise. -/
def State.landWrite (c : Config) (a : Addr) (v : Byte) (s : State) : State :=
  let n := a.toNat
  let lost := s.phase.isBuffer && s.work.inDestination n && s.work.written n && !freeBit s.drawn
  let t := State.markRace c true n { s with drawn := s.drawn + 1 }
  { t with mem := if lost then t.mem else Memory.write t.mem n v }

/-- The host's write of `v` at `a`. On a platform that is not coherent it waits in the host's caches for
a clean (20_memory.md rule R76), and the host no longer holds an older copy, unless the write races
with the core's (rule R72 c; notes/assumptions/14.md). -/
def State.memWrite (c : Config) (a : Addr) (v : Byte) (s : State) : State :=
  let t := s.landWrite c a v
  { t with
    dirty := s.dirty.insert a.toNat
    stale := if s.phase.isBuffer && s.work.inDestination a.toNat then t.stale
      else t.stale.filter fun b => decide (b ≠ a.toNat) }

/-- Another master's write of `v` at `a`: performed at once, and the host may hold an older copy
(20_memory.md rules R72 and R76). -/
def State.masterWrite (c : Config) (a : Addr) (v : Byte) (s : State) : State :=
  let t := s.landWrite c a v
  { t with stale := t.stale.insert a.toNat }

/-- The host holds an uncleaned write of the byte at `a`, on a platform that is not coherent (20_memory.md
rule R76). -/
def State.held (c : Config) (a : Addr) (s : State) : Bool := s.dirty.contains a.toNat && !c.coherent

/-- What any bus master but the core finds at `a`: what memory holds, or any byte where it reads the
destination range of a running buffer command (20_memory.md rule R72 b, 93_implementation_defined.md
U8) or where `uncertain` holds. -/
def State.byteUnless (uncertain : Bool) (a : Addr) (s : State) : Byte :=
  if (s.phase.isBuffer && s.work.inDestination a.toNat) || uncertain then Config.free 8 s.drawn
  else Memory.read s.mem a.toNat

/-- The byte a read of `a` by the host returns: any byte also where it was written in memory and the host
has not invalidated it, on a platform that is not coherent (20_memory.md rule R76, U9). -/
def State.memByte (c : Config) (a : Addr) (s : State) : Byte :=
  s.byteUnless (s.stale.contains a.toNat && !c.coherent) a

/-- The byte a read of `a` by another master returns: any byte also where the host wrote it and has not
cleaned it, on a platform that is not coherent (20_memory.md rule R76, U9). -/
def State.masterByte (c : Config) (a : Addr) (s : State) : Byte :=
  s.byteUnless (s.held c a) a

/-- A read of `a` by the host. -/
def State.memRead (c : Config) (a : Addr) (s : State) : State :=
  { s with reply := .byte (s.memByte c a), drawn := s.drawn + 1 }

/-- A read of `a` by another master. -/
def State.masterRead (c : Config) (a : Addr) (s : State) : State :=
  { s with reply := .byte (s.masterByte c a), drawn := s.drawn + 1 }

/-- The host cleans the byte at `a`: its uncleaned write is performed now, and a DMA read by a later
command finds it (20_memory.md rule R76). A clean that comes after the acceptance of a buffer command is
too late for it (70_reset_and_hazards.md rule R255) and races like any write (20_memory.md rule R72).
Where memory was written under the uncleaned write, the byte is then any byte
(93_implementation_defined.md U9; notes/assumptions/14.md). -/
def State.clean (c : Config) (a : Addr) (s : State) : State :=
  let t := State.markRace c (s.held c a) a.toNat { s with drawn := s.drawn + 1 }
  { t with
    mem := if s.held c a && s.stale.contains a.toNat
      then Memory.write t.mem a.toNat (Config.free 8 s.drawn) else t.mem
    dirty := s.dirty.filter fun b => decide (b ≠ a.toNat) }

/-- The host invalidates the byte at `a`: its next read finds memory (20_memory.md rule R76). In the
destination range of a running buffer command this comes too early, before DONE = 1, and ends nothing
(70_reset_and_hazards.md rule R255). An uncleaned write of the host's own may be lost or performed: the
byte is then any byte, and the write races as in `State.clean` (93_implementation_defined.md U9;
notes/assumptions/14.md). -/
def State.invalidate (c : Config) (a : Addr) (s : State) : State :=
  let t := State.markRace c (s.held c a) a.toNat { s with drawn := s.drawn + 1 }
  { t with
    mem := if s.held c a then Memory.write t.mem a.toNat (Config.free 8 s.drawn) else t.mem
    dirty := s.dirty.filter fun b => decide (b ≠ a.toNat)
    stale := if s.phase.isBuffer && s.work.inDestination a.toNat then t.stale
      else t.stale.filter fun b => decide (b ≠ a.toNat) }

/-! ### Reset -/

/-- The output block the core would have written for the block in progress, if a buffer command is
running and the block's reads succeed (70_reset_and_hazards.md rule R242). -/
def State.pendingBlock (c : Config) (s : State) : Option Block :=
  match s.phase with
  | .idle => none
  | .keygen => none
  | .rounds => none
  | .bufRead =>
    match s.readBlock c with
    | .ok v => some (crypt c s.sk s.work.ldir v)
    | .error _ => none
  | .bufRounds =>
    some (merge (roundsFrom c s.sk s.work.ldir (16 - s.work.rnd.val) s.work.rnd.val
      (s.work.wl, s.work.wr)))
  | .bufWrite => some (merge (s.work.wl, s.work.wr))

/-- Memory when reset cuts off the writing of the bytes `js` of the block `o`: each byte the core would
have written is written or not, by a free bit (70_reset_and_hazards.md rule R242); a byte whose
write would have failed ends it. -/
def State.cutOff (c : Config) (o : Block) (s : State) : List Nat → Memory → Memory
  | [], m => m
  | j :: js, m =>
    if byteAddr s.work.ldst s.work.blk j < 2 ^ 32
        ∧ c.memOk (BitVec.ofNat 32 (byteAddr s.work.ldst s.work.blk j)) .write = true then
      State.cutOff c o s js
        (if freeBit (s.drawn + 8 + j)
          then Memory.write m (byteAddr s.work.ldst s.work.blk j) (blockByte o j) else m)
    else m

/-- Memory after a reset: the bytes already written stay, those of the block in progress may or may not
be written (70_reset_and_hazards.md rules R242 and R243). -/
def State.memAfterReset (c : Config) (s : State) : Memory :=
  match s.pendingBlock c with
  | some o => State.cutOff c o s byteOrder s.mem
  | none => s.mem

/-- The bytes of the block in progress that a reset leaves possibly stale in the host's caches. -/
def State.staleAfterReset (s : State) : List Nat :=
  if s.phase.isBuffer then
    byteOrder.foldl (fun l j => l.insert (byteAddr s.work.ldst s.work.blk j)) s.stale
  else s.stale

/-- Reset: every register and internal element to its value of 10_state.md rule R49, in one step, with
the unspecified ones free (70_reset_and_hazards.md rules R240 to R243; notes/assumptions/3.md). The
platform's side stays: memory, the host's caches and the outstanding schedule. -/
def State.resetEvent (c : Config) (s : State) : State :=
  { State.reset with
    sk := freeSchedule (s.drawn + 16)
    work := freeWork (s.drawn + 32)
    mem := s.memAfterReset c
    host := s.host
    reply := s.reply
    drawn := s.drawn + 44
    dirty := s.dirty
    stale := s.staleAfterReset }

end Sys2Proof.Machine
end

