-- ==== Sys2Proof/Machine/BlockCore.lean ====
section
/-! DEFINITION. ENCB and DECB (42_block_core.md rules R147 and R148). -/

namespace Sys2Proof.Machine

/-- The own acceptance part of ENCB and DECB: NO_KEY without a schedule; else the block is latched and
split, and PHASE becomes ROUNDS (42_block_core.md rules R147 and R148). -/
def State.startBlock (d : Dir) (s : State) : State :=
  if s.status.keyValid then
    { s with
      work := { s.work with lblk := s.din, ldir := d, wl := hi s.din, wr := lo s.din, rnd := 0 }
      phase := .rounds }
  else s.complete .noKey

/-- ENCB written to CMD (42_block_core.md rule R147). The 16 round steps that follow are `roundsStep`,
in Sequencer.lean. -/
def execEncb (s : State) : Host.Outcome State Fault Refusal :=
  .next (s.issue 0x02#8 (State.startBlock .encode))

/-- DECB written to CMD (42_block_core.md rule R148). -/
def execDecb (s : State) : Host.Outcome State Fault Refusal :=
  .next (s.issue 0x03#8 (State.startBlock .decode))

end Sys2Proof.Machine
end

