-- ==== Sys2Proof/Machine/Chainer.lean ====
section
/-! DEFINITION. ENCBUF and DECBUF (43_block_chainer.md rules R165 to R167). -/

namespace Sys2Proof.Machine

/-- The RANGE condition of 43_block_chainer.md rule R167, in its sub-order, on unbounded integers. -/
def rangeError (src dst len : Word) : Bool :=
  decide (paddedLength len.toNat > 2 ^ 32 - 8)
    || decide (src.toNat + len.toNat > 2 ^ 32)
    || decide (dst.toNat + paddedLength len.toNat > 2 ^ 32)

/-- The operands of a buffer command latched: LSRC, LDST, LLEN, LDIR and LOUT (43_block_chainer.md rule
R167). No block has been read and no byte of the ranges raced for yet. -/
def State.latchBuffer (d : Dir) (s : State) : State :=
  { s with
    work := { s.work with
      lsrc := s.src
      ldst := s.dst
      llen := s.len
      ldir := d
      lout := BitVec.ofNat 33 (paddedLength s.len.toNat) }
    taken := []
    racedSrc := []
    racedDst := [] }

/-- The own acceptance part of ENCBUF and DECBUF (43_block_chainer.md rule R167). -/
def State.startBuffer (d : Dir) (s : State) : State :=
  let a : State := { s with blkdone := 0#32, outlen := 0#32 }
  if a.status.keyValid then
    let l := a.latchBuffer d
    if rangeError s.src s.dst s.len then l.complete .range
    else
      let o : State := { l with outlen := BitVec.ofNat 32 (paddedLength s.len.toNat) }
      if paddedLength s.len.toNat = 0 then o.complete .none
      else { o with work := { o.work with blk := 0 }, phase := .bufRead }
  else a.complete .noKey

/-- ENCBUF written to CMD (43_block_chainer.md rule R165). The steps that follow are `bufReadStep`,
`bufRoundsStep` and `bufWriteStep`, in Sequencer.lean. -/
def execEncbuf (s : State) : Host.Outcome State Fault Refusal :=
  .next (s.issue 0x04#8 (State.startBuffer .encode))

/-- DECBUF written to CMD (43_block_chainer.md rule R166). -/
def execDecbuf (s : State) : Host.Outcome State Fault Refusal :=
  .next (s.issue 0x05#8 (State.startBuffer .decode))

end Sys2Proof.Machine
end

