-- ==== Sys2Proof/Machine/Setkey.lean ====
section
/-! DEFINITION. SETKEY (40_subkey_schedule.md rule R103). -/

namespace Sys2Proof.Machine

/-- SETKEY's own acceptance part: `LKEY <- KEY`, `PHASE <- KEYGEN` (40_subkey_schedule.md rule R103). -/
def State.startKeygen (s : State) : State :=
  { s with work := { s.work with lkey := s.key }, phase := .keygen }

/-- SETKEY written to CMD. The KEYGEN step that follows is `keygenStep`, in Sequencer.lean. -/
def execSetkey (s : State) : Host.Outcome State Fault Refusal :=
  .next (s.issue 0x01#8 State.startKeygen)

end Sys2Proof.Machine
end

