-- ==== Sys2Proof/Machine/Dispatch.lean ====
section
/-! DEFINITION. One arm per command: what a write of its word to CMD does (60_exceptions.md rule R200,
the dispatch on w[7:0]). -/

namespace Sys2Proof.Machine

def exec (i : Instr) (s : State) : Host.Outcome State Fault Refusal :=
  match i with
  | .setkey => Sys2Proof.Machine.execSetkey s
  | .encb => Sys2Proof.Machine.execEncb s
  | .decb => Sys2Proof.Machine.execDecb s
  | .encbuf => Sys2Proof.Machine.execEncbuf s
  | .decbuf => Sys2Proof.Machine.execDecbuf s

end Sys2Proof.Machine
end

