-- ==== Sys2Proof/Machine/Sequencer.lean ====
section
/-! DEFINITION. The core steps of an accepted command, by PHASE (60_exceptions.md rule R202): KEYGEN
(40_subkey_schedule.md rule R103), ROUNDS (42_block_core.md rule R150), BUF_READ, BUF_ROUNDS and
BUF_WRITE (43_block_chainer.md rule R173). -/

namespace Sys2Proof.Machine

/-- The KEYGEN step: all 16 entries of SK at once, KEY_VALID, completion (40_subkey_schedule.md rules
R102 and R103). -/
def keygenStep (c : Config) (s : State) : State :=
  State.complete .none
    { s with sk := sched c s.work.lkey, status := { s.status with keyValid := true } }

/-- The halves after one more round, with the subkey of the direction and the round counter: shared by
the ROUNDS and BUF_ROUNDS steps (42_block_core.md rule R150, 43_block_chainer.md rule R173). -/
def State.roundOnce (c : Config) (s : State) : Half × Half :=
  oneRound c (subkeyAt s.sk s.work.ldir s.work.rnd) (s.work.wl, s.work.wr)

/-- The ROUNDS step (42_block_core.md rule R150). -/
def roundsStep (c : Config) (s : State) : State :=
  let p := s.roundOnce c
  let r : State := { s with work := { s.work with wl := p.1, wr := p.2 } }
  if s.work.rnd = 15 then (r.setDout (merge p)).complete .none
  else { r with work := { r.work with rnd := s.work.rnd + 1 } }

/-- The BUF_READ step (43_block_chainer.md rules R162, R168 and R173). -/
def bufReadStep (c : Config) (s : State) : Host.Outcome State Fault Refusal :=
  match s.readBlock c with
  | .ok v =>
    .next { s with
      work := { s.work with wl := hi v, wr := lo v, rnd := 0 }
      phase := .bufRounds
      taken := s.taken ++ [v]
      drawn := s.drawn + 8 }
  | .error .busErr => .next (State.complete .bus { s with drawn := s.drawn + 8 })
  | .error .outside => .fault .dmaOutsideSpace

/-- The BUF_ROUNDS step (43_block_chainer.md rule R173). -/
def bufRoundsStep (c : Config) (s : State) : State :=
  let p := s.roundOnce c
  let r : State := { s with work := { s.work with wl := p.1, wr := p.2 } }
  if s.work.rnd = 15 then { r with phase := .bufWrite }
  else { r with work := { r.work with rnd := s.work.rnd + 1 } }

/-- The end of a BUF_WRITE step whose eight bytes are all written: BLKDONE and BLK count the block, and
the command completes after the last one (43_block_chainer.md rules R163, R170 and R173). -/
def State.blockWritten (s : State) : State :=
  let t : State :=
    { s with blkdone := s.blkdone + 1#32, work := { s.work with blk := s.work.blk + 1 } }
  if t.work.blk = t.work.lout.toNat / 8 then t.complete .none else { t with phase := .bufRead }

/-- The BUF_WRITE step (43_block_chainer.md rules R163, R168 and R173). -/
def bufWriteStep (c : Config) (s : State) : Host.Outcome State Fault Refusal :=
  match State.writeBytes c (merge (s.work.wl, s.work.wr)) byteOrder s with
  | (t, none) => .next (State.blockWritten { t with drawn := t.drawn + 8 })
  | (t, some .busErr) => .next (State.complete .bus { t with drawn := t.drawn + 8 })
  | (_, some .outside) => .fault .dmaOutsideSpace

/-- The core's next step. An idle core keeps all its state (60_exceptions.md rule R216). -/
def coreStep (c : Config) (s : State) : Host.Outcome State Fault Refusal :=
  match s.phase with
  | .idle => .next s
  | .keygen => .next (keygenStep c s)
  | .rounds => .next (roundsStep c s)
  | .bufRead => bufReadStep c s
  | .bufRounds => .next (bufRoundsStep c s)
  | .bufWrite => bufWriteStep c s

/-- `n` core steps with no other event between them (70_reset_and_hazards.md rule R261). -/
def coreSteps (c : Config) : Nat → State → Host.Outcome State Fault Refusal
  | 0, s => .next s
  | n + 1, s =>
    match coreStep c s with
    | .next t => coreSteps c n t
    | .fault r => .fault r
    | .refused r => .refused r

end Sys2Proof.Machine
end

