-- ==== Sys2Proof/Machine/HostPort.lean ====
section
/-! DEFINITION. What each event of the outstanding schedule does (20_memory.md rule R78): register
accesses (10_state.md rule R23), the CMD write (rule R27), polling, memory accesses, cache
maintenance, and reset. -/

namespace Sys2Proof.Machine

/-- A write of `w` to CMD: the command it decodes to, or ILLEGAL_CMD (10_state.md rule R27, 30_encoding.md
rules R84 and R85). -/
def command (w : Word) (s : State) : Host.Outcome State Fault Refusal :=
  match decode w with
  | .ok i => exec i s
  | .error _ => .next (s.illegal w)

/-- A bus write to the window (10_state.md rule R23). -/
def busWrite (offset : BitVec 8) (size : Nat) (w : Word) (s : State) :
    Host.Outcome State Fault Refusal :=
  if size = 4 then
    if offset.toNat % 4 = 0 then
      match regAt offset with
      | .cmd => command w s
      | r => .next (s.writeReg r w)
    else .refused .accessMisaligned
  else .refused .accessSize

/-- A bus read of the window: the host gets the register's value and nothing else changes (10_state.md
rule R23, 20_memory.md rule R67). -/
def busRead (offset : BitVec 8) (size : Nat) (s : State) : Host.Outcome State Fault Refusal :=
  if size = 4 then
    if offset.toNat % 4 = 0 then .next { s with reply := .word (s.readReg (regAt offset)) }
    else .refused .accessMisaligned
  else .refused .accessSize

/-- One read of a poll (00_scope.md rule R14): if it finds the value, the poll is over; if not, the poll
stays outstanding and the core takes its next step (notes/assumptions/8.md). -/
def pollOnce (c : Config) (offset : BitVec 8) (mask value : Word) (s : State) :
    Host.Outcome State Fault Refusal :=
  if offset.toNat % 4 = 0 then
    let d := s.readReg (regAt offset)
    if d &&& mask = value then .next { s with reply := .word d }
    else coreStep c { s with host := .poll offset mask value :: s.host, reply := .word d }
  else .refused .accessMisaligned

/-- One event, already taken off the outstanding schedule. -/
def eventStep (c : Config) (e : Event) (s : State) : Host.Outcome State Fault Refusal :=
  match e with
  | .wr offset size w => busWrite offset size w s
  | .rd offset size => busRead offset size s
  | .poll offset mask value => pollOnce c offset mask value s
  | .core => coreStep c s
  | .memWrite a v => .next (s.memWrite c a v)
  | .memRead a => .next (s.memRead c a)
  | .masterWrite a v => .next (s.masterWrite c a v)
  | .masterRead a => .next (s.masterRead c a)
  | .clean a => .next (s.clean c a)
  | .invalidate a => .next (s.invalidate c a)
  | .reset => .next (s.resetEvent c)

/-- One step on a configuration: the next outstanding event, or, with none outstanding, the core's next
step (20_memory.md rule R78, 70_reset_and_hazards.md rule R262). -/
def stepWith (c : Config) (s : State) : Host.Outcome State Fault Refusal :=
  match s.host with
  | [] => coreStep c s
  | e :: rest => eventStep c e { s with host := rest }

end Sys2Proof.Machine
end

