-- ==== Sys2Proof/Machine/Step.lean ====
section
/-! DEFINITION. The machine's step, on the instance's own configuration, and where a test places the
command it runs next. -/

namespace Sys2Proof.Machine

/-- One step of the machine (10_state.md rule R50: the configuration is a parameter of the step). -/
def step (s : State) : Host.Outcome State Fault Refusal := stepWith Config.chip s

/-- `s` with a 32-bit write of the command word `w` to CMD as the next outstanding event
(30_encoding.md rule R88; notes/assumptions/7.md). -/
def State.withFetchWord (s : State) (nbits w : Nat) : State :=
  { s with host := .wr 0x08#8 4 (BitVec.ofNat 32 (w % 2 ^ nbits)) :: s.host }

end Sys2Proof.Machine
end

