-- ==== Sys2Proof/Machine/Program.lean ====
section
/-! DEFINITION. What the host sends: a bus transaction at a bus address (30_encoding.md rule R87), the
assembler's names (rule R88) and the pseudo-instructions (rule R89), as events of the outstanding
schedule. -/

namespace Sys2Proof.Machine

/-- A bus transaction (30_encoding.md rule R87). -/
inductive Transaction where
  | write (addr size : Nat) (data : Word)
  | read (addr size : Nat)
  deriving DecidableEq, Repr

/-- The offset in the 256-byte window of a bus address, if it lies in it (10_state.md rule R48,
60_exceptions.md rule R213). A transaction goes by the address of its first byte alone: one that starts
below REG_BASE and runs into the window is none of the window's, and one that starts in it and runs past
its end is (DESIGN CHOICE, notes/assumptions/20.md: the spec is silent). -/
def windowOffset (c : Config) (addr : Nat) : Option (BitVec 8) :=
  if c.regBase ≤ addr ∧ addr < c.regBase + 256 then some (BitVec.ofNat 8 (addr - c.regBase)) else none

/-- The event a transaction is to this core; a transaction outside the window does not reach it
(30_encoding.md rule R87). -/
def Transaction.event (c : Config) : Transaction → Option Event
  | .write addr size data => (windowOffset c addr).map fun off => .wr off size data
  | .read addr size => (windowOffset c addr).map fun off => .rd off size

/-- The host adds a transaction to what is outstanding, in the order it issues them (20_memory.md rule
R78). -/
def State.submit (c : Config) (t : Transaction) (s : State) : State :=
  { s with host := s.host ++ (t.event c).toList }

/-- The offset of a register (10_state.md rule R22); `reserved` stands for the first reserved offset. -/
def Reg.offset : Reg → BitVec 8
  | .caps => 0x00#8
  | .ctrl => 0x04#8
  | .cmd => 0x08#8
  | .status => 0x0C#8
  | .keyLo => 0x10#8
  | .keyHi => 0x14#8
  | .dinLo => 0x18#8
  | .dinHi => 0x1C#8
  | .doutLo => 0x20#8
  | .doutHi => 0x24#8
  | .src => 0x28#8
  | .dst => 0x2C#8
  | .len => 0x30#8
  | .outlen => 0x34#8
  | .blkdone => 0x38#8
  | .reserved => 0x3C#8

/-- `WR r, v` (00_scope.md rule R14). -/
def wr (r : Reg) (v : Word) : Event := .wr r.offset 4 v

/-- `RD r` (00_scope.md rule R14). -/
def rd (r : Reg) : Event := .rd r.offset 4

/-- A command mnemonic stands for `WR CMD, <word>` (30_encoding.md rule R88). -/
def cmd (i : Instr) : Event := wr .cmd (encode i)

/-- `WAITDONE` (30_encoding.md rule R89). -/
def waitDone : Event := .poll Reg.status.offset 0x00000002#32 0x00000002#32

/-- `ACKDONE` (30_encoding.md rule R89). -/
def ackDone : Event := wr .status 0x00000002#32

/-- `ACKOVR` (30_encoding.md rule R89). -/
def ackOvr : Event := wr .status 0x00000010#32

/-- `LOADKEY k` (30_encoding.md rule R89). -/
def loadKey (k : Block) : List Event :=
  [wr .keyHi (hi k), wr .keyLo (lo k), cmd .setkey, waitDone]

/-- `ENC64 b` (30_encoding.md rule R89). -/
def enc64 (b : Block) : List Event :=
  [wr .dinHi (hi b), wr .dinLo (lo b), cmd .encb, waitDone, rd .doutHi, rd .doutLo]

/-- `DEC64 b` (30_encoding.md rule R89). -/
def dec64 (b : Block) : List Event :=
  [wr .dinHi (hi b), wr .dinLo (lo b), cmd .decb, waitDone, rd .doutHi, rd .doutLo]

/-- `ENCMEM s, d, n` (30_encoding.md rule R89). -/
def encMem (s d n : Word) : List Event :=
  [wr .src s, wr .dst d, wr .len n, cmd .encbuf, waitDone]

/-- `DECMEM s, d, n` (30_encoding.md rule R89). -/
def decMem (s d n : Word) : List Event :=
  [wr .src s, wr .dst d, wr .len n, cmd .decbuf, waitDone]

end Sys2Proof.Machine
end

