-- ==== Sys2Proof/Machine/RefConfig.lean ====
section
/-! DEFINITION. A configuration built from tables as the spec writes them (00_scope.md rule R8), and the
reference configuration REFCFG (00_scope.md rule R10, 92_eei_decisions.md D25). REFCFG is for the
spec's test vectors only: the machine runs on `Config.chip`. -/

namespace Sys2Proof

/-- Entry `i` of a table of positions, as the number below 32 that `Config` holds. -/
def tablePos (t : List Nat) (i : Nat) : Fin 32 := Fin.ofNat 32 (t.getD i 1 - 1)

/-- The index at which a table holds a position. -/
def tableIndex (t : List Nat) (p : Fin 32) : Fin 32 := Fin.ofNat 32 (t.idxOf (p.val + 1))

theorem tablePos_val {t : List Nat} (h : positionsOk t = true) {i : Nat} (hi : i < t.length) :
    (tablePos t i).val + 1 = t[i] := by
  have hp : 1 ≤ t[i] ∧ t[i] ≤ 32 := by
    simp only [positionsOk, List.all_eq_true, decide_eq_true_eq] at h
    exact h _ (List.getElem_mem hi)
  simp only [tablePos, List.getD_eq_getElem _ _ hi, Fin.val_ofNat]
  omega

theorem tableIndex_tablePos {t : RawTables} (h : t.ptableOk = true) (i : Fin 32) :
    tableIndex t.ptable (tablePos t.ptable i) = i := by
  simp only [RawTables.ptableOk, Bool.and_eq_true, decide_eq_true_eq] at h
  obtain ⟨⟨hlen, hpos⟩, hnd⟩ := h
  have hi : i.val < t.ptable.length := by omega
  apply Fin.ext
  simp only [tableIndex, tablePos_val hpos hi, hnd.idxOf_getElem i hi, Fin.val_ofNat]
  omega

/-- On a finite set a left inverse is a right inverse. -/
theorem rightInverse_of_leftInverse {n : Nat} {f g : Fin n → Fin n}
    (h : Function.LeftInverse g f) : Function.RightInverse g f := fun j => by
  obtain ⟨i, rfl⟩ := Finite.surjective_of_injective h.injective j
  rw [h i]

/-- The permutation a well-formed `PTABLE` stands for (00_scope.md rule R8: "a bijection onto 1..32"). -/
def RawTables.perm (t : RawTables) (h : t.ptableOk = true) : Equiv.Perm (Fin 32) where
  toFun i := tablePos t.ptable i
  invFun := tableIndex t.ptable
  left_inv := tableIndex_tablePos h
  right_inv := rightInverse_of_leftInverse (tableIndex_tablePos h)

/-- The configuration of well-formed tables, a subkey derivation and the platform parameters. -/
def RawTables.config (t : RawTables) (h : t.ptableOk = true) (subkey : Fin 16 → Block → Subkey)
    (regBase : Nat) (memOk : Addr → AccessKind → Bool) (coherent : Bool) : Config where
  etable := Vector.ofFn fun i : Fin 48 => tablePos t.etable i
  ptable := t.perm h
  sbox := Vector.ofFn fun r : Fin 4 => Vector.ofFn fun k : Fin 16 =>
    BitVec.ofNat 4 ((t.sbox.getD r []).getD k 0)
  subkey := subkey
  regBase := regBase
  memOk := memOk
  coherent := coherent

/-- Building an instance: ill-formed tables are refused (00_scope.md rule R8, 93_implementation_defined.md
U17: "No model is built from it"). -/
def RawTables.build (t : RawTables) (subkey : Fin 16 → Block → Subkey) (regBase : Nat)
    (memOk : Addr → AccessKind → Bool) (coherent : Bool) : Option Config :=
  if h : t.ptableOk = true then
    if t.wf then some (t.config h subkey regBase memOk coherent) else none
  else none

/-- The tables of REFCFG (92_eei_decisions.md D25). -/
def RawTables.ref : RawTables where
  etable :=
    [32,  1,  2,  3,  4,  5,
      4,  5,  6,  7,  8,  9,
      8,  9, 10, 11, 12, 13,
     12, 13, 14, 15, 16, 17,
     16, 17, 18, 19, 20, 21,
     20, 21, 22, 23, 24, 25,
     24, 25, 26, 27, 28, 29,
     28, 29, 30, 31, 32,  1]
  ptable :=
    [16,  7, 20, 21, 29, 12, 28, 17,
      1, 15, 23, 26,  5, 18, 31, 10,
      2,  8, 24, 14, 32, 27,  3,  9,
     19, 13, 30,  6, 22, 11,  4, 25]
  sbox :=
    [[14,  4, 13,  1,  2, 15, 11,  8,  3, 10,  6, 12,  5,  9,  0,  7],
     [ 0, 15,  7,  4, 14,  2, 13,  1, 10,  6, 12, 11,  9,  5,  3,  8],
     [ 4,  1, 14,  8, 13,  6,  2, 11, 15, 12,  9,  7,  3, 10,  5,  0],
     [15, 12,  8,  2,  4,  9,  1,  7,  5, 11,  3, 14, 10,  0,  6, 13]]

/-- `SUBKEY(i, K) = (K >> i)[47:0]` of REFCFG (00_scope.md rule R10). -/
def refSubkey (i : Fin 16) (k : Block) : Subkey := (k >>> i.val).extractLsb' 0 48

/-- REFCFG on a platform (00_scope.md rules R9 and R10). -/
def refConfig (regBase : Nat) (memOk : Addr → AccessKind → Bool) (coherent : Bool) : Config :=
  RawTables.ref.config (by decide) refSubkey regBase memOk coherent

end Sys2Proof
end

