-- ==== Sys2Proof/Safety.lean ====
section
/-! DEFINITION. What counts as a safe state, in the terms the claims use: the relations between fields
that the rules state and every step keeps, what a frame leaves unchanged, the measure of a running
command, and the padded source a buffer command stands for. -/

namespace Sys2Proof.Machine

/-- What the rules say of the fields while a buffer command runs (43_block_chainer.md rules R160, R161,
R167 and R170, 10_state.md rules R36 and R37). -/
structure State.BufferOk (s : State) : Prop where
  /-- LOUT is the padded length of LLEN. -/
  padded : s.work.lout.toNat = paddedLength s.work.llen.toNat
  /-- The source range ends at or below the top of the DMA space. -/
  source : s.work.lsrc.toNat + s.work.llen.toNat ≤ 2 ^ 32
  /-- So does the destination range. -/
  destination : s.work.ldst.toNat + s.work.lout.toNat ≤ 2 ^ 32
  /-- BLK is the index of a block of the buffer. -/
  block : s.work.blk < s.work.lout.toNat / 8
  /-- BLKDONE counts the blocks before it. -/
  done : s.blkdone.toNat = s.work.blk
  /-- OUTLEN holds the padded length. -/
  outlen : s.outlen.toNat = s.work.lout.toNat

/-- What the rules say of the record of the input blocks while a buffer command runs: whatever races have
made of an input block (20_memory.md rule R72 a), what the core computes from it is what the rules give
for it (43_block_chainer.md rules R162 to R164). -/
structure State.TakenOk (c : Config) (s : State) : Prop where
  /-- The blocks before BLK are read, and block BLK too once its reading is over. -/
  length : s.taken.length = s.work.blk + if s.phase = .bufRead then 0 else 1
  /-- The working halves are the rounds done on block BLK. -/
  halves : s.phase ≠ .bufRead → (s.work.wl, s.work.wr)
    = roundsFrom c s.sk s.work.ldir s.roundsDone 0 (split (s.taken.getD s.work.blk 0#64))
  /-- The platform has answered the writes of every block before BLK. -/
  answered : ∀ k j, k < s.work.blk → j < 8 → byteAddr s.work.ldst k j < 2 ^ 32
    ∧ c.memOk (BitVec.ofNat 32 (byteAddr s.work.ldst k j)) .write = true
  /-- A byte of an output block before BLK that no other master has written is the byte of the block's
  transform. -/
  outputs : ∀ k j, k < s.work.blk → j < 8 →
    s.racedDst.contains (byteAddr s.work.ldst k j) = false →
    Memory.read s.mem (byteAddr s.work.ldst k j)
      = blockByte (crypt c s.sk s.work.ldir (s.taken.getD k 0#64)) j

/-- The opcode that LOP holds in a phase (60_exceptions.md rule R200, 10_state.md rule R43). -/
def opcodeIn : Phase → Dir → BitVec 8 → Prop
  | .idle, _, _ => True
  | .keygen, _, op => op = 0x01#8
  | .rounds, .encode, op => op = 0x02#8
  | .rounds, .decode, op => op = 0x03#8
  | .bufRead, .encode, op => op = 0x04#8
  | .bufRead, .decode, op => op = 0x05#8
  | .bufRounds, .encode, op => op = 0x04#8
  | .bufRounds, .decode, op => op = 0x05#8
  | .bufWrite, .encode, op => op = 0x04#8
  | .bufWrite, .decode, op => op = 0x05#8

/-- The invariant of the machine on a configuration: it holds at reset and every step keeps it. -/
structure State.Inv (c : Config) (s : State) : Prop where
  /-- BUSY = 1 exactly when PHASE is not IDLE (10_state.md rule R44). -/
  busyPhase : s.status.busy = true ↔ s.phase ≠ .idle
  /-- While BUSY = 1, DONE = 0, ERR = 0 and ERRCODE = 0 (10_state.md rule R28). -/
  busyQuiet : s.status.busy = true →
    s.status.done = false ∧ s.status.err = false ∧ s.status.errcode = 0#4
  /-- ERR = 1 exactly with a code other than 0 (60_exceptions.md rule R204). -/
  errCode : s.status.err = true ↔ s.status.errcode ≠ 0#4
  /-- Codes 5 to 15 are never raised (60_exceptions.md rule R205). -/
  codeRange : s.status.errcode.toNat ≤ 4
  /-- KEY_VALID = 1 only when SK holds the schedule of some key (10_state.md rule R41). -/
  schedule : s.status.keyValid = true → ∃ k, s.sk = sched c k
  /-- A block or buffer command runs only with KEY_VALID = 1 (60_exceptions.md rule R203). -/
  keyed : s.phase = .rounds ∨ s.phase.isBuffer = true → s.status.keyValid = true
  /-- LOP is the opcode of the running command, and LASTOP shows it (60_exceptions.md rule R200). -/
  opcode : opcodeIn s.phase s.work.ldir s.work.lop
  /-- LASTOP is LOP while a command runs. -/
  lastop : s.status.busy = true → s.status.lastop = s.work.lop
  /-- The rounds still to do on the working halves give the result of the whole command
  (42_block_core.md rules R147 and R148). -/
  progress : s.phase = .rounds →
    merge (roundsFrom c s.sk s.work.ldir (16 - s.work.rnd.val) s.work.rnd.val
      (s.work.wl, s.work.wr)) = crypt c s.sk s.work.ldir s.work.lblk
  /-- The fields of a running buffer command agree. -/
  buffer : s.phase.isBuffer = true → s.BufferOk
  /-- So do its results so far and the input blocks it has read. -/
  record : s.phase.isBuffer = true → s.TakenOk c
  /-- BLK is in 0..2^29 (10_state.md rule R44). -/
  blkRange : s.work.blk ≤ 2 ^ 29
  /-- LOUT is in 0..2^32 (10_state.md rule R43). -/
  loutRange : s.work.lout.toNat ≤ 2 ^ 32
  /-- Memory is in its canonical form. -/
  memory : Memory.wf s.mem

/-- The registers only the host writes keep their values: CTRL, KEY, DIN, SRC, DST and LEN (10_state.md
rule R21). -/
def SameHostRegisters (s t : State) : Prop :=
  t.irqEn = s.irqEn ∧ t.keyLo = s.keyLo ∧ t.keyHi = s.keyHi ∧ t.dinLo = s.dinLo ∧ t.dinHi = s.dinHi
    ∧ t.src = s.src ∧ t.dst = s.dst ∧ t.len = s.len

/-- DOUT keeps its value. -/
def SameDout (s t : State) : Prop := t.doutLo = s.doutLo ∧ t.doutHi = s.doutHi

/-- OUTLEN and BLKDONE keep their values. -/
def SameBufferResults (s t : State) : Prop := t.outlen = s.outlen ∧ t.blkdone = s.blkdone

/-- The schedule and its flag keep their values. -/
def SameSchedule (s t : State) : Prop := t.sk = s.sk ∧ t.status.keyValid = s.status.keyValid

/-- Every byte of memory keeps its value. -/
def SameMemory (s t : State) : Prop := ∀ a, Memory.read t.mem a = Memory.read s.mem a

/-- The core is idle after a completion with `code` of the command with the opcode bits `op`, and OVR is
as it was (60_exceptions.md rules R200 and R204). -/
def Completed (code : ErrCode) (op : BitVec 8) (s t : State) : Prop :=
  t.phase = .idle ∧ t.status.busy = false ∧ t.status.done = true
    ∧ t.status.err = decide (code ≠ .none) ∧ t.status.errcode = code.bits
    ∧ t.status.lastop = op ∧ t.status.ovr = s.status.ovr

/-- The core runs the command with the opcode bits `op` after its acceptance (60_exceptions.md rule
R200). -/
def Running (op : BitVec 8) (s t : State) : Prop :=
  t.status.busy = true ∧ t.status.done = false ∧ t.status.err = false ∧ t.status.errcode = 0#4
    ∧ t.status.lastop = op ∧ t.status.ovr = s.status.ovr ∧ t.work.lop = op

/-- Byte `i` of the padded source buffer of LEN bytes at SRC: the memory's byte, or zero padding
(43_block_chainer.md rules R160 and R162). -/
def State.paddedByte (s : State) (i : Nat) : Byte :=
  if i < s.len.toNat then Memory.read s.mem (s.src.toNat + i) else 0x00#8

/-- Block `k` of the padded source buffer (43_block_chainer.md rules R161 and R162). -/
def State.paddedBlock (s : State) (k : Nat) : Block := ofBytes fun j => s.paddedByte (8 * k + j)

/-- The number of blocks of the buffer (43_block_chainer.md rule R161). -/
def State.blockCount (s : State) : Nat := paddedLength s.len.toNat / 8

/-- Every byte of the source range reads without a bus error, and as memory holds it: no byte of it
waits in a cache of a platform that is not coherent (20_memory.md rules R60 and R76). -/
def State.SourceReadable (c : Config) (s : State) : Prop :=
  ∀ i, i < s.len.toNat →
    c.memOk (BitVec.ofNat 32 (s.src.toNat + i)) .read = true
      ∧ (c.coherent = true ∨ s.dirty.contains (s.src.toNat + i) = false)

/-- Every byte of the destination range is written without a bus error (20_memory.md rule R60). -/
def State.DestinationWritable (c : Config) (s : State) : Prop :=
  ∀ i, i < paddedLength s.len.toNat →
    c.memOk (BitVec.ofNat 32 (s.dst.toNat + i)) .write = true

/-- The destination does not run ahead of the source into it: not `SRC < DST < SRC + LEN` (20_memory.md
rule R77, 70_reset_and_hazards.md rule R254). -/
def State.NoForwardOverlap (s : State) : Prop :=
  ¬ (s.src.toNat < s.dst.toNat ∧ s.dst.toNat < s.src.toNat + s.len.toNat)

/-- The core steps a running command still takes when no bus error ends it (60_exceptions.md rule R202,
70_reset_and_hazards.md rule R261). -/
def State.stepsLeft (s : State) : Nat :=
  match s.phase with
  | .idle => 0
  | .keygen => 1
  | .rounds => 16 - s.work.rnd.val
  | .bufRead => 18 * (s.work.lout.toNat / 8 - s.work.blk)
  | .bufRounds => 18 * (s.work.lout.toNat / 8 - s.work.blk - 1) + (16 - s.work.rnd.val) + 1
  | .bufWrite => 18 * (s.work.lout.toNat / 8 - s.work.blk - 1) + 1

/-- The registers the host may write while a command runs (10_state.md rule R39). -/
def hostWritable : List Reg := [.ctrl, .keyLo, .keyHi, .dinLo, .dinHi, .src, .dst, .len]

/-- The value a register reads after a write of `w` to it, `old` being its value before (10_state.md
rules R23, R24, R26 and R29). -/
def readAfterWrite (r : Reg) (w old : Word) : Word :=
  match r with
  | .caps => old
  | .ctrl => w &&& 0x00000001#32
  | .cmd => old
  | .status => old &&& ~~~(w &&& 0x00000012#32)
  | .keyLo => w
  | .keyHi => w
  | .dinLo => w
  | .dinHi => w
  | .doutLo => old
  | .doutHi => old
  | .src => w
  | .dst => w
  | .len => w
  | .outlen => old
  | .blkdone => old
  | .reserved => old

/-- Everything outside the register window that a register write could disturb keeps its value. -/
def SameInside (s t : State) : Prop :=
  t.sk = s.sk ∧ t.work = s.work ∧ t.phase = s.phase ∧ t.mem = s.mem

/-- The next state of an outcome, changed by `f`; a stop stays as it is. -/
def mapNext (f : State → State) :
    Host.Outcome State Fault Refusal → Host.Outcome State Fault Refusal
  | .next s => .next (f s)
  | .fault r => .fault r
  | .refused r => .refused r

/-- What an accepted block command does from `s` to its end, in the direction `d`: it latches DIN, shows
the old DOUT while it runs, and after its 16 round steps DOUT holds the transformed block, also when the
host writes DIN at any moment after the acceptance (42_block_core.md rules R147, R148 and R150). -/
def BlockCommandRuns (c : Config) (i : Instr) (d : Dir) (s : State) : Prop :=
  ∃ t u, exec i s = .next t
    ∧ Running (opcodeOf i) s t ∧ t.phase = .rounds ∧ t.work.lblk = s.din ∧ t.work.ldir = d
    ∧ t.work.wl = hi s.din ∧ t.work.wr = lo s.din ∧ t.work.rnd = 0
    ∧ (∀ n, n < 16 → ∃ v, coreSteps c n t = .next v
        ∧ v.status.busy = true ∧ v.status.done = false ∧ SameDout s v
        ∧ ∀ (r : Reg) (w : Word), r = .dinLo ∨ r = .dinHi →
            ∃ u', coreSteps c (16 - n) (v.writeReg r w) = .next u' ∧ u'.dout = crypt c s.sk d s.din)
    ∧ coreSteps c 16 t = .next u
    ∧ u.dout = crypt c s.sk d s.din ∧ Completed .none (opcodeOf i) s u
    ∧ SameHostRegisters s u ∧ SameBufferResults s u ∧ SameSchedule s u ∧ SameMemory s u

/-- What a block command without a schedule does (42_block_core.md rules R147 and R148). -/
def BlockCommandNeedsKey (i : Instr) (s : State) : Prop :=
  ∃ t, exec i s = .next t ∧ Completed .noKey (opcodeOf i) s t
    ∧ SameHostRegisters s t ∧ SameDout s t ∧ SameBufferResults s t ∧ SameSchedule s t
    ∧ SameMemory s t

/-- The two buffer commands with their directions (43_block_chainer.md rules R165 and R166). -/
def bufferCommands : List (Instr × Dir) := [(.encbuf, .encode), (.decbuf, .decode)]

/-- What an accepted buffer command does from `s` to its end, in the direction `d`, when no bus error
occurs: it takes 18 core steps a block, every block of the destination is the transformed block of
the padded source, and no other byte of memory changes (43_block_chainer.md rules R164 to R166 and
R170). -/
def BufferCommandRuns (c : Config) (i : Instr) (d : Dir) (s : State) : Prop :=
  ∃ t u, exec i s = .next t ∧ Running (opcodeOf i) s t
    ∧ coreSteps c (18 * s.blockCount) t = .next u
    ∧ Completed .none (opcodeOf i) s u
    ∧ (∀ k j, k < s.blockCount → j < 8 →
        Memory.read u.mem (byteAddr s.dst k j) = blockByte (crypt c s.sk d (s.paddedBlock k)) j)
    ∧ (∀ a, ¬ (s.dst.toNat ≤ a ∧ a < s.dst.toNat + paddedLength s.len.toNat) →
        Memory.read u.mem a = Memory.read s.mem a)
    ∧ u.blkdone.toNat = s.blockCount ∧ u.outlen.toNat = paddedLength s.len.toNat
    ∧ SameHostRegisters s u ∧ SameDout s u ∧ SameSchedule s u

/-- The RANGE condition, on unbounded integers (43_block_chainer.md rule R167). -/
def State.OutOfRange (s : State) : Prop :=
  2 ^ 32 - 8 < 8 * ((s.len.toNat + 7) / 8) ∨ 2 ^ 32 < s.src.toNat + s.len.toNat
    ∨ 2 ^ 32 < s.dst.toNat + 8 * ((s.len.toNat + 7) / 8)

/-- The conditions under which a buffer command runs to its end without an error: an idle core, a loaded
schedule, a buffer of at least one byte in range, an answering platform, no cached source byte
(43_block_chainer.md rule R167, 70_reset_and_hazards.md rules R250 to R255). Source and destination
may overlap in any way (20_memory.md rule R77). -/
structure State.BufferAccepted (c : Config) (s : State) : Prop where
  idle : s.status.busy = false
  keyed : s.status.keyValid = true
  nonempty : s.len.toNat ≠ 0
  length : paddedLength s.len.toNat ≤ 2 ^ 32 - 8
  source : s.src.toNat + s.len.toNat ≤ 2 ^ 32
  destination : s.dst.toNat + paddedLength s.len.toNat ≤ 2 ^ 32
  readable : s.SourceReadable c
  writable : s.DestinationWritable c
  memory : Memory.wf s.mem

/-- The conditions under which it also gives the result of DOC0's `processBuffer` on a separate copy
(20_memory.md rule R77). -/
structure State.BufferReady (c : Config) (s : State) : Prop extends State.BufferAccepted c s where
  overlap : s.NoForwardOverlap

/-- Block `k` of the padded source buffer as the memory `m` holds it (43_block_chainer.md rule R162). -/
def State.blockIn (s : State) (m : Memory) (k : Nat) : Block := State.paddedBlock { s with mem := m } k

/-- `writeBlock(k, o)` at `base`: the eight bytes of `o` (43_block_chainer.md rule R163). -/
def writeBlockIn (m : Memory) (base : Addr) (k : Nat) (o : Block) : Memory :=
  byteOrder.foldl (fun n j => Memory.write n (byteAddr base k j) (blockByte o j)) m

/-- Memory after the first `k` rounds of the loop of 43_block_chainer.md rules R165 and R166: block by
block, read from the memory the blocks before left, transformed, and written. -/
def State.netMemory (c : Config) (d : Dir) (s : State) : Nat → Memory
  | 0 => s.mem
  | k + 1 =>
    writeBlockIn (s.netMemory c d k) s.dst k (crypt c s.sk d (s.blockIn (s.netMemory c d k) k))

/-- The state `t` of an accepted command takes exactly `n` core steps to its completion
(70_reset_and_hazards.md rule R261). -/
def TakesSteps (c : Config) (n : Nat) (t : State) : Prop :=
  (∀ m, m < n → ∃ v, coreSteps c m t = .next v ∧ v.status.busy = true)
    ∧ ∃ u, coreSteps c n t = .next u ∧ u.status.busy = false ∧ u.status.done = true

end Sys2Proof.Machine
end

