-- ==== Sys2Proof/Certificates/Slice0/Obligations.lean ====
section
/-! DEFINITION. The statements for the provers. Each docstring names the rule of spec/ it formalises, or
says that it is derived. Statements with a configuration argument hold for every configuration, the
instance's own `Config.chip` among them. -/

open Sys2Proof Sys2Proof.Machine

/-! ### Encoding -/

/-- Derived from 30_encoding.md rules R83 and R84, on the five words and on words next to them (a sanity
statement). The two names of the refusal are the model's choice (notes/assumptions/22.md). -/
def Obligations.TableWordsDecode : Prop :=
  decode 0x00000001#32 = .ok .setkey ∧ decode 0x00000002#32 = .ok .encb
    ∧ decode 0x00000003#32 = .ok .decb ∧ decode 0x00000004#32 = .ok .encbuf
    ∧ decode 0x00000005#32 = .ok .decbuf
    ∧ decode 0x00000000#32 = .error .unassignedOpcode
    ∧ decode 0x00000006#32 = .error .unassignedOpcode
    ∧ decode 0x00000101#32 = .error .reservedBits ∧ decode 0xFFFFFFFF#32 = .error .reservedBits

/-- Derived from 30_encoding.md rules R83 and R84: the five words, and a word selects a command only when
it equals one of them exactly. A word that is none of them is refused; which of the two names the refusal
has is the model's choice (notes/assumptions/22.md). -/
def Obligations.DecodeAcceptsExactlyTheOpcodeMap : Prop :=
  (encode .setkey = 0x00000001#32 ∧ encode .encb = 0x00000002#32 ∧ encode .decb = 0x00000003#32
      ∧ encode .encbuf = 0x00000004#32 ∧ encode .decbuf = 0x00000005#32)
    ∧ (∀ w i, decode w = .ok i ↔ w = encode i)
    ∧ (∀ w, (∀ i, w ≠ encode i) →
        decode w = .error (if w.toNat < 2 ^ 8 then .unassignedOpcode else .reservedBits))

/-! ### The step -/

/-- Derived from 10_state.md rule R27 and 30_encoding.md rule R88: when the next outstanding event writes
a command's word to CMD, the step is `exec` of that command, with the event taken off. -/
def Obligations.StepRunsTheDecodedCommand : Prop :=
  ∀ (s : State) (w : Word) (i : Instr) (rest : List Event),
    s.host = .wr 0x08#8 4 w :: rest → decode w = .ok i → step s = exec i { s with host := rest }

/-- Derived: a command word placed by `withFetchWord` is what the next step runs, and nothing else of the
state is changed by placing it. -/
def Obligations.PlacedCommandRunsNext : Prop :=
  ∀ (s : State) (n w : Nat) (i : Instr),
    decodeTableWord n w = some i → step (s.withFetchWord n w) = exec i s

/-- Derived from 20_memory.md rule R78 and 70_reset_and_hazards.md rule R262: with nothing outstanding,
`n` steps of the machine are `n` core steps. -/
def Obligations.RunWithoutEventsIsCoreSteps : Prop :=
  ∀ (s : State) (n : Nat), s.host = [] →
    Host.Core.run Sys2Proof.core n s = coreSteps Config.chip n s

/-- Derived from 60_exceptions.md rule R216: an idle core keeps all its state indefinitely. -/
def Obligations.IdleCoreKeepsItsState : Prop :=
  ∀ (s : State) (n : Nat), s.phase = .idle → s.host = [] →
    Host.Core.run Sys2Proof.core n s = .next s

/-- Derived from 00_scope.md rule R14: a poll is over at the read that finds the value; before that it
stays outstanding, the host has the value read, and the core takes its next step (the one
interleaving of notes/assumptions/8.md). -/
def Obligations.PollReadsUntilItFinds : Prop :=
  ∀ (s : State) (offset : BitVec 8) (mask value : Word) (rest : List Event),
    s.host = .poll offset mask value :: rest → offset.toNat % 4 = 0 →
    (s.readReg (regAt offset) &&& mask = value →
      step s = .next { s with host := rest, reply := .word (s.readReg (regAt offset)) })
    ∧ (s.readReg (regAt offset) &&& mask ≠ value →
      step s = coreStep Config.chip { s with reply := .word (s.readReg (regAt offset)) })

/-! ### Acceptance and drop -/

/-- 30_encoding.md rule R84: an illegal word completes at once with ILLEGAL_CMD (code 1) and changes
nothing else; while the core is busy it is dropped before decoding. -/
def Obligations.IllegalWordCompletesAtOnce : Prop :=
  ∀ (s : State) (w : Word) (rest : List Event),
    s.host = .wr 0x08#8 4 w :: rest → (∀ i, w ≠ encode i) →
    (s.status.busy = false → ∃ t, step s = .next t
      ∧ Completed .illegalCmd (w.extractLsb' 0 8) s t ∧ t.status.errcode = 1#4
      ∧ SameHostRegisters s t ∧ SameDout s t ∧ SameBufferResults s t ∧ SameSchedule s t
      ∧ SameMemory s t ∧ t.host = rest)
    ∧ (s.status.busy = true →
      step s = .next { s with host := rest, status := { s.status with ovr := true } })

/-- 60_exceptions.md rule R201: a CMD write of any word while BUSY = 1 sets OVR and changes nothing
else; so does every command. -/
def Obligations.BusyCommandIsDropped : Prop :=
  ∀ (s : State), s.status.busy = true →
    (∀ (w : Word) (rest : List Event), s.host = .wr 0x08#8 4 w :: rest →
      step s = .next { s with host := rest, status := { s.status with ovr := true } })
    ∧ (∀ i, exec i s = .next { s with status := { s.status with ovr := true } })

/-- Derived frame of a CMD write: what an acceptance of any command leaves unchanged. Only the buffer
commands write OUTLEN and BLKDONE, and only when they are accepted. -/
def Obligations.AcceptanceFrame : Prop :=
  ∀ (i : Instr) (s t : State), exec i s = .next t →
    SameHostRegisters s t ∧ SameDout s t ∧ SameSchedule s t ∧ SameMemory s t
      ∧ t.host = s.host ∧ t.reply = s.reply ∧ t.dirty = s.dirty ∧ t.stale = s.stale
      ∧ (s.status.busy = false → t.status.ovr = s.status.ovr ∧ t.status.lastop = opcodeOf i)
      ∧ (i = .setkey ∨ i = .encb ∨ i = .decb ∨ s.status.busy = true → SameBufferResults s t)

/-- 60_exceptions.md rule R204: `complete(code)`, with every field it leaves alone. -/
def Obligations.CompletionSetsStatus : Prop :=
  ∀ (s : State) (code : ErrCode), ∃ t, t = s.complete code
    ∧ code.bits.toNat ≤ 4 ∧ t.phase = .idle ∧ t.status.busy = false
    ∧ (t.status.err = true ↔ code.bits ≠ 0#4) ∧ t.status.errcode = code.bits ∧ t.status.done = true
    ∧ t.status.keyValid = s.status.keyValid ∧ t.status.lastop = s.status.lastop
    ∧ t.status.ovr = s.status.ovr ∧ SameDout s t ∧ SameBufferResults s t
    ∧ SameHostRegisters s t ∧ t.sk = s.sk ∧ t.mem = s.mem ∧ t.host = s.host ∧ t.reply = s.reply

/-- Derived from 60_exceptions.md rules R200 and R203: what a CMD write to an idle core comes to, the
first error that applies in the order ILLEGAL_CMD, NO_KEY, RANGE. -/
def Obligations.AcceptanceReportsTheFirstError : Prop :=
  ∀ (s : State) (w : Word) (rest : List Event),
    s.host = .wr 0x08#8 4 w :: rest → s.status.busy = false →
    ∃ t, step s = .next t
      ∧ t.status.lastop = w.extractLsb' 0 8 ∧ t.status.ovr = s.status.ovr
      ∧ ((∀ i, w ≠ encode i) → Completed .illegalCmd (w.extractLsb' 0 8) s t)
      ∧ (w = encode .setkey → Running 0x01#8 s t)
      ∧ (∀ i, w = encode i → i ≠ .setkey → s.status.keyValid = false →
          Completed .noKey (opcodeOf i) s t)
      ∧ (∀ i, w = encode i → i = .encb ∨ i = .decb → s.status.keyValid = true →
          Running (opcodeOf i) s t)
      ∧ (∀ i, w = encode i → i = .encbuf ∨ i = .decbuf → s.status.keyValid = true →
          (s.OutOfRange → Completed .range (opcodeOf i) s t)
          ∧ (¬ s.OutOfRange → s.len = 0#32 → Completed .none (opcodeOf i) s t)
          ∧ (¬ s.OutOfRange → s.len ≠ 0#32 → Running (opcodeOf i) s t))

/-- 70_reset_and_hazards.md rule R261: the core steps each accepted command takes. -/
def Obligations.CommandsTakeTheirStepCounts : Prop :=
  ∀ (c : Config) (s : State), s.status.busy = false →
    (∃ t, exec .setkey s = .next t ∧ TakesSteps c 1 t)
    ∧ (s.status.keyValid = true → ∀ i, i = .encb ∨ i = .decb →
        ∃ t, exec i s = .next t ∧ TakesSteps c 16 t)
    ∧ (s.BufferAccepted c → ∀ i, i = .encbuf ∨ i = .decbuf →
        ∃ t, exec i s = .next t ∧ TakesSteps c (18 * ((s.len.toNat + 7) / 8)) t)
    ∧ (s.status.keyValid = true → s.len = 0#32 → ∀ i, i = .encbuf ∨ i = .decbuf →
        ∃ t, exec i s = .next t ∧ TakesSteps c 0 t)
    ∧ (∀ i, i ≠ .setkey → s.status.keyValid = false → ∃ t, exec i s = .next t ∧ TakesSteps c 0 t)
    ∧ (∀ i, i = .encbuf ∨ i = .decbuf → s.OutOfRange → ∃ t, exec i s = .next t ∧ TakesSteps c 0 t)
    ∧ (∀ (w : Word) (rest : List Event), s.host = .wr 0x08#8 4 w :: rest → (∀ i, w ≠ encode i) →
        ∃ t, step s = .next t ∧ TakesSteps c 0 t)

/-! ### SETKEY -/

/-- 40_subkey_schedule.md rule R103: SETKEY on an idle core latches KEY, and its one KEYGEN step writes
all 16 entries of SK and KEY_VALID and completes, also when the host writes KEY in between. -/
def Obligations.SetkeyLoadsTheSchedule : Prop :=
  (∀ (c : Config) (s : State), s.status.busy = false →
    ∃ t u, exec .setkey s = .next t
      ∧ Running 0x01#8 s t ∧ t.phase = .keygen ∧ t.work.lkey = s.key ∧ SameSchedule s t
      ∧ coreStep c t = .next u
      ∧ (∀ i : Fin 16, u.sk[i] = c.subkey i s.key) ∧ u.status.keyValid = true
      ∧ Completed .none 0x01#8 s u
      ∧ SameHostRegisters s u ∧ SameDout s u ∧ SameBufferResults s u ∧ SameMemory s u
      ∧ (∀ (r : Reg) (w : Word), r = .keyLo ∨ r = .keyHi →
          ∃ u', coreStep c (t.writeReg r w) = .next u' ∧ u'.sk = u.sk))
    ∧ (∀ (b : Nat) (ok : Addr → AccessKind → Bool) (coh : Bool),
        (sched (refConfig b ok coh) 0x0123456789ABCDEF#64)[0] = 0x456789ABCDEF#48
        ∧ (sched (refConfig b ok coh) 0x0123456789ABCDEF#64)[1] = 0xA2B3C4D5E6F7#48
        ∧ (sched (refConfig b ok coh) 0x0123456789ABCDEF#64)[15] = 0x02468ACF1357#48)

/-- 40_subkey_schedule.md rule R102: the only write to SK puts the whole schedule of a key in it, in one
core step; every other step of the machine leaves SK and KEY_VALID alone. A reset leaves SK
unspecified (70_reset_and_hazards.md rule R241) and is not spoken of here. -/
def Obligations.ScheduleIsWrittenAllAtOnce : Prop :=
  ∀ s t, step s = .next t → (∀ rest, s.host ≠ .reset :: rest) →
    SameSchedule s t
      ∨ (s.phase = .keygen ∧ t.phase = .idle ∧ t.status.keyValid = true
        ∧ ∀ i : Fin 16, t.sk[i] = Config.chip.subkey i s.work.lkey)

/-- Derived from 40_subkey_schedule.md rule R104: a write to KEY_LO or KEY_HI leaves SK and KEY_VALID
alone, and every later block or buffer command is accepted as if it had not been made. -/
def Obligations.KeyWritesLeaveTheSchedule : Prop :=
  ∀ (s : State) (r : Reg) (w : Word), r = .keyLo ∨ r = .keyHi →
    SameSchedule s (s.writeReg r w)
      ∧ ∀ i, i ≠ .setkey → exec i (s.writeReg r w) = mapNext (State.writeReg r w) (exec i s)

/-! ### The round function -/

/-- 41_round_function.md rule R120. -/
def Obligations.ExpandPlacesTheTableEntries : Prop :=
  (∀ (c : Config) (x : Half) (i : Fin 48),
      (expand c x).getLsbD (47 - i.val) = x.getLsbD (32 - c.eEntry i)
        ∧ 1 ≤ c.eEntry i ∧ c.eEntry i ≤ 32)
    ∧ (∀ c : Config, expand c 0x00000000#32 = 0x000000000000#48
        ∧ expand c 0xFFFFFFFF#32 = 0xFFFFFFFFFFFF#48)
    ∧ (∀ (b : Nat) (ok : Addr → AccessKind → Bool) (coh : Bool),
        expand (refConfig b ok coh) 0x00000001#32 = 0x800000000002#48
        ∧ expand (refConfig b ok coh) 0x12345678#32 = 0x0A41A82AC3F0#48)

/-- 41_round_function.md rule R124: nibble `j` of substitute, counted from the most significant, is the
table entry of the row and the column of group `j`. -/
def Obligations.SubstituteLooksUpEightGroups : Prop :=
  ∀ (c : Config) (y : Subkey) (j : Nat), j < 8 →
    (substitute c y).extractLsb' (28 - 4 * j) 4
      = c.sboxEntry (BitVec.ofBool (y.getLsbD (47 - 6 * j)) ++ BitVec.ofBool (y.getLsbD (42 - 6 * j)))
          (y.extractLsb' (43 - 6 * j) 4)

/-- 41_round_function.md rule R125. -/
def Obligations.PermuteIsABitPermutation : Prop :=
  (∀ (c : Config) (z : Half) (i : Fin 32),
      (permute c z).getLsbD (31 - i.val) = z.getLsbD (32 - c.pEntry i))
    ∧ (∀ c : Config, Function.Bijective (permute c))
    ∧ (∀ (c : Config) (z : Half),
        (List.range 32).countP (fun i => (permute c z).getLsbD i)
          = (List.range 32).countP fun i => z.getLsbD i)
    ∧ (∀ c : Config, permute c 0x00000000#32 = 0x00000000#32
        ∧ permute c 0xFFFFFFFF#32 = 0xFFFFFFFF#32)
    ∧ (∀ (b : Nat) (ok : Addr → AccessKind → Bool) (coh : Bool),
        permute (refConfig b ok coh) 0x00000001#32 = 0x00000800#32
        ∧ permute (refConfig b ok coh) 0x12345678#32 = 0x6E34140E#32)

/-- 41_round_function.md rule R126, with its corner cases and examples. -/
def Obligations.FeistelComposesTheThreeTransforms : Prop :=
  (∀ (c : Config) (r : Half) (k : Subkey),
      feistel c r k = permute c (substitute c (expand c r ^^^ k)))
    ∧ (∀ c : Config, feistel c 0#32 0#48 = permute c (substitute c 0#48)
        ∧ feistel c 0xFFFFFFFF#32 0xFFFFFFFFFFFF#48 = feistel c 0#32 0#48
        ∧ feistel c 0xFFFFFFFF#32 0#48 = feistel c 0#32 0xFFFFFFFFFFFF#48)
    ∧ (∀ (b : Nat) (ok : Addr → AccessKind → Bool) (coh : Bool),
        feistel (refConfig b ok coh) 0x00000000#32 0x000000000000#48 = 0x59FF97FD#32
        ∧ feistel (refConfig b ok coh) 0xFFFFFFFF#32 0x000000000000#48 = 0xBF9DF97B#32
        ∧ feistel (refConfig b ok coh) 0x12345678#32 0x0123456789AB#48 = 0xC034C8BC#32)

/-- 00_scope.md rule R8: the tables are well-formed when they have the shapes, ranges and bijection of the
rule; others build no configuration, and well-formed ones build the one whose entries are theirs. -/
def Obligations.IllFormedTablesAreRefused : Prop :=
  ∀ (t : RawTables) (sub : Fin 16 → Block → Subkey) (b : Nat) (ok : Addr → AccessKind → Bool)
    (coh : Bool),
    (t.wf = true ↔
      (t.etable.length = 48 ∧ ∀ e ∈ t.etable, 1 ≤ e ∧ e ≤ 32)
      ∧ (t.ptable.length = 32 ∧ (∀ e ∈ t.ptable, 1 ≤ e ∧ e ≤ 32)
        ∧ ∀ v, 1 ≤ v → v ≤ 32 → v ∈ t.ptable)
      ∧ t.sbox.length = 4 ∧ ∀ row ∈ t.sbox, row.length = 16 ∧ ∀ e ∈ row, e ≤ 15)
    ∧ (t.wf = false → t.build sub b ok coh = none)
    ∧ (t.wf = true → ∃ c, t.build sub b ok coh = some c
      ∧ (∀ i : Fin 48, t.etable[i.val]? = some (c.eEntry i))
      ∧ (∀ i : Fin 32, t.ptable[i.val]? = some (c.pEntry i))
      ∧ (∀ (r : BitVec 2) (k : BitVec 4),
          (t.sbox[r.toNat]?.bind fun row => row[k.toNat]?) = some (c.sboxEntry r k).toNat)
      ∧ c.subkey = sub ∧ c.regBase = b ∧ c.memOk = ok ∧ c.coherent = coh)

/-! ### The block transform -/

/-- 42_block_core.md rules R144 and R145: encode runs the rounds over SK[0] to SK[15], decode over SK[15]
down to SK[0], from the two halves, and the halves merge right half first. -/
def Obligations.BlockTransformIteratesTheRounds : Prop :=
  ∀ (c : Config) (sk : Schedule) (b : Block),
    crypt c sk .encode b
        = (fun h : Half × Half => h.2 ++ h.1) ((List.finRange 16).foldl
            (fun (h : Half × Half) (n : Fin 16) => (h.2, h.1 ^^^ feistel c h.2 sk[n]))
            (b.extractLsb' 32 32, b.extractLsb' 0 32))
      ∧ crypt c sk .decode b
        = (fun h : Half × Half => h.2 ++ h.1) ((List.finRange 16).foldl
            (fun (h : Half × Half) (n : Fin 16) => (h.2, h.1 ^^^ feistel c h.2 sk[15 - n]))
            (b.extractLsb' 32 32, b.extractLsb' 0 32))

/-- 42_block_core.md rule R146: decode undoes encode and encode undoes decode, for every configuration,
every SK and every block. -/
def Obligations.EncodeDecodeRoundTrip : Prop :=
  ∀ (c : Config) (sk : Schedule) (b : Block),
    crypt c sk .decode (crypt c sk .encode b) = b ∧ crypt c sk .encode (crypt c sk .decode b) = b

/-- 42_block_core.md rule R151. -/
def Obligations.PalindromicScheduleEncodesAsItDecodes : Prop :=
  (∀ (c : Config) (sk : Schedule), (∀ i : Fin 16, sk[i] = sk[i.rev]) →
      ∀ b, crypt c sk .encode b = crypt c sk .decode b)
    ∧ (∀ (b : Nat) (ok : Addr → AccessKind → Bool) (coh : Bool) (i : Fin 16),
        (sched (refConfig b ok coh) 0#64)[i] = 0#48)

/-- Derived from 42_block_core.md rule R150: the round step, with every form of its outcome. -/
def Obligations.RoundStepComputesOneRound : Prop :=
  ∀ (c : Config) (s : State), s.phase = .rounds →
    ∃ t, coreStep c s = .next t
      ∧ ∀ k f, k = (match s.work.ldir with
            | .encode => s.sk[s.work.rnd]
            | .decode => s.sk[15 - s.work.rnd]) →
          f = s.work.wl ^^^ feistel c s.work.wr k →
          (s.work.rnd = 15 → t.dout = join f s.work.wr ∧ Completed .none s.status.lastop s t)
          ∧ (s.work.rnd ≠ 15 →
            t.work.wl = s.work.wr ∧ t.work.wr = f ∧ t.work.rnd.val = s.work.rnd.val + 1
              ∧ t.phase = .rounds ∧ SameDout s t ∧ t.status = s.status)

/-- 42_block_core.md rule R147. -/
def Obligations.EncbEncodesTheBlock : Prop :=
  (∀ (c : Config) (s : State), s.status.busy = false → s.status.keyValid = true →
      BlockCommandRuns c .encb .encode s)
    ∧ (∀ s : State, s.status.busy = false → s.status.keyValid = false →
        BlockCommandNeedsKey .encb s)
    ∧ (∀ (b : Nat) (ok : Addr → AccessKind → Bool) (coh : Bool),
        crypt (refConfig b ok coh) (sched (refConfig b ok coh) 0#64) .encode 0#64
          = 0x82C23DAF34C34096#64)

/-- 42_block_core.md rule R148. -/
def Obligations.DecbDecodesTheBlock : Prop :=
  (∀ (c : Config) (s : State), s.status.busy = false → s.status.keyValid = true →
      BlockCommandRuns c .decb .decode s)
    ∧ (∀ s : State, s.status.busy = false → s.status.keyValid = false →
        BlockCommandNeedsKey .decb s)
    ∧ (∀ (b : Nat) (ok : Addr → AccessKind → Bool) (coh : Bool),
        crypt (refConfig b ok coh) (sched (refConfig b ok coh) 0x133457799BBCDFF1#64) .decode
            0xBD04E16CFBFD5B06#64 = 0x0123456789ABCDEF#64)

/-- Derived from 42_block_core.md rule R149 and 10_state.md rule R32: no step of the machine but a reset
and the last round step of a block command changes DOUT. -/
def Obligations.DoutIsWrittenOnlyByTheLastRound : Prop :=
  ∀ s t, step s = .next t → (∀ rest, s.host ≠ .reset :: rest) →
    SameDout s t
      ∨ (s.phase = .rounds ∧ s.work.rnd = 15 ∧ t.phase = .idle ∧ t.status.done = true
        ∧ t.dout = merge (s.roundOnce Config.chip))

/-! ### The buffer commands -/

/-- 43_block_chainer.md rule R160: the padded length is the smallest multiple of 8 that is at least the
length. Both buffer commands latch it, and past the length the core takes zero bytes and makes no access;
`State.paddedByte` is what the other statements call the padded source. -/
def Obligations.PaddedLengthIsTheLeastMultiple : Prop :=
  (∀ n, 8 ∣ paddedLength n ∧ n ≤ paddedLength n ∧ paddedLength n - n ≤ 7
      ∧ (∀ m, 8 ∣ m → n ≤ m → paddedLength n ≤ m) ∧ (8 ∣ n → paddedLength n = n))
    ∧ paddedLength 0 = 0 ∧ paddedLength 1 = 8 ∧ paddedLength 8 = 8 ∧ paddedLength 9 = 16
    ∧ paddedLength 11 = 16
    ∧ (∀ (s : State) (i : Nat), (s.len.toNat ≤ i → s.paddedByte i = 0x00#8)
      ∧ (i < s.len.toNat → s.paddedByte i = Memory.read s.mem (s.src.toNat + i)))
    ∧ (∀ (d : Dir) (s : State), (s.latchBuffer d).work.lout.toNat = paddedLength s.len.toNat)
    ∧ (∀ (c : Config) (s : State) (j : Nat),
        (s.work.llen.toNat ≤ 8 * s.work.blk + j → s.sourceByte c j = .ok 0x00#8)
        ∧ (8 * s.work.blk + j < s.work.llen.toNat → ∃ n,
          s.sourceByte c j = s.dmaRead c (byteAddr s.work.lsrc s.work.blk j) n))

/-- 43_block_chainer.md rules R167 and R169: the acceptance of ENCBUF and DECBUF on an idle core. -/
def Obligations.BufferAcceptanceChecksInOrder : Prop :=
  ∀ p ∈ bufferCommands, ∀ s : State, s.status.busy = false →
    (s.status.keyValid = false → ∃ t, exec p.1 s = .next t
      ∧ Completed .noKey (opcodeOf p.1) s t ∧ t.outlen = 0#32 ∧ t.blkdone = 0#32
      ∧ SameMemory s t)
    ∧ (s.status.keyValid = true →
        8 * ((s.len.toNat + 7) / 8) > 2 ^ 32 - 8 ∨ s.src.toNat + s.len.toNat > 2 ^ 32
          ∨ s.dst.toNat + 8 * ((s.len.toNat + 7) / 8) > 2 ^ 32 →
        ∃ t, exec p.1 s = .next t
          ∧ Completed .range (opcodeOf p.1) s t ∧ t.outlen = 0#32 ∧ t.blkdone = 0#32
      ∧ SameMemory s t)
    ∧ (s.status.keyValid = true → s.len = 0#32 → ∃ t, exec p.1 s = .next t
      ∧ Completed .none (opcodeOf p.1) s t ∧ t.outlen = 0#32 ∧ t.blkdone = 0#32
      ∧ SameMemory s t)
    ∧ (s.status.keyValid = true → s.len ≠ 0#32 →
        8 * ((s.len.toNat + 7) / 8) ≤ 2 ^ 32 - 8 → s.src.toNat + s.len.toNat ≤ 2 ^ 32 →
        s.dst.toNat + 8 * ((s.len.toNat + 7) / 8) ≤ 2 ^ 32 →
        ∃ t, exec p.1 s = .next t ∧ Running (opcodeOf p.1) s t ∧ t.phase = .bufRead
          ∧ t.work.lsrc = s.src ∧ t.work.ldst = s.dst ∧ t.work.llen = s.len ∧ t.work.ldir = p.2
          ∧ t.work.lout.toNat = 8 * ((s.len.toNat + 7) / 8) ∧ t.work.blk = 0
          ∧ t.outlen.toNat = 8 * ((s.len.toNat + 7) / 8) ∧ t.blkdone = 0#32
          ∧ SameMemory s t)

/-- Derived from 43_block_chainer.md rules R162, R163 and R173: what each step of a running buffer command
does when no bus error, race or cached byte meets it. -/
def Obligations.BufferStepsFollowTheirPhases : Prop :=
  (∀ (c : Config) (s : State), s.phase = .bufRead →
      (∀ j, j < 8 → 8 * s.work.blk + j < s.work.llen.toNat →
        byteAddr s.work.lsrc s.work.blk j < 2 ^ 32
          ∧ c.memOk (BitVec.ofNat 32 (byteAddr s.work.lsrc s.work.blk j)) .read = true
          ∧ s.racedSrc.contains (byteAddr s.work.lsrc s.work.blk j) = false
          ∧ (c.coherent = true ∨ s.dirty.contains (byteAddr s.work.lsrc s.work.blk j) = false)) →
      ∃ t, coreStep c s = .next t ∧ t.phase = .bufRounds ∧ t.status = s.status ∧ t.mem = s.mem
        ∧ t.work = { s.work with wl := t.work.wl, wr := t.work.wr, rnd := 0 }
        ∧ ∀ j, j < 8 → blockByte (join t.work.wl t.work.wr) j
            = if 8 * s.work.blk + j < s.work.llen.toNat
              then Memory.read s.mem (byteAddr s.work.lsrc s.work.blk j) else 0x00#8)
    ∧ (∀ (c : Config) (s : State), s.phase = .bufRounds →
      ∃ t, coreStep c s = .next t ∧ t.status = s.status ∧ t.mem = s.mem ∧ SameDout s t
        ∧ t.work.wl = s.work.wr
        ∧ t.work.wr = s.work.wl ^^^ feistel c s.work.wr (match s.work.ldir with
            | .encode => s.sk[s.work.rnd]
            | .decode => s.sk[15 - s.work.rnd])
        ∧ (s.work.rnd = 15 → t.phase = .bufWrite)
        ∧ (s.work.rnd ≠ 15 → t.phase = .bufRounds ∧ t.work.rnd.val = s.work.rnd.val + 1))
    ∧ (∀ (c : Config) (s : State), s.phase = .bufWrite → Memory.wf s.mem → s.racedDst = [] →
      (∀ j, j < 8 → byteAddr s.work.ldst s.work.blk j < 2 ^ 32
          ∧ c.memOk (BitVec.ofNat 32 (byteAddr s.work.ldst s.work.blk j)) .write = true) →
      ∃ t, coreStep c s = .next t ∧ t.blkdone = s.blkdone + 1#32
        ∧ (∀ j, j < 8 → Memory.read t.mem (byteAddr s.work.ldst s.work.blk j)
            = blockByte (join s.work.wr s.work.wl) j)
        ∧ (∀ a, (∀ j, j < 8 → a ≠ byteAddr s.work.ldst s.work.blk j) →
            Memory.read t.mem a = Memory.read s.mem a)
        ∧ (s.work.blk + 1 = s.work.lout.toNat / 8 → Completed .none s.status.lastop s t)
        ∧ (s.work.blk + 1 ≠ s.work.lout.toNat / 8 →
            t.phase = .bufRead ∧ t.work.blk = s.work.blk + 1 ∧ t.status = s.status))

/-- Derived from 43_block_chainer.md rules R165 and R166 and 20_memory.md rule R77: however source and
destination overlap, memory ends as the loop of the two rules leaves it. -/
def Obligations.BufferCommandsHaveTheirNetEffect : Prop :=
  ∀ p ∈ bufferCommands, ∀ (c : Config) (s : State), s.BufferAccepted c →
    ∃ t u, exec p.1 s = .next t ∧ Running (opcodeOf p.1) s t
      ∧ coreSteps c (18 * s.blockCount) t = .next u ∧ Completed .none (opcodeOf p.1) s u
      ∧ (∀ a, Memory.read u.mem a = Memory.read (s.netMemory c p.2 s.blockCount) a)
      ∧ u.blkdone.toNat = s.blockCount ∧ u.outlen.toNat = paddedLength s.len.toNat

/-- 43_block_chainer.md rule R164, from the CMD write to the completion: output block `k` at DST is ENC
(or DEC) of block `k` of the padded source and of nothing else. -/
def Obligations.BufferCommandsTransformEveryBlock : Prop :=
  ∀ p ∈ bufferCommands, ∀ (c : Config) (s : State), s.BufferReady c → BufferCommandRuns c p.1 p.2 s

/-- 43_block_chainer.md rule R172: at every moment from the acceptance on, a buffer command has changed
none of DIN, DOUT, SK, KEY_VALID, KEY and the memory outside its destination, and a write to DIN
changes nothing else of what it does. -/
def Obligations.BufferCommandsTouchTheirOutputsAlone : Prop :=
  ∀ p ∈ bufferCommands, ∀ (c : Config) (s t u : State) (n : Nat),
    s.Inv c → s.status.busy = false → exec p.1 s = .next t → coreSteps c n t = .next u →
    SameDout s u ∧ SameSchedule s u ∧ SameHostRegisters s u
      ∧ (∀ a, ¬ (s.dst.toNat ≤ a ∧ a < s.dst.toNat + paddedLength s.len.toNat) →
          Memory.read u.mem a = Memory.read s.mem a)
      ∧ (∀ (r : Reg) (w : Word), r = .dinLo ∨ r = .dinHi →
          exec p.1 (s.writeReg r w) = .next (t.writeReg r w)
            ∧ coreSteps c n (t.writeReg r w) = .next (u.writeReg r w))

/-- 43_block_chainer.md rule R171: ENCBUF from `s` to its end `u`; then, from any state `v` with the same
SK that finds the output at its SRC with LEN = LOUT, DECBUF gives the source followed by zeros. -/
def Obligations.BufferRoundTrip : Prop :=
  ∀ (c : Config) (s t u v : State), s.BufferReady c →
    exec .encbuf s = .next t → coreSteps c (18 * s.blockCount) t = .next u →
    v.BufferReady c → v.sk = s.sk → v.src = s.dst → v.len.toNat = paddedLength s.len.toNat →
    (∀ i, i < paddedLength s.len.toNat →
      Memory.read v.mem (s.dst.toNat + i) = Memory.read u.mem (s.dst.toNat + i)) →
    ∃ x y, exec .decbuf v = .next x ∧ coreSteps c (18 * v.blockCount) x = .next y
      ∧ Completed .none 0x05#8 v y
      ∧ ∀ i, i < paddedLength s.len.toNat →
          Memory.read y.mem (v.dst.toNat + i)
            = if i < s.len.toNat then Memory.read s.mem (s.src.toNat + i) else 0x00#8

/-- 43_block_chainer.md rule R168: a bus error ends the command at once with code 4; the bytes of the
block written before it stay, no other byte changes, and BLKDONE keeps its count. The failing write
is byte `j` of the block; in the first part the failing read is. No byte is raced for. -/
def Obligations.BusErrorEndsTheCommand : Prop :=
  (∀ (c : Config) (s : State) (j : Nat), s.phase = .bufRead → j < 8 →
      (∀ i, i < j → 8 * s.work.blk + i < s.work.llen.toNat →
        byteAddr s.work.lsrc s.work.blk i < 2 ^ 32
          ∧ c.memOk (BitVec.ofNat 32 (byteAddr s.work.lsrc s.work.blk i)) .read = true) →
      8 * s.work.blk + j < s.work.llen.toNat → byteAddr s.work.lsrc s.work.blk j < 2 ^ 32 →
      c.memOk (BitVec.ofNat 32 (byteAddr s.work.lsrc s.work.blk j)) .read = false →
      ∃ t, coreStep c s = .next t ∧ Completed .bus s.status.lastop s t ∧ t.status.errcode = 4#4
        ∧ t.mem = s.mem ∧ SameBufferResults s t)
    ∧ (∀ (c : Config) (s : State) (j : Nat), s.phase = .bufWrite → Memory.wf s.mem →
      s.racedDst = [] → j < 8 →
      (∀ i, i < j → byteAddr s.work.ldst s.work.blk i < 2 ^ 32
          ∧ c.memOk (BitVec.ofNat 32 (byteAddr s.work.ldst s.work.blk i)) .write = true) →
      byteAddr s.work.ldst s.work.blk j < 2 ^ 32 →
      c.memOk (BitVec.ofNat 32 (byteAddr s.work.ldst s.work.blk j)) .write = false →
      ∃ t, coreStep c s = .next t ∧ Completed .bus s.status.lastop s t ∧ t.status.errcode = 4#4
        ∧ (∀ i, i < j → Memory.read t.mem (byteAddr s.work.ldst s.work.blk i)
            = blockByte (join s.work.wr s.work.wl) i)
        ∧ (∀ a, (∀ i, i < j → a ≠ byteAddr s.work.ldst s.work.blk i) →
            Memory.read t.mem a = Memory.read s.mem a)
        ∧ SameBufferResults s t)

/-- Derived from 20_memory.md rule R66: what a block read gives depends on no byte outside the source
range, and a core step changes no byte outside the destination range. -/
def Obligations.CoreStaysInsideItsBuffers : Prop :=
  (∀ (c : Config) (s : State) (m : Memory),
      (∀ a, s.work.inSource a = true → Memory.read m a = Memory.read s.mem a) →
      State.readBlock c { s with mem := m } = s.readBlock c)
    ∧ (∀ (c : Config) (s t : State) (a : Nat), s.Inv c → coreStep c s = .next t →
        s.phase ≠ .bufWrite ∨ s.work.inDestination a = false →
        Memory.read t.mem a = Memory.read s.mem a)

/-- Derived frame of a core step: what a step of the sequencer leaves unchanged, in any state. -/
def Obligations.CoreStepFrame : Prop :=
  ∀ (c : Config) (s t : State), coreStep c s = .next t →
    SameHostRegisters s t ∧ t.outlen = s.outlen ∧ t.status.ovr = s.status.ovr
      ∧ t.status.lastop = s.status.lastop ∧ t.host = s.host ∧ t.reply = s.reply
      ∧ t.dirty = s.dirty
      ∧ (s.phase ≠ .keygen → SameSchedule s t)
      ∧ (s.phase ≠ .rounds → SameDout s t)
      ∧ (s.phase ≠ .bufWrite → t.blkdone = s.blkdone ∧ SameMemory s t ∧ t.stale = s.stale)

/-- 10_state.md rule R39: the host's writes to CTRL, KEY, DIN, SRC, DST and LEN change the register at
once and do not change the command in progress: the core's step comes out the same whether the
write falls before or after it. -/
def Obligations.RegisterWritesDoNotReachTheCommand : Prop :=
  ∀ (c : Config) (s : State) (r : Reg) (w : Word), r ∈ hostWritable →
    (s.writeReg r w).readReg r = (if r = .ctrl then w &&& 1#32 else w)
      ∧ coreStep c (s.writeReg r w) = mapNext (State.writeReg r w) (coreStep c s)

/-! ### The register window -/

/-- Derived from 10_state.md rules R22 to R25 and 20_memory.md rule R67: an aligned 32-bit read gives the
host the register's value and changes nothing else. -/
def Obligations.RegisterReadHasNoSideEffect : Prop :=
  ∀ (s : State) (offset : BitVec 8) (rest : List Event),
    s.host = .rd offset 4 :: rest → offset.toNat % 4 = 0 →
    ∃ v, step s = .next { s with host := rest, reply := .word v }
      ∧ (offset = 0x00#8 → v = 0x40300810#32)
      ∧ (offset = 0x04#8 → v = if s.irqEn then 1#32 else 0#32)
      ∧ (offset = 0x08#8 → v = 0#32)
      ∧ (offset = 0x0C#8 → v = s.status.word)
      ∧ (offset = 0x10#8 → v = lo s.key) ∧ (offset = 0x14#8 → v = hi s.key)
      ∧ (offset = 0x18#8 → v = lo s.din) ∧ (offset = 0x1C#8 → v = hi s.din)
      ∧ (offset = 0x20#8 → v = lo s.dout) ∧ (offset = 0x24#8 → v = hi s.dout)
      ∧ (offset = 0x28#8 → v = s.src) ∧ (offset = 0x2C#8 → v = s.dst)
      ∧ (offset = 0x30#8 → v = s.len) ∧ (offset = 0x34#8 → v = s.outlen)
      ∧ (offset = 0x38#8 → v = s.blkdone)
      ∧ (0x3C ≤ offset.toNat → v = 0#32)

/-- Derived from 10_state.md rules R23, R24, R26 and R29 to R37: an aligned 32-bit write to an offset
other than CMD gives its register the value its rule says, every other offset reads as before, and
nothing inside the core changes. -/
def Obligations.RegisterWriteChangesItsRegisterAlone : Prop :=
  ∀ (s : State) (offset : BitVec 8) (w : Word) (rest : List Event),
    s.host = .wr offset 4 w :: rest → offset.toNat % 4 = 0 → offset ≠ 0x08#8 →
    ∃ t, step s = .next t ∧ t.host = rest ∧ SameInside s t ∧ t.reply = s.reply
      ∧ ∀ other : BitVec 8, other.toNat % 4 = 0 →
          t.readReg (regAt other)
            = if other = offset then readAfterWrite (regAt offset) w (s.readReg (regAt offset))
              else s.readReg (regAt other)

/-- 10_state.md rule R25: CAPS is constant, its fields hold the parameters, and writes are ignored. -/
def Obligations.CapsIsConstant : Prop :=
  ∀ (s : State) (w : Word), s.readReg .caps = 0x40300810#32 ∧ s.writeReg .caps w = s
    ∧ (s.readReg .caps).extractLsb' 0 8 = 0x10#8 ∧ (s.readReg .caps).extractLsb' 8 8 = 0x08#8
    ∧ (s.readReg .caps).extractLsb' 16 8 = 0x30#8 ∧ (s.readReg .caps).extractLsb' 24 8 = 0x40#8

/-- 10_state.md rule R24: reserved offsets and reserved bits read 0 and ignore writes; the reserved bits
of a command word make it illegal. -/
def Obligations.ReservedSpaceReadsZeroAndIgnoresWrites : Prop :=
  (∀ (s : State) (offset : BitVec 8) (w : Word) (rest : List Event), 0x3C ≤ offset.toNat →
      offset.toNat % 4 = 0 →
      (s.host = .rd offset 4 :: rest → step s = .next { s with host := rest, reply := .word 0#32 })
      ∧ (s.host = .wr offset 4 w :: rest → step s = .next { s with host := rest }))
    ∧ (∀ (s : State) (i : Nat), 1 ≤ i → (s.readReg .ctrl).getLsbD i = false)
    ∧ (∀ (s : State) (v w : Word), (∀ i, i < 1 → v.getLsbD i = w.getLsbD i) →
        s.writeReg .ctrl v = s.writeReg .ctrl w)
    ∧ (∀ (s : State) (i : Nat), 5 ≤ i ∧ i < 8 ∨ 12 ≤ i ∧ i < 16 ∨ 24 ≤ i →
        (s.readReg .status).getLsbD i = false)
    ∧ (∀ (s : State) (w : Word), w.getLsbD 1 = false → w.getLsbD 4 = false →
        s.writeReg .status w = s)
    ∧ (∀ w : Word, w.extractLsb' 8 24 ≠ 0#24 → ∀ i, decode w ≠ .ok i)

/-- 10_state.md rule R29: a write to STATUS clears DONE and OVR where bits 1 and 4 are 1, and changes
nothing else. -/
def Obligations.StatusWriteClearsDoneAndOvr : Prop :=
  ∀ (s : State) (w : Word) (rest : List Event), s.host = .wr 0x0C#8 4 w :: rest →
    ∃ t, step s = .next t
      ∧ t = { s with host := rest, status := t.status }
      ∧ t.status.done = (if w.getLsbD 1 then false else s.status.done)
      ∧ t.status.ovr = (if w.getLsbD 4 then false else s.status.ovr)
      ∧ t.status.busy = s.status.busy ∧ t.status.err = s.status.err
      ∧ t.status.errcode = s.status.errcode ∧ t.status.keyValid = s.status.keyValid
      ∧ t.status.lastop = s.status.lastop

/-- Derived from 10_state.md rule R28: the fields of STATUS stand at their bits and every reserved bit
reads 0. -/
def Obligations.StatusFieldsStandAtTheirBits : Prop :=
  ∀ t : Status,
    t.word.getLsbD 0 = t.busy ∧ t.word.getLsbD 1 = t.done ∧ t.word.getLsbD 2 = t.err
      ∧ t.word.getLsbD 3 = t.keyValid ∧ t.word.getLsbD 4 = t.ovr
      ∧ t.word.extractLsb' 8 4 = t.errcode ∧ t.word.extractLsb' 16 8 = t.lastop
      ∧ t.word.extractLsb' 5 3 = 0#3 ∧ t.word.extractLsb' 12 4 = 0#4
      ∧ t.word.extractLsb' 24 8 = 0#8

/-- Derived from 10_state.md rule R23: only an aligned access of four bytes has a transition; any other
is refused by name. -/
def Obligations.OnlyAlignedWordAccessesAreServed : Prop :=
  ∀ (s : State) (offset : BitVec 8) (size : Nat) (rest : List Event),
    (∀ w, s.host = .wr offset size w :: rest →
      (size ≠ 4 → step s = .refused .accessSize)
      ∧ (size = 4 → offset.toNat % 4 ≠ 0 → step s = .refused .accessMisaligned)
      ∧ (size = 4 → offset.toNat % 4 = 0 → ∃ t, step s = .next t))
    ∧ (s.host = .rd offset size :: rest →
      (size ≠ 4 → step s = .refused .accessSize)
      ∧ (size = 4 → offset.toNat % 4 ≠ 0 → step s = .refused .accessMisaligned)
      ∧ (size = 4 → offset.toNat % 4 = 0 → ∃ t, step s = .next t))

/-- 10_state.md rule R45: IRQ = CTRL.IRQ_EN & STATUS.DONE, in the same step as either input, and 0 after
reset. -/
def Obligations.IrqFollowsEnableAndDone : Prop :=
  State.reset.irq = false
    ∧ (∀ s : State, s.irq = true ↔ s.irqEn = true ∧ s.status.done = true)
    ∧ (∀ (s : State) (code : ErrCode), (s.complete code).irq = s.irqEn)
    ∧ (∀ (s : State) (op : BitVec 8), (s.accept op).irq = false)
    ∧ (∀ (s : State) (w : Word), (s.writeReg .ctrl w).irq = (w.getLsbD 0 && s.status.done))
    ∧ (∀ (s : State) (w : Word), (s.writeReg .status w).irq = (s.irq && !w.getLsbD 1))

/-- Derived from 30_encoding.md rule R87 and 10_state.md rules R22 and R48: the transactions of WR and RD
reach the core as the accesses they are, at the offsets of rule R22. That a transaction outside the
window does not reach it, and that its first byte decides, is the model's choice
(notes/assumptions/20.md). -/
def Obligations.TransactionsReachTheirRegister : Prop :=
  (∀ (c : Config) (r : Reg) (v : Word),
      (Transaction.write (c.regBase + r.offset.toNat) 4 v).event c = some (wr r v)
        ∧ (Transaction.read (c.regBase + r.offset.toNat) 4).event c = some (rd r)
        ∧ regAt r.offset = r)
    ∧ [Reg.caps, .ctrl, .cmd, .status, .keyLo, .keyHi, .dinLo, .dinHi, .doutLo, .doutHi, .src, .dst, .len,
        .outlen, .blkdone].map Reg.offset
      = [0x00#8, 0x04#8, 0x08#8, 0x0C#8, 0x10#8, 0x14#8, 0x18#8, 0x1C#8, 0x20#8, 0x24#8, 0x28#8, 0x2C#8,
        0x30#8, 0x34#8, 0x38#8]
    ∧ (∀ (c : Config) (addr size : Nat) (v : Word),
        addr < c.regBase ∨ c.regBase + 256 ≤ addr →
        (Transaction.write addr size v).event c = none ∧ (Transaction.read addr size).event c = none)

/-! ### Reset -/

/-- Derived from 10_state.md rule R49: what the spec says of the state after reset, read through the
window, and the phase, IRQ and the empty memory the model starts from. -/
def Obligations.ResetStateIsAsTheSpecSays : Prop :=
  (∀ offset : BitVec 8, offset.toNat % 4 = 0 →
      State.reset.readReg (regAt offset) = if offset = 0x00#8 then 0x40300810#32 else 0#32)
    ∧ State.reset.phase = .idle ∧ State.reset.irq = false ∧ State.reset.mem = []

/-- 70_reset_and_hazards.md rule R240: a reset takes the machine, in one step and from any state, to the
register values of 10_state.md rule R49; the core then waits for a CMD write. -/
def Obligations.ResetSetsEveryRegister : Prop :=
  ∀ (s : State) (rest : List Event), s.host = .reset :: rest →
    ∃ t, step s = .next t ∧ t.host = rest
      ∧ (∀ offset : BitVec 8, offset.toNat % 4 = 0 →
          t.readReg (regAt offset) = if offset = 0x00#8 then 0x40300810#32 else 0#32)
      ∧ t.phase = .idle ∧ t.status.busy = false ∧ t.status.done = false
      ∧ t.status.keyValid = false ∧ t.irqEn = false ∧ t.irq = false
      ∧ coreStep Config.chip t = .next t

/-- Derived from 70_reset_and_hazards.md rule R241: after a reset every block and buffer command ends
with NO_KEY. -/
def Obligations.ResetForgetsTheKey : Prop :=
  ∀ (s t : State) (rest : List Event) (i : Instr), s.host = .reset :: rest → step s = .next t →
    i ≠ .setkey → ∃ u, exec i t = .next u ∧ Completed .noKey (opcodeOf i) t u ∧ SameMemory t u

/-- 70_reset_and_hazards.md rules R242 and R243: a reset abandons the command; memory keeps every byte
but those of the block in progress, and each of these has its old value or the value the core would
have written; DONE stays 0, IRQ is low and BLKDONE reads 0. -/
def Obligations.ResetKeepsMemoryButTheBlockInProgress : Prop :=
  ∀ (s t : State) (rest : List Event), s.host = .reset :: rest → Memory.wf s.mem →
    step s = .next t →
    t.status.done = false ∧ t.irq = false ∧ t.blkdone = 0#32
      ∧ (s.phase.isBuffer = false → SameMemory s t)
      ∧ ∀ a, Memory.read t.mem a = Memory.read s.mem a
        ∨ ∃ o j, j < 8 ∧ a = byteAddr s.work.ldst s.work.blk j
          ∧ State.pendingBlock Config.chip { s with host := rest } = some o
          ∧ Memory.read t.mem a = blockByte o j

/-! ### Invariants -/

/-- The invariant holds right after reset, on every configuration. -/
def Obligations.InvariantHoldsAtReset : Prop := ∀ c : Config, State.reset.Inv c

/-- Derived from the rules the fields of `State.Inv` cite: every step of the machine keeps the
invariant, from every state that has it. -/
def Obligations.EveryStepKeepsTheInvariant : Prop :=
  ∀ s t, s.Inv Config.chip → step s = .next t → t.Inv Config.chip

/-- Derived from 43_block_chainer.md rule R167 and 60_exceptions.md rule R208: in a state with the
invariant no step faults, and a step is refused only for an access that is not an aligned 32-bit
one. -/
def Obligations.NoStepFaultsUnderTheInvariant : Prop :=
  ∀ s, s.Inv Config.chip →
    (∀ r, step s ≠ .fault r)
    ∧ (∀ r, step s = .refused r →
        ∃ offset rest, (∃ size w, s.host = .wr offset size w :: rest ∧ (size ≠ 4 ∨ offset.toNat % 4 ≠ 0))
          ∨ (∃ size, s.host = .rd offset size :: rest ∧ (size ≠ 4 ∨ offset.toNat % 4 ≠ 0))
          ∨ (∃ mask value, s.host = .poll offset mask value :: rest ∧ offset.toNat % 4 ≠ 0))

/-- Derived from 60_exceptions.md rule R202: a running command completes after at most the core steps its
phase and counters leave, and then DONE = 1. -/
def Obligations.RunningCommandCompletes : Prop :=
  ∀ (c : Config) (s : State), s.Inv c → s.status.busy = true →
    ∃ n u, n ≤ s.stepsLeft ∧ coreSteps c n s = .next u ∧ u.phase = .idle
      ∧ u.status.done = true ∧ u.status.busy = false

/-! ### Pseudo-instructions -/

/-- Derived from 30_encoding.md rule R89: on an idle core LOADKEY ends with the schedule of its key
loaded, and ENC64 and DEC64 end with the transformed block in DOUT, whose low half is the last value
read; each takes its own events off the schedule and no more. -/
def Obligations.PseudoInstructionsReachTheirResult : Prop :=
  ∀ (s : State) (x : Block) (rest : List Event), s.status.busy = false → s.phase = .idle →
    (s.host = loadKey x ++ rest → ∃ n t, Host.Core.run Sys2Proof.core n s = .next t ∧ t.host = rest
        ∧ t.sk = sched Config.chip x ∧ t.status.keyValid = true ∧ t.key = x
        ∧ Completed .none 0x01#8 s t)
    ∧ (s.status.keyValid = true → s.host = enc64 x ++ rest →
        ∃ n t, Host.Core.run Sys2Proof.core n s = .next t ∧ t.host = rest
          ∧ t.dout = crypt Config.chip s.sk .encode x ∧ t.reply = .word (lo t.dout)
          ∧ Completed .none 0x02#8 s t)
    ∧ (s.status.keyValid = true → s.host = dec64 x ++ rest →
        ∃ n t, Host.Core.run Sys2Proof.core n s = .next t ∧ t.host = rest
          ∧ t.dout = crypt Config.chip s.sk .decode x ∧ t.reply = .word (lo t.dout)
          ∧ Completed .none 0x03#8 s t)

/-! ### Memory ordering, races and caches -/

/-- Derived from 20_memory.md rules R70 and R76: a write performed before a buffer command is what the
command's DMA reads find: the host's on a coherent platform at once and on any other after a clean,
another master's at once where the host has no uncleaned write of the byte. -/
def Obligations.PerformedWriteIsSeenByTheCommand : Prop :=
  ∀ (c : Config) (s t : State) (a : Addr) (v : Byte) (i : Instr) (n : Nat),
    s.status.busy = false → s.phase = .idle → s.status.keyValid = true → s.len ≠ 0#32 →
    rangeError s.src s.dst s.len = false → Memory.wf s.mem → i = .encbuf ∨ i = .decbuf →
    (c.coherent = true ∧ exec i (s.memWrite c a v) = .next t)
      ∨ exec i ((s.memWrite c a v).clean c a) = .next t
      ∨ exec i (s.masterWrite c a v) = .next t ∧ s.dirty.contains a.toNat = false →
    t.dmaByte c a.toNat n = v

/-- Derived from 20_memory.md rule R72 and 93_implementation_defined.md U8: while a buffer command runs,
for the host and for another bus master: (a) a write to the source range leaves the byte open, a free
value if the core reads it later, and if it has read it already a free value in the input block, from
which the working halves or the output block are then what the rules give; an earlier block's input
stays, and a later one's too unless the destination runs ahead into the source; (b) a read of the
destination range gives an open byte; (c) a destination byte one of them wrote, in the block the core
writes next, is that value or the core's after the core's step, and so is one the core had written
already. Outside the destination range only the written byte changes. That the open bytes are free
values is the model's choice (notes/assumptions/10.md, 11.md and 12.md). -/
def Obligations.RacingAccessesLeaveBytesOpen : Prop :=
  ∀ (c : Config) (s : State) (a : Addr) (v : Byte) (write : State → State),
    write = State.memWrite c a v ∨ write = State.masterWrite c a v → s.phase.isBuffer = true →
    (s.work.inSource a.toNat = true → ∀ n, (write s).dmaByte c a.toNat n = Config.free 8 n)
    ∧ (s.work.inSource a.toNat = true →
      ∀ k j, k < s.taken.length → j < 8 → a.toNat = byteAddr s.work.lsrc k j →
        (write s).taken.getD k 0#64
            = ofBytes (fun i => if i = j then Config.free 8 (s.drawn + 1)
                else blockByte (s.taken.getD k 0#64) i)
          ∧ (∀ m, m < k → (write s).taken.getD m 0#64 = s.taken.getD m 0#64)
          ∧ (¬ (s.work.lsrc.toNat < s.work.ldst.toNat
                ∧ s.work.ldst.toNat < s.work.lsrc.toNat + s.work.llen.toNat) →
              ∀ m, m ≠ k → (write s).taken.getD m 0#64 = s.taken.getD m 0#64)
          ∧ (s.Inv c → k = s.work.blk → ((write s).work.wl, (write s).work.wr)
              = roundsFrom c s.sk s.work.ldir s.roundsDone 0
                  (split ((write s).taken.getD k 0#64)))
          ∧ (s.Inv c → k < s.work.blk → ∀ i, i < 8 →
              (write s).racedDst.contains (byteAddr s.work.ldst k i) = false →
              Memory.read (write s).mem (byteAddr s.work.ldst k i)
                = blockByte (crypt c s.sk s.work.ldir ((write s).taken.getD k 0#64)) i))
    ∧ (s.work.inDestination a.toNat = true →
      (s.memRead c a).reply = .byte (Config.free 8 s.drawn)
        ∧ (s.masterRead c a).reply = .byte (Config.free 8 s.drawn))
    ∧ (∀ (t : State) (j : Nat), s.phase = .bufWrite → Memory.wf s.mem →
      s.work.inDestination a.toNat = true → j < 8 →
      a.toNat = byteAddr s.work.ldst s.work.blk j → coreStep c (write s) = .next t →
      Memory.read t.mem a.toNat = v
        ∨ Memory.read t.mem a.toNat
          = blockByte (join (write s).work.wr (write s).work.wl) j)
    ∧ (Memory.wf s.mem → s.work.written a.toNat = true → s.work.inDestination a.toNat = true →
      Memory.read (write s).mem a.toNat = v
        ∨ Memory.read (write s).mem a.toNat = Memory.read s.mem a.toNat
        ∨ (s.work.inSource a.toNat = true ∧ ∃ k j, j < 8 ∧ a.toNat = byteAddr s.work.ldst k j
          ∧ Memory.read (write s).mem a.toNat
            = blockByte (crypt c s.sk s.work.ldir ((write s).taken.getD k 0#64)) j))
    ∧ (s.Inv c → ∀ x, x ≠ a.toNat → s.work.inDestination x = false →
      Memory.read (write s).mem x = Memory.read s.mem x)

/-- Derived from 20_memory.md rules R72 and R76 and 70_reset_and_hazards.md rule R255: on a platform that
is not coherent a byte the host wrote and did not clean, and a byte the core wrote and the host did not
invalidate, are open; a clean and an invalidate outside a command end that, where not both were skipped.
A clean during a buffer command is too late for it: a source byte stays open, and of a destination byte
either the core's write or the host's stays. An invalidate of a destination byte during it is too early
and leaves the byte stale. That the open bytes are free values, kept byte by byte, is the model's choice
(notes/assumptions/14.md). -/
def Obligations.SkippedMaintenanceLeavesBytesOpen : Prop :=
  ∀ (c : Config) (s : State) (a : Addr) (n : Nat), c.coherent = false →
    (s.dirty.contains a.toNat = true → s.dmaByte c a.toNat n = Config.free 8 n)
    ∧ (s.stale.contains a.toNat = true → s.memByte c a = Config.free 8 s.drawn)
    ∧ (s.racedSrc.contains a.toNat = false → s.stale.contains a.toNat = false →
        s.phase.isBuffer = false →
        (s.clean c a).dmaByte c a.toNat n = Memory.read s.mem a.toNat)
    ∧ (s.phase = .idle → s.dirty.contains a.toNat = false →
        (s.invalidate c a).memByte c a = Memory.read s.mem a.toNat)
    ∧ (s.phase.isBuffer = true → s.dirty.contains a.toNat = true →
        (s.work.inSource a.toNat = true → (s.clean c a).dmaByte c a.toNat n = Config.free 8 n)
        ∧ (s.work.inDestination a.toNat = true → s.work.written a.toNat = false →
          ∀ (t : State) (v : Byte), State.dmaWrite c a.toNat v n (s.clean c a) = .ok t →
            Memory.wf s.mem →
            Memory.read t.mem a.toNat
              = if freeBit n then v else Memory.read (s.clean c a).mem a.toNat)
        ∧ (s.stale.contains a.toNat = true → Memory.wf s.mem →
          Memory.read (s.clean c a).mem a.toNat = Config.free 8 s.drawn))
    ∧ (s.phase.isBuffer = true → s.work.inDestination a.toNat = true →
        s.stale.contains a.toNat = true → (s.invalidate c a).stale.contains a.toNat = true)
end

