-- ==== Sys2Proof/Laws/Operands.lean ====
section
/-! SUPPORT. The laws of the operand forms: halves, big-endian bytes and padded lengths. -/

namespace Sys2Proof.Machine

@[simp] theorem hi_join (h l : Half) : hi (join h l) = h := by
  apply BitVec.eq_of_getLsbD_eq
  intro i hi'
  simp only [hi, join, BitVec.getLsbD_extractLsb', BitVec.getLsbD_append]
  simp [hi']

@[simp] theorem lo_join (h l : Half) : lo (join h l) = l := by
  apply BitVec.eq_of_getLsbD_eq
  intro i hi'
  simp only [lo, join, BitVec.getLsbD_extractLsb', BitVec.getLsbD_append]
  simp [hi']

@[simp] theorem join_hi_lo (b : Block) : join (hi b) (lo b) = b := by
  apply BitVec.eq_of_getLsbD_eq
  intro i hi'
  simp only [hi, lo, join, BitVec.getLsbD_extractLsb', BitVec.getLsbD_append]
  by_cases h : i < 32
  · simp [h]
  · simp only [h, if_false]
    rw [decide_eq_true (by omega : i - 32 < 32), Bool.true_and, show 32 + (i - 32) = i by omega]

/-- Byte `j` of a block put together from bytes is that byte (20_memory.md rule R61). -/
theorem blockByte_ofBytes (f : Nat → Byte) {j : Nat} (hj : j < 8) : blockByte (ofBytes f) j = f j := by
  apply BitVec.eq_of_getLsbD_eq
  intro i hi'
  simp only [blockByte, ofBytes, BitVec.getLsbD_extractLsb', BitVec.getLsbD_append]
  rcases (by omega : j = 0 ∨ j = 1 ∨ j = 2 ∨ j = 3 ∨ j = 4 ∨ j = 5 ∨ j = 6 ∨ j = 7) with
    rfl | rfl | rfl | rfl | rfl | rfl | rfl | rfl <;>
  · simp only [hi', decide_true, Bool.true_and]
    repeat rw [if_neg (by omega)]
    try rw [if_pos (by omega)]
    congr 1
    omega

/-- A block is put together from its own bytes. -/
theorem ofBytes_blockByte (b : Block) : ofBytes (blockByte b) = b := by
  apply BitVec.eq_of_getLsbD_eq
  intro i hi'
  simp only [blockByte, ofBytes, BitVec.getLsbD_extractLsb', BitVec.getLsbD_append]
  repeat' split
  all_goals
    rw [decide_eq_true (by omega), Bool.true_and]
    congr 1
    omega

/-- A block is made of its first eight bytes alone. -/
theorem ofBytes_congr {f g : Nat → Byte} (h : ∀ j, j < 8 → f j = g j) : ofBytes f = ofBytes g := by
  simp only [ofBytes, h 0 (by omega), h 1 (by omega), h 2 (by omega), h 3 (by omega), h 4 (by omega),
    h 5 (by omega), h 6 (by omega), h 7 (by omega)]

theorem le_paddedLength (n : Nat) : n ≤ paddedLength n := by unfold paddedLength; omega

theorem paddedLength_lt (n : Nat) : paddedLength n < n + 8 := by unfold paddedLength; omega

theorem paddedLength_eq_blocks (n : Nat) : paddedLength n = 8 * (paddedLength n / 8) := by
  unfold paddedLength; omega

theorem paddedLength_eq_zero {n : Nat} : paddedLength n = 0 ↔ n = 0 := by unfold paddedLength; omega

theorem paddedLength_of_multiple (n : Nat) : paddedLength (8 * n) = 8 * n := by
  unfold paddedLength; omega

/-- LOUT, 33 bits wide, holds every padded length of a 32-bit length (10_state.md rule R43). -/
theorem lout_toNat (w : Word) :
    (BitVec.ofNat 33 (paddedLength w.toNat)).toNat = paddedLength w.toNat := by
  have := w.isLt
  have := paddedLength_lt w.toNat
  have := paddedLength_eq_blocks w.toNat
  rw [BitVec.toNat_ofNat]
  exact Nat.mod_eq_of_lt (by omega)

/-- The padded length of a 32-bit length is at most 2^32 (10_state.md rule R43). -/
theorem paddedLength_le (w : Word) : paddedLength w.toNat ≤ 2 ^ 32 := by
  have := w.isLt
  unfold paddedLength
  omega

end Sys2Proof.Machine
end

