-- ==== Sys2Proof/Laws/Cipher.lean ====
section
/-! SUPPORT. The laws of the round loop and of the schedule. -/

namespace Sys2Proof.Machine

@[simp] theorem roundsFrom_zero (c : Config) (sk : Schedule) (d : Dir) (n : Nat) (p : Half × Half) :
    roundsFrom c sk d 0 n p = p := rfl

theorem roundsFrom_succ (c : Config) (sk : Schedule) (d : Dir) (m n : Nat) (p : Half × Half) :
    roundsFrom c sk d (m + 1) n p
      = roundsFrom c sk d m (n + 1) (oneRound c (subkeyAt sk d (Fin.ofNat 16 n)) p) := rfl

/-- The rounds split anywhere. -/
theorem roundsFrom_add (c : Config) (sk : Schedule) (d : Dir) (m k n : Nat) (p : Half × Half) :
    roundsFrom c sk d (m + k) n p = roundsFrom c sk d k (n + m) (roundsFrom c sk d m n p) := by
  induction m generalizing n p with
  | zero => simp
  | succ m ih =>
    rw [show m + 1 + k = (m + k) + 1 by omega, roundsFrom_succ, roundsFrom_succ, ih,
      show n + 1 + m = n + (m + 1) by omega]

/-- The last of the rounds, on its own. -/
theorem roundsFrom_last (c : Config) (sk : Schedule) (d : Dir) (m n : Nat) (p : Half × Half) :
    roundsFrom c sk d (m + 1) n p
      = oneRound c (subkeyAt sk d (Fin.ofNat 16 (n + m))) (roundsFrom c sk d m n p) := by
  rw [roundsFrom_add c sk d m 1 n p]
  rfl

@[simp] theorem hi_merge (p : Half × Half) : hi (merge p) = p.2 := hi_join _ _

@[simp] theorem lo_merge (p : Half × Half) : lo (merge p) = p.1 := lo_join _ _

/-- Entry `i` of a schedule (40_subkey_schedule.md rule R101). -/
@[simp] theorem sched_getElem (c : Config) (k : Block) (i : Nat) (h : i < 16) :
    (sched c k)[i] = c.subkey ⟨i, h⟩ k := by simp [sched]

/-- The schedule reads the subkey derivation alone (40_subkey_schedule.md rule R100). -/
theorem sched_subkey {c d : Config} (h : c.subkey = d.subkey) : sched c = sched d := by
  funext k
  unfold sched
  rw [h]

/-- The round function reads the three tables alone (41_round_function.md rule R127). -/
theorem feistel_tables {c d : Config} (he : c.etable = d.etable) (hp : c.ptable = d.ptable)
    (hs : c.sbox = d.sbox) : feistel c = feistel d := by
  cases c
  cases d
  cases he
  cases hp
  cases hs
  rfl

theorem roundsFrom_tables {c d : Config} (he : c.etable = d.etable) (hp : c.ptable = d.ptable)
    (hs : c.sbox = d.sbox) (sk : Schedule) (r : Dir) (m n : Nat) (p : Half × Half) :
    roundsFrom c sk r m n p = roundsFrom d sk r m n p := by
  induction m generalizing n p with
  | zero => rfl
  | succ m ih => rw [roundsFrom_succ, roundsFrom_succ, ih, oneRound, oneRound, feistel_tables he hp hs]

/-- So does the block transform; the subkeys come from the schedule (42_block_core.md rules R144 and
R145). -/
theorem crypt_tables {c d : Config} (he : c.etable = d.etable) (hp : c.ptable = d.ptable)
    (hs : c.sbox = d.sbox) : crypt c = crypt d := by
  funext sk r b
  unfold crypt
  rw [roundsFrom_tables he hp hs]

end Sys2Proof.Machine
end

