-- ==== Sys2Proof/Laws/Memory.lean ====
section
/-! SUPPORT. The laws of the DMA memory: a read after a write, and the canonical form. -/

namespace Sys2Proof.Machine

@[simp] theorem Memory.read_nil (a : Nat) : Memory.read [] a = Memory.unlisted := rfl

@[simp] theorem Memory.read_cons (e : Host.Cell) (m : Memory) (a : Nat) :
    Memory.read (e :: m) a = if a = e.1 then e.2 else Memory.read m a := rfl

/-- An address below every entry is unlisted. -/
theorem Memory.read_of_below {m : Memory} {a : Nat} (h : ∀ e ∈ m, a < e.1) :
    Memory.read m a = Memory.unlisted := by
  induction m with
  | nil => rfl
  | cons e m ih =>
    have := h e (by simp)
    simp only [Memory.read_cons, if_neg (by omega : ¬ a = e.1)]
    exact ih fun f hf => h f (by simp [hf])

theorem Memory.read_put {m : Memory} {a : Nat} {v : Byte} (h : ∀ e ∈ m, a < e.1) (b : Nat) :
    Memory.read (Memory.put m a v) b = if b = a then v else Memory.read m b := by
  unfold Memory.put
  split
  · rename_i hv
    split
    · rename_i hb; rw [hb, hv]; exact Memory.read_of_below h
    · rfl
  · rfl

/-- A read after a write gives the byte written at its address and every other byte as before. -/
theorem Memory.read_write {m : Memory} (h : m.Pairwise fun e f => e.1 < f.1) (a : Nat) (v : Byte)
    (b : Nat) : Memory.read (Memory.write m a v) b = if b = a then v else Memory.read m b := by
  induction m with
  | nil => exact Memory.read_put (by simp) b
  | cons e m ih =>
    rw [List.pairwise_cons] at h
    unfold Memory.write
    split
    · rename_i hlt
      refine Memory.read_put (fun f hf => ?_) b
      rcases List.mem_cons.1 hf with rfl | hf
      · exact hlt
      · exact Nat.lt_trans hlt (h.1 f hf)
    · split
      · rename_i heq
        rw [Memory.read_put (fun f hf => heq ▸ h.1 f hf), heq]
        simp only [Memory.read_cons]
        split <;> rfl
      · rename_i hne
        simp only [Memory.read_cons, ih h.2]
        split
        · rename_i hb
          rw [if_neg (by omega)]
        · rfl

/-- Every entry of a memory after a write is the written one or an old one. -/
theorem Memory.mem_write {m : Memory} {a : Nat} {v : Byte} {e : Host.Cell}
    (h : e ∈ Memory.write m a v) : (e = (a, v) ∧ v ≠ Memory.unlisted) ∨ e ∈ m := by
  induction m with
  | nil =>
    simp only [Memory.write, Memory.put] at h
    split at h
    · simp at h
    · rename_i hv; simp at h; exact .inl ⟨h, hv⟩
  | cons f m ih =>
    unfold Memory.write at h
    split at h
    · unfold Memory.put at h
      split at h
      · exact .inr h
      · rename_i hv; rcases List.mem_cons.1 h with h | h
        · exact .inl ⟨h, hv⟩
        · exact .inr h
    · split at h
      · unfold Memory.put at h
        split at h
        · exact .inr (by simp [h])
        · rename_i hv; rcases List.mem_cons.1 h with h | h
          · exact .inl ⟨h, hv⟩
          · exact .inr (by simp [h])
      · rcases List.mem_cons.1 h with h | h
        · exact .inr (by simp [h])
        · rcases ih h with h | h
          · exact .inl h
          · exact .inr (by simp [h])

theorem Memory.pairwise_write {m : Memory} (h : m.Pairwise fun e f => e.1 < f.1) (a : Nat) (v : Byte) :
    (Memory.write m a v).Pairwise fun e f => e.1 < f.1 := by
  have put_ok : ∀ {l : Memory}, (l.Pairwise fun e f => e.1 < f.1) → (∀ e ∈ l, a < e.1) →
      (Memory.put l a v).Pairwise fun e f => e.1 < f.1 := fun hl hb => by
    unfold Memory.put
    split
    · exact hl
    · exact List.pairwise_cons.2 ⟨fun e he => hb e he, hl⟩
  induction m with
  | nil => exact put_ok List.Pairwise.nil (by simp)
  | cons f m ih =>
    have hc := List.pairwise_cons.1 h
    unfold Memory.write
    split
    · rename_i hlt
      refine put_ok h fun e he => ?_
      rcases List.mem_cons.1 he with rfl | he
      · exact hlt
      · exact Nat.lt_trans hlt (hc.1 e he)
    · split
      · rename_i heq; exact put_ok hc.2 fun e he => heq ▸ hc.1 e he
      · rename_i hnlt hne
        refine List.pairwise_cons.2 ⟨fun e he => ?_, ih hc.2⟩
        rcases Memory.mem_write he with ⟨rfl, -⟩ | he
        · show f.1 < a; omega
        · exact hc.1 e he

/-- Writing a byte of the DMA space keeps the canonical form. -/
theorem Memory.wf_write {m : Memory} (h : Memory.wf m) {a : Nat} (ha : a < 2 ^ 32) (v : Byte) :
    Memory.wf (Memory.write m a v) := by
  refine ⟨Memory.pairwise_write h.1 a v, fun e he => ?_⟩
  rcases Memory.mem_write he with ⟨rfl, hv⟩ | he
  · exact ⟨ha, hv⟩
  · exact h.2 e he

theorem Memory.wf_nil : Memory.wf [] := by decide

/-- Two memories in canonical form that read alike are the same data. -/
theorem Memory.ext_of_wf {m n : Memory} (hm : Memory.wf m) (hn : Memory.wf n)
    (h : ∀ a, Memory.read m a = Memory.read n a) : m = n := by
  induction m generalizing n with
  | nil =>
    cases n with
    | nil => rfl
    | cons f n =>
      have := h f.1
      simp only [Memory.read_nil, Memory.read_cons, if_true] at this
      exact absurd this.symm (hn.2 f (by simp)).2
  | cons e m ih =>
    cases n with
    | nil =>
      have := h e.1
      simp only [Memory.read_nil, Memory.read_cons, if_true] at this
      exact absurd this (hm.2 e (by simp)).2
    | cons f n =>
      have hmc := List.pairwise_cons.1 hm.1
      have hnc := List.pairwise_cons.1 hn.1
      have hef : e.1 = f.1 := by
        rcases Nat.lt_trichotomy e.1 f.1 with hlt | heq | hgt
        · have := h e.1
          rw [Memory.read_of_below (m := f :: n) (fun g hg => by
            rcases List.mem_cons.1 hg with rfl | hg
            · exact hlt
            · exact Nat.lt_trans hlt (hnc.1 g hg))] at this
          simp only [Memory.read_cons, if_true] at this
          exact absurd this (hm.2 e (by simp)).2
        · exact heq
        · have := h f.1
          rw [Memory.read_of_below (m := e :: m) (fun g hg => by
            rcases List.mem_cons.1 hg with rfl | hg
            · exact hgt
            · exact Nat.lt_trans hgt (hmc.1 g hg))] at this
          simp only [Memory.read_cons, if_true] at this
          exact absurd this.symm (hn.2 f (by simp)).2
      have hv : e.2 = f.2 := by
        have := h e.1
        simpa [hef] using this
      have htail : m = n := by
        refine ih ⟨hmc.2, fun g hg => hm.2 g (by simp [hg])⟩ ⟨hnc.2, fun g hg => hn.2 g (by simp [hg])⟩
          fun a => ?_
        by_cases ha : a = e.1
        · rw [ha, Memory.read_of_below hmc.1, hef, Memory.read_of_below hnc.1]
        · have := h a
          simpa [ha, hef ▸ ha] using this
      rw [htail, Prod.ext hef hv]

end Sys2Proof.Machine
end

