-- ==== Sys2Proof/Laws/State.lean ====
section
/-! SUPPORT. One lemma per field per update of the state and of STATUS, all by `rfl`, so that no proof
unfolds a record update. -/

namespace Sys2Proof.Machine

/-! ### State.accept -/

@[simp] theorem State.accept_irqEn (op : BitVec 8) (s : State) :
    (s.accept op).irqEn = s.irqEn := rfl
@[simp] theorem State.accept_status (op : BitVec 8) (s : State) :
    (s.accept op).status = s.status.accept op := rfl
@[simp] theorem State.accept_keyLo (op : BitVec 8) (s : State) :
    (s.accept op).keyLo = s.keyLo := rfl
@[simp] theorem State.accept_keyHi (op : BitVec 8) (s : State) :
    (s.accept op).keyHi = s.keyHi := rfl
@[simp] theorem State.accept_dinLo (op : BitVec 8) (s : State) :
    (s.accept op).dinLo = s.dinLo := rfl
@[simp] theorem State.accept_dinHi (op : BitVec 8) (s : State) :
    (s.accept op).dinHi = s.dinHi := rfl
@[simp] theorem State.accept_doutLo (op : BitVec 8) (s : State) :
    (s.accept op).doutLo = s.doutLo := rfl
@[simp] theorem State.accept_doutHi (op : BitVec 8) (s : State) :
    (s.accept op).doutHi = s.doutHi := rfl
@[simp] theorem State.accept_src (op : BitVec 8) (s : State) : (s.accept op).src = s.src := rfl
@[simp] theorem State.accept_dst (op : BitVec 8) (s : State) : (s.accept op).dst = s.dst := rfl
@[simp] theorem State.accept_len (op : BitVec 8) (s : State) : (s.accept op).len = s.len := rfl
@[simp] theorem State.accept_outlen (op : BitVec 8) (s : State) :
    (s.accept op).outlen = s.outlen := rfl
@[simp] theorem State.accept_blkdone (op : BitVec 8) (s : State) :
    (s.accept op).blkdone = s.blkdone := rfl
@[simp] theorem State.accept_sk (op : BitVec 8) (s : State) : (s.accept op).sk = s.sk := rfl
@[simp] theorem State.accept_work (op : BitVec 8) (s : State) :
    (s.accept op).work = { s.work with lop := op } := rfl
@[simp] theorem State.accept_phase (op : BitVec 8) (s : State) :
    (s.accept op).phase = s.phase := rfl
@[simp] theorem State.accept_mem (op : BitVec 8) (s : State) : (s.accept op).mem = s.mem := rfl
@[simp] theorem State.accept_host (op : BitVec 8) (s : State) : (s.accept op).host = s.host := rfl
@[simp] theorem State.accept_reply (op : BitVec 8) (s : State) :
    (s.accept op).reply = s.reply := rfl
@[simp] theorem State.accept_drawn (op : BitVec 8) (s : State) :
    (s.accept op).drawn = s.drawn := rfl
@[simp] theorem State.accept_taken (op : BitVec 8) (s : State) :
    (s.accept op).taken = s.taken := rfl
@[simp] theorem State.accept_racedSrc (op : BitVec 8) (s : State) :
    (s.accept op).racedSrc = s.racedSrc := rfl
@[simp] theorem State.accept_racedDst (op : BitVec 8) (s : State) :
    (s.accept op).racedDst = s.racedDst := rfl
@[simp] theorem State.accept_dirty (op : BitVec 8) (s : State) :
    (s.accept op).dirty = s.dirty := rfl
@[simp] theorem State.accept_stale (op : BitVec 8) (s : State) :
    (s.accept op).stale = s.stale := rfl

/-! ### State.drop -/

@[simp] theorem State.drop_irqEn (s : State) : (s.drop).irqEn = s.irqEn := rfl
@[simp] theorem State.drop_status (s : State) :
    (s.drop).status = { s.status with ovr := true } := rfl
@[simp] theorem State.drop_keyLo (s : State) : (s.drop).keyLo = s.keyLo := rfl
@[simp] theorem State.drop_keyHi (s : State) : (s.drop).keyHi = s.keyHi := rfl
@[simp] theorem State.drop_dinLo (s : State) : (s.drop).dinLo = s.dinLo := rfl
@[simp] theorem State.drop_dinHi (s : State) : (s.drop).dinHi = s.dinHi := rfl
@[simp] theorem State.drop_doutLo (s : State) : (s.drop).doutLo = s.doutLo := rfl
@[simp] theorem State.drop_doutHi (s : State) : (s.drop).doutHi = s.doutHi := rfl
@[simp] theorem State.drop_src (s : State) : (s.drop).src = s.src := rfl
@[simp] theorem State.drop_dst (s : State) : (s.drop).dst = s.dst := rfl
@[simp] theorem State.drop_len (s : State) : (s.drop).len = s.len := rfl
@[simp] theorem State.drop_outlen (s : State) : (s.drop).outlen = s.outlen := rfl
@[simp] theorem State.drop_blkdone (s : State) : (s.drop).blkdone = s.blkdone := rfl
@[simp] theorem State.drop_sk (s : State) : (s.drop).sk = s.sk := rfl
@[simp] theorem State.drop_work (s : State) : (s.drop).work = s.work := rfl
@[simp] theorem State.drop_phase (s : State) : (s.drop).phase = s.phase := rfl
@[simp] theorem State.drop_mem (s : State) : (s.drop).mem = s.mem := rfl
@[simp] theorem State.drop_host (s : State) : (s.drop).host = s.host := rfl
@[simp] theorem State.drop_reply (s : State) : (s.drop).reply = s.reply := rfl
@[simp] theorem State.drop_drawn (s : State) : (s.drop).drawn = s.drawn := rfl
@[simp] theorem State.drop_taken (s : State) : (s.drop).taken = s.taken := rfl
@[simp] theorem State.drop_racedSrc (s : State) : (s.drop).racedSrc = s.racedSrc := rfl
@[simp] theorem State.drop_racedDst (s : State) : (s.drop).racedDst = s.racedDst := rfl
@[simp] theorem State.drop_dirty (s : State) : (s.drop).dirty = s.dirty := rfl
@[simp] theorem State.drop_stale (s : State) : (s.drop).stale = s.stale := rfl

/-! ### State.complete -/

@[simp] theorem State.complete_irqEn (code : ErrCode) (s : State) :
    (s.complete code).irqEn = s.irqEn := rfl
@[simp] theorem State.complete_status (code : ErrCode) (s : State) :
    (s.complete code).status = s.status.complete code := rfl
@[simp] theorem State.complete_keyLo (code : ErrCode) (s : State) :
    (s.complete code).keyLo = s.keyLo := rfl
@[simp] theorem State.complete_keyHi (code : ErrCode) (s : State) :
    (s.complete code).keyHi = s.keyHi := rfl
@[simp] theorem State.complete_dinLo (code : ErrCode) (s : State) :
    (s.complete code).dinLo = s.dinLo := rfl
@[simp] theorem State.complete_dinHi (code : ErrCode) (s : State) :
    (s.complete code).dinHi = s.dinHi := rfl
@[simp] theorem State.complete_doutLo (code : ErrCode) (s : State) :
    (s.complete code).doutLo = s.doutLo := rfl
@[simp] theorem State.complete_doutHi (code : ErrCode) (s : State) :
    (s.complete code).doutHi = s.doutHi := rfl
@[simp] theorem State.complete_src (code : ErrCode) (s : State) :
    (s.complete code).src = s.src := rfl
@[simp] theorem State.complete_dst (code : ErrCode) (s : State) :
    (s.complete code).dst = s.dst := rfl
@[simp] theorem State.complete_len (code : ErrCode) (s : State) :
    (s.complete code).len = s.len := rfl
@[simp] theorem State.complete_outlen (code : ErrCode) (s : State) :
    (s.complete code).outlen = s.outlen := rfl
@[simp] theorem State.complete_blkdone (code : ErrCode) (s : State) :
    (s.complete code).blkdone = s.blkdone := rfl
@[simp] theorem State.complete_sk (code : ErrCode) (s : State) : (s.complete code).sk = s.sk := rfl
@[simp] theorem State.complete_work (code : ErrCode) (s : State) :
    (s.complete code).work = freeWork s.drawn := rfl
@[simp] theorem State.complete_phase (code : ErrCode) (s : State) :
    (s.complete code).phase = .idle := rfl
@[simp] theorem State.complete_mem (code : ErrCode) (s : State) :
    (s.complete code).mem = s.mem := rfl
@[simp] theorem State.complete_host (code : ErrCode) (s : State) :
    (s.complete code).host = s.host := rfl
@[simp] theorem State.complete_reply (code : ErrCode) (s : State) :
    (s.complete code).reply = s.reply := rfl
@[simp] theorem State.complete_drawn (code : ErrCode) (s : State) :
    (s.complete code).drawn = s.drawn + 12 := rfl
@[simp] theorem State.complete_taken (code : ErrCode) (s : State) :
    (s.complete code).taken = s.taken := rfl
@[simp] theorem State.complete_racedSrc (code : ErrCode) (s : State) :
    (s.complete code).racedSrc = s.racedSrc := rfl
@[simp] theorem State.complete_racedDst (code : ErrCode) (s : State) :
    (s.complete code).racedDst = s.racedDst := rfl
@[simp] theorem State.complete_dirty (code : ErrCode) (s : State) :
    (s.complete code).dirty = s.dirty := rfl
@[simp] theorem State.complete_stale (code : ErrCode) (s : State) :
    (s.complete code).stale = s.stale := rfl

/-! ### State.setDout -/

@[simp] theorem State.setDout_irqEn (v : Block) (s : State) : (s.setDout v).irqEn = s.irqEn := rfl
@[simp] theorem State.setDout_status (v : Block) (s : State) :
    (s.setDout v).status = s.status := rfl
@[simp] theorem State.setDout_keyLo (v : Block) (s : State) : (s.setDout v).keyLo = s.keyLo := rfl
@[simp] theorem State.setDout_keyHi (v : Block) (s : State) : (s.setDout v).keyHi = s.keyHi := rfl
@[simp] theorem State.setDout_dinLo (v : Block) (s : State) : (s.setDout v).dinLo = s.dinLo := rfl
@[simp] theorem State.setDout_dinHi (v : Block) (s : State) : (s.setDout v).dinHi = s.dinHi := rfl
@[simp] theorem State.setDout_doutLo (v : Block) (s : State) : (s.setDout v).doutLo = lo v := rfl
@[simp] theorem State.setDout_doutHi (v : Block) (s : State) : (s.setDout v).doutHi = hi v := rfl
@[simp] theorem State.setDout_src (v : Block) (s : State) : (s.setDout v).src = s.src := rfl
@[simp] theorem State.setDout_dst (v : Block) (s : State) : (s.setDout v).dst = s.dst := rfl
@[simp] theorem State.setDout_len (v : Block) (s : State) : (s.setDout v).len = s.len := rfl
@[simp] theorem State.setDout_outlen (v : Block) (s : State) :
    (s.setDout v).outlen = s.outlen := rfl
@[simp] theorem State.setDout_blkdone (v : Block) (s : State) :
    (s.setDout v).blkdone = s.blkdone := rfl
@[simp] theorem State.setDout_sk (v : Block) (s : State) : (s.setDout v).sk = s.sk := rfl
@[simp] theorem State.setDout_work (v : Block) (s : State) : (s.setDout v).work = s.work := rfl
@[simp] theorem State.setDout_phase (v : Block) (s : State) : (s.setDout v).phase = s.phase := rfl
@[simp] theorem State.setDout_mem (v : Block) (s : State) : (s.setDout v).mem = s.mem := rfl
@[simp] theorem State.setDout_host (v : Block) (s : State) : (s.setDout v).host = s.host := rfl
@[simp] theorem State.setDout_reply (v : Block) (s : State) : (s.setDout v).reply = s.reply := rfl
@[simp] theorem State.setDout_drawn (v : Block) (s : State) : (s.setDout v).drawn = s.drawn := rfl
@[simp] theorem State.setDout_taken (v : Block) (s : State) :
    (s.setDout v).taken = s.taken := rfl
@[simp] theorem State.setDout_racedSrc (v : Block) (s : State) :
    (s.setDout v).racedSrc = s.racedSrc := rfl
@[simp] theorem State.setDout_racedDst (v : Block) (s : State) :
    (s.setDout v).racedDst = s.racedDst := rfl
@[simp] theorem State.setDout_dirty (v : Block) (s : State) : (s.setDout v).dirty = s.dirty := rfl
@[simp] theorem State.setDout_stale (v : Block) (s : State) : (s.setDout v).stale = s.stale := rfl

/-! ### State.memRead -/

@[simp] theorem State.memRead_irqEn (c : Config) (a : Addr) (s : State) :
    (s.memRead c a).irqEn = s.irqEn := rfl
@[simp] theorem State.memRead_status (c : Config) (a : Addr) (s : State) :
    (s.memRead c a).status = s.status := rfl
@[simp] theorem State.memRead_keyLo (c : Config) (a : Addr) (s : State) :
    (s.memRead c a).keyLo = s.keyLo := rfl
@[simp] theorem State.memRead_keyHi (c : Config) (a : Addr) (s : State) :
    (s.memRead c a).keyHi = s.keyHi := rfl
@[simp] theorem State.memRead_dinLo (c : Config) (a : Addr) (s : State) :
    (s.memRead c a).dinLo = s.dinLo := rfl
@[simp] theorem State.memRead_dinHi (c : Config) (a : Addr) (s : State) :
    (s.memRead c a).dinHi = s.dinHi := rfl
@[simp] theorem State.memRead_doutLo (c : Config) (a : Addr) (s : State) :
    (s.memRead c a).doutLo = s.doutLo := rfl
@[simp] theorem State.memRead_doutHi (c : Config) (a : Addr) (s : State) :
    (s.memRead c a).doutHi = s.doutHi := rfl
@[simp] theorem State.memRead_src (c : Config) (a : Addr) (s : State) :
    (s.memRead c a).src = s.src := rfl
@[simp] theorem State.memRead_dst (c : Config) (a : Addr) (s : State) :
    (s.memRead c a).dst = s.dst := rfl
@[simp] theorem State.memRead_len (c : Config) (a : Addr) (s : State) :
    (s.memRead c a).len = s.len := rfl
@[simp] theorem State.memRead_outlen (c : Config) (a : Addr) (s : State) :
    (s.memRead c a).outlen = s.outlen := rfl
@[simp] theorem State.memRead_blkdone (c : Config) (a : Addr) (s : State) :
    (s.memRead c a).blkdone = s.blkdone := rfl
@[simp] theorem State.memRead_sk (c : Config) (a : Addr) (s : State) :
    (s.memRead c a).sk = s.sk := rfl
@[simp] theorem State.memRead_work (c : Config) (a : Addr) (s : State) :
    (s.memRead c a).work = s.work := rfl
@[simp] theorem State.memRead_phase (c : Config) (a : Addr) (s : State) :
    (s.memRead c a).phase = s.phase := rfl
@[simp] theorem State.memRead_mem (c : Config) (a : Addr) (s : State) :
    (s.memRead c a).mem = s.mem := rfl
@[simp] theorem State.memRead_host (c : Config) (a : Addr) (s : State) :
    (s.memRead c a).host = s.host := rfl
@[simp] theorem State.memRead_reply (c : Config) (a : Addr) (s : State) :
    (s.memRead c a).reply = .byte (s.memByte c a) := rfl
@[simp] theorem State.memRead_drawn (c : Config) (a : Addr) (s : State) :
    (s.memRead c a).drawn = s.drawn + 1 := rfl
@[simp] theorem State.memRead_taken (c : Config) (a : Addr) (s : State) :
    (s.memRead c a).taken = s.taken := rfl
@[simp] theorem State.memRead_racedSrc (c : Config) (a : Addr) (s : State) :
    (s.memRead c a).racedSrc = s.racedSrc := rfl
@[simp] theorem State.memRead_racedDst (c : Config) (a : Addr) (s : State) :
    (s.memRead c a).racedDst = s.racedDst := rfl
@[simp] theorem State.memRead_dirty (c : Config) (a : Addr) (s : State) :
    (s.memRead c a).dirty = s.dirty := rfl
@[simp] theorem State.memRead_stale (c : Config) (a : Addr) (s : State) :
    (s.memRead c a).stale = s.stale := rfl

/-! ### State.masterRead -/

@[simp] theorem State.masterRead_irqEn (c : Config) (a : Addr) (s : State) :
    (s.masterRead c a).irqEn = s.irqEn := rfl
@[simp] theorem State.masterRead_status (c : Config) (a : Addr) (s : State) :
    (s.masterRead c a).status = s.status := rfl
@[simp] theorem State.masterRead_keyLo (c : Config) (a : Addr) (s : State) :
    (s.masterRead c a).keyLo = s.keyLo := rfl
@[simp] theorem State.masterRead_keyHi (c : Config) (a : Addr) (s : State) :
    (s.masterRead c a).keyHi = s.keyHi := rfl
@[simp] theorem State.masterRead_dinLo (c : Config) (a : Addr) (s : State) :
    (s.masterRead c a).dinLo = s.dinLo := rfl
@[simp] theorem State.masterRead_dinHi (c : Config) (a : Addr) (s : State) :
    (s.masterRead c a).dinHi = s.dinHi := rfl
@[simp] theorem State.masterRead_doutLo (c : Config) (a : Addr) (s : State) :
    (s.masterRead c a).doutLo = s.doutLo := rfl
@[simp] theorem State.masterRead_doutHi (c : Config) (a : Addr) (s : State) :
    (s.masterRead c a).doutHi = s.doutHi := rfl
@[simp] theorem State.masterRead_src (c : Config) (a : Addr) (s : State) :
    (s.masterRead c a).src = s.src := rfl
@[simp] theorem State.masterRead_dst (c : Config) (a : Addr) (s : State) :
    (s.masterRead c a).dst = s.dst := rfl
@[simp] theorem State.masterRead_len (c : Config) (a : Addr) (s : State) :
    (s.masterRead c a).len = s.len := rfl
@[simp] theorem State.masterRead_outlen (c : Config) (a : Addr) (s : State) :
    (s.masterRead c a).outlen = s.outlen := rfl
@[simp] theorem State.masterRead_blkdone (c : Config) (a : Addr) (s : State) :
    (s.masterRead c a).blkdone = s.blkdone := rfl
@[simp] theorem State.masterRead_sk (c : Config) (a : Addr) (s : State) :
    (s.masterRead c a).sk = s.sk := rfl
@[simp] theorem State.masterRead_work (c : Config) (a : Addr) (s : State) :
    (s.masterRead c a).work = s.work := rfl
@[simp] theorem State.masterRead_phase (c : Config) (a : Addr) (s : State) :
    (s.masterRead c a).phase = s.phase := rfl
@[simp] theorem State.masterRead_mem (c : Config) (a : Addr) (s : State) :
    (s.masterRead c a).mem = s.mem := rfl
@[simp] theorem State.masterRead_host (c : Config) (a : Addr) (s : State) :
    (s.masterRead c a).host = s.host := rfl
@[simp] theorem State.masterRead_reply (c : Config) (a : Addr) (s : State) :
    (s.masterRead c a).reply = .byte (s.masterByte c a) := rfl
@[simp] theorem State.masterRead_drawn (c : Config) (a : Addr) (s : State) :
    (s.masterRead c a).drawn = s.drawn + 1 := rfl
@[simp] theorem State.masterRead_taken (c : Config) (a : Addr) (s : State) :
    (s.masterRead c a).taken = s.taken := rfl
@[simp] theorem State.masterRead_racedSrc (c : Config) (a : Addr) (s : State) :
    (s.masterRead c a).racedSrc = s.racedSrc := rfl
@[simp] theorem State.masterRead_racedDst (c : Config) (a : Addr) (s : State) :
    (s.masterRead c a).racedDst = s.racedDst := rfl
@[simp] theorem State.masterRead_dirty (c : Config) (a : Addr) (s : State) :
    (s.masterRead c a).dirty = s.dirty := rfl
@[simp] theorem State.masterRead_stale (c : Config) (a : Addr) (s : State) :
    (s.masterRead c a).stale = s.stale := rfl

/-! ### State.markRace -/

@[simp] theorem State.markRace_irqEn (c : Config) (b : Bool) (n : Nat) (s : State) :
    (s.markRace c b n).irqEn = s.irqEn := rfl
@[simp] theorem State.markRace_status (c : Config) (b : Bool) (n : Nat) (s : State) :
    (s.markRace c b n).status = s.status := rfl
@[simp] theorem State.markRace_keyLo (c : Config) (b : Bool) (n : Nat) (s : State) :
    (s.markRace c b n).keyLo = s.keyLo := rfl
@[simp] theorem State.markRace_keyHi (c : Config) (b : Bool) (n : Nat) (s : State) :
    (s.markRace c b n).keyHi = s.keyHi := rfl
@[simp] theorem State.markRace_dinLo (c : Config) (b : Bool) (n : Nat) (s : State) :
    (s.markRace c b n).dinLo = s.dinLo := rfl
@[simp] theorem State.markRace_dinHi (c : Config) (b : Bool) (n : Nat) (s : State) :
    (s.markRace c b n).dinHi = s.dinHi := rfl
@[simp] theorem State.markRace_doutLo (c : Config) (b : Bool) (n : Nat) (s : State) :
    (s.markRace c b n).doutLo = s.doutLo := rfl
@[simp] theorem State.markRace_doutHi (c : Config) (b : Bool) (n : Nat) (s : State) :
    (s.markRace c b n).doutHi = s.doutHi := rfl
@[simp] theorem State.markRace_src (c : Config) (b : Bool) (n : Nat) (s : State) :
    (s.markRace c b n).src = s.src := rfl
@[simp] theorem State.markRace_dst (c : Config) (b : Bool) (n : Nat) (s : State) :
    (s.markRace c b n).dst = s.dst := rfl
@[simp] theorem State.markRace_len (c : Config) (b : Bool) (n : Nat) (s : State) :
    (s.markRace c b n).len = s.len := rfl
@[simp] theorem State.markRace_outlen (c : Config) (b : Bool) (n : Nat) (s : State) :
    (s.markRace c b n).outlen = s.outlen := rfl
@[simp] theorem State.markRace_blkdone (c : Config) (b : Bool) (n : Nat) (s : State) :
    (s.markRace c b n).blkdone = s.blkdone := rfl
@[simp] theorem State.markRace_sk (c : Config) (b : Bool) (n : Nat) (s : State) :
    (s.markRace c b n).sk = s.sk := rfl
@[simp] theorem State.markRace_phase (c : Config) (b : Bool) (n : Nat) (s : State) :
    (s.markRace c b n).phase = s.phase := rfl
@[simp] theorem State.markRace_host (c : Config) (b : Bool) (n : Nat) (s : State) :
    (s.markRace c b n).host = s.host := rfl
@[simp] theorem State.markRace_reply (c : Config) (b : Bool) (n : Nat) (s : State) :
    (s.markRace c b n).reply = s.reply := rfl
@[simp] theorem State.markRace_work_lop (c : Config) (b : Bool) (n : Nat) (s : State) :
    (s.markRace c b n).work.lop = s.work.lop := rfl
@[simp] theorem State.markRace_work_lkey (c : Config) (b : Bool) (n : Nat) (s : State) :
    (s.markRace c b n).work.lkey = s.work.lkey := rfl
@[simp] theorem State.markRace_work_lblk (c : Config) (b : Bool) (n : Nat) (s : State) :
    (s.markRace c b n).work.lblk = s.work.lblk := rfl
@[simp] theorem State.markRace_work_lsrc (c : Config) (b : Bool) (n : Nat) (s : State) :
    (s.markRace c b n).work.lsrc = s.work.lsrc := rfl
@[simp] theorem State.markRace_work_ldst (c : Config) (b : Bool) (n : Nat) (s : State) :
    (s.markRace c b n).work.ldst = s.work.ldst := rfl
@[simp] theorem State.markRace_work_llen (c : Config) (b : Bool) (n : Nat) (s : State) :
    (s.markRace c b n).work.llen = s.work.llen := rfl
@[simp] theorem State.markRace_work_lout (c : Config) (b : Bool) (n : Nat) (s : State) :
    (s.markRace c b n).work.lout = s.work.lout := rfl
@[simp] theorem State.markRace_work_ldir (c : Config) (b : Bool) (n : Nat) (s : State) :
    (s.markRace c b n).work.ldir = s.work.ldir := rfl
@[simp] theorem State.markRace_work_rnd (c : Config) (b : Bool) (n : Nat) (s : State) :
    (s.markRace c b n).work.rnd = s.work.rnd := rfl
@[simp] theorem State.markRace_work_blk (c : Config) (b : Bool) (n : Nat) (s : State) :
    (s.markRace c b n).work.blk = s.work.blk := rfl
@[simp] theorem State.markRace_racedSrc (c : Config) (b : Bool) (n : Nat) (s : State) :
    (s.markRace c b n).racedSrc = if b && s.phase.isBuffer && s.work.inSource n
      then s.racedSrc.insert n else s.racedSrc := rfl
@[simp] theorem State.markRace_racedDst (c : Config) (b : Bool) (n : Nat) (s : State) :
    (s.markRace c b n).racedDst = if b && s.phase.isBuffer && s.work.inDestination n
      then s.racedDst.insert n else s.racedDst := rfl
@[simp] theorem State.markRace_dirty (c : Config) (b : Bool) (n : Nat) (s : State) :
    (s.markRace c b n).dirty = s.dirty := rfl

/-! ### State.landWrite -/

@[simp] theorem State.landWrite_irqEn (c : Config) (a : Addr) (v : Byte) (s : State) :
    (s.landWrite c a v).irqEn = s.irqEn := rfl
@[simp] theorem State.landWrite_status (c : Config) (a : Addr) (v : Byte) (s : State) :
    (s.landWrite c a v).status = s.status := rfl
@[simp] theorem State.landWrite_keyLo (c : Config) (a : Addr) (v : Byte) (s : State) :
    (s.landWrite c a v).keyLo = s.keyLo := rfl
@[simp] theorem State.landWrite_keyHi (c : Config) (a : Addr) (v : Byte) (s : State) :
    (s.landWrite c a v).keyHi = s.keyHi := rfl
@[simp] theorem State.landWrite_dinLo (c : Config) (a : Addr) (v : Byte) (s : State) :
    (s.landWrite c a v).dinLo = s.dinLo := rfl
@[simp] theorem State.landWrite_dinHi (c : Config) (a : Addr) (v : Byte) (s : State) :
    (s.landWrite c a v).dinHi = s.dinHi := rfl
@[simp] theorem State.landWrite_doutLo (c : Config) (a : Addr) (v : Byte) (s : State) :
    (s.landWrite c a v).doutLo = s.doutLo := rfl
@[simp] theorem State.landWrite_doutHi (c : Config) (a : Addr) (v : Byte) (s : State) :
    (s.landWrite c a v).doutHi = s.doutHi := rfl
@[simp] theorem State.landWrite_src (c : Config) (a : Addr) (v : Byte) (s : State) :
    (s.landWrite c a v).src = s.src := rfl
@[simp] theorem State.landWrite_dst (c : Config) (a : Addr) (v : Byte) (s : State) :
    (s.landWrite c a v).dst = s.dst := rfl
@[simp] theorem State.landWrite_len (c : Config) (a : Addr) (v : Byte) (s : State) :
    (s.landWrite c a v).len = s.len := rfl
@[simp] theorem State.landWrite_outlen (c : Config) (a : Addr) (v : Byte) (s : State) :
    (s.landWrite c a v).outlen = s.outlen := rfl
@[simp] theorem State.landWrite_blkdone (c : Config) (a : Addr) (v : Byte) (s : State) :
    (s.landWrite c a v).blkdone = s.blkdone := rfl
@[simp] theorem State.landWrite_sk (c : Config) (a : Addr) (v : Byte) (s : State) :
    (s.landWrite c a v).sk = s.sk := rfl
@[simp] theorem State.landWrite_phase (c : Config) (a : Addr) (v : Byte) (s : State) :
    (s.landWrite c a v).phase = s.phase := rfl
@[simp] theorem State.landWrite_host (c : Config) (a : Addr) (v : Byte) (s : State) :
    (s.landWrite c a v).host = s.host := rfl
@[simp] theorem State.landWrite_reply (c : Config) (a : Addr) (v : Byte) (s : State) :
    (s.landWrite c a v).reply = s.reply := rfl
@[simp] theorem State.landWrite_work_lop (c : Config) (a : Addr) (v : Byte) (s : State) :
    (s.landWrite c a v).work.lop = s.work.lop := rfl
@[simp] theorem State.landWrite_work_lkey (c : Config) (a : Addr) (v : Byte) (s : State) :
    (s.landWrite c a v).work.lkey = s.work.lkey := rfl
@[simp] theorem State.landWrite_work_lblk (c : Config) (a : Addr) (v : Byte) (s : State) :
    (s.landWrite c a v).work.lblk = s.work.lblk := rfl
@[simp] theorem State.landWrite_work_lsrc (c : Config) (a : Addr) (v : Byte) (s : State) :
    (s.landWrite c a v).work.lsrc = s.work.lsrc := rfl
@[simp] theorem State.landWrite_work_ldst (c : Config) (a : Addr) (v : Byte) (s : State) :
    (s.landWrite c a v).work.ldst = s.work.ldst := rfl
@[simp] theorem State.landWrite_work_llen (c : Config) (a : Addr) (v : Byte) (s : State) :
    (s.landWrite c a v).work.llen = s.work.llen := rfl
@[simp] theorem State.landWrite_work_lout (c : Config) (a : Addr) (v : Byte) (s : State) :
    (s.landWrite c a v).work.lout = s.work.lout := rfl
@[simp] theorem State.landWrite_work_ldir (c : Config) (a : Addr) (v : Byte) (s : State) :
    (s.landWrite c a v).work.ldir = s.work.ldir := rfl
@[simp] theorem State.landWrite_work_rnd (c : Config) (a : Addr) (v : Byte) (s : State) :
    (s.landWrite c a v).work.rnd = s.work.rnd := rfl
@[simp] theorem State.landWrite_work_blk (c : Config) (a : Addr) (v : Byte) (s : State) :
    (s.landWrite c a v).work.blk = s.work.blk := rfl
@[simp] theorem State.landWrite_racedSrc (c : Config) (a : Addr) (v : Byte) (s : State) :
    (s.landWrite c a v).racedSrc = if s.phase.isBuffer && s.work.inSource a.toNat
      then s.racedSrc.insert a.toNat else s.racedSrc := rfl
@[simp] theorem State.landWrite_racedDst (c : Config) (a : Addr) (v : Byte) (s : State) :
    (s.landWrite c a v).racedDst = if s.phase.isBuffer && s.work.inDestination a.toNat
      then s.racedDst.insert a.toNat else s.racedDst := rfl
@[simp] theorem State.landWrite_dirty (c : Config) (a : Addr) (v : Byte) (s : State) :
    (s.landWrite c a v).dirty = s.dirty := rfl

/-! ### State.memWrite -/

@[simp] theorem State.memWrite_irqEn (c : Config) (a : Addr) (v : Byte) (s : State) :
    (s.memWrite c a v).irqEn = s.irqEn := rfl
@[simp] theorem State.memWrite_status (c : Config) (a : Addr) (v : Byte) (s : State) :
    (s.memWrite c a v).status = s.status := rfl
@[simp] theorem State.memWrite_keyLo (c : Config) (a : Addr) (v : Byte) (s : State) :
    (s.memWrite c a v).keyLo = s.keyLo := rfl
@[simp] theorem State.memWrite_keyHi (c : Config) (a : Addr) (v : Byte) (s : State) :
    (s.memWrite c a v).keyHi = s.keyHi := rfl
@[simp] theorem State.memWrite_dinLo (c : Config) (a : Addr) (v : Byte) (s : State) :
    (s.memWrite c a v).dinLo = s.dinLo := rfl
@[simp] theorem State.memWrite_dinHi (c : Config) (a : Addr) (v : Byte) (s : State) :
    (s.memWrite c a v).dinHi = s.dinHi := rfl
@[simp] theorem State.memWrite_doutLo (c : Config) (a : Addr) (v : Byte) (s : State) :
    (s.memWrite c a v).doutLo = s.doutLo := rfl
@[simp] theorem State.memWrite_doutHi (c : Config) (a : Addr) (v : Byte) (s : State) :
    (s.memWrite c a v).doutHi = s.doutHi := rfl
@[simp] theorem State.memWrite_src (c : Config) (a : Addr) (v : Byte) (s : State) :
    (s.memWrite c a v).src = s.src := rfl
@[simp] theorem State.memWrite_dst (c : Config) (a : Addr) (v : Byte) (s : State) :
    (s.memWrite c a v).dst = s.dst := rfl
@[simp] theorem State.memWrite_len (c : Config) (a : Addr) (v : Byte) (s : State) :
    (s.memWrite c a v).len = s.len := rfl
@[simp] theorem State.memWrite_outlen (c : Config) (a : Addr) (v : Byte) (s : State) :
    (s.memWrite c a v).outlen = s.outlen := rfl
@[simp] theorem State.memWrite_blkdone (c : Config) (a : Addr) (v : Byte) (s : State) :
    (s.memWrite c a v).blkdone = s.blkdone := rfl
@[simp] theorem State.memWrite_sk (c : Config) (a : Addr) (v : Byte) (s : State) :
    (s.memWrite c a v).sk = s.sk := rfl
@[simp] theorem State.memWrite_phase (c : Config) (a : Addr) (v : Byte) (s : State) :
    (s.memWrite c a v).phase = s.phase := rfl
@[simp] theorem State.memWrite_host (c : Config) (a : Addr) (v : Byte) (s : State) :
    (s.memWrite c a v).host = s.host := rfl
@[simp] theorem State.memWrite_reply (c : Config) (a : Addr) (v : Byte) (s : State) :
    (s.memWrite c a v).reply = s.reply := rfl
@[simp] theorem State.memWrite_work_lop (c : Config) (a : Addr) (v : Byte) (s : State) :
    (s.memWrite c a v).work.lop = s.work.lop := rfl
@[simp] theorem State.memWrite_work_lkey (c : Config) (a : Addr) (v : Byte) (s : State) :
    (s.memWrite c a v).work.lkey = s.work.lkey := rfl
@[simp] theorem State.memWrite_work_lblk (c : Config) (a : Addr) (v : Byte) (s : State) :
    (s.memWrite c a v).work.lblk = s.work.lblk := rfl
@[simp] theorem State.memWrite_work_lsrc (c : Config) (a : Addr) (v : Byte) (s : State) :
    (s.memWrite c a v).work.lsrc = s.work.lsrc := rfl
@[simp] theorem State.memWrite_work_ldst (c : Config) (a : Addr) (v : Byte) (s : State) :
    (s.memWrite c a v).work.ldst = s.work.ldst := rfl
@[simp] theorem State.memWrite_work_llen (c : Config) (a : Addr) (v : Byte) (s : State) :
    (s.memWrite c a v).work.llen = s.work.llen := rfl
@[simp] theorem State.memWrite_work_lout (c : Config) (a : Addr) (v : Byte) (s : State) :
    (s.memWrite c a v).work.lout = s.work.lout := rfl
@[simp] theorem State.memWrite_work_ldir (c : Config) (a : Addr) (v : Byte) (s : State) :
    (s.memWrite c a v).work.ldir = s.work.ldir := rfl
@[simp] theorem State.memWrite_work_rnd (c : Config) (a : Addr) (v : Byte) (s : State) :
    (s.memWrite c a v).work.rnd = s.work.rnd := rfl
@[simp] theorem State.memWrite_work_blk (c : Config) (a : Addr) (v : Byte) (s : State) :
    (s.memWrite c a v).work.blk = s.work.blk := rfl
@[simp] theorem State.memWrite_racedSrc (c : Config) (a : Addr) (v : Byte) (s : State) :
    (s.memWrite c a v).racedSrc = if s.phase.isBuffer && s.work.inSource a.toNat
      then s.racedSrc.insert a.toNat else s.racedSrc := rfl
@[simp] theorem State.memWrite_racedDst (c : Config) (a : Addr) (v : Byte) (s : State) :
    (s.memWrite c a v).racedDst = if s.phase.isBuffer && s.work.inDestination a.toNat
      then s.racedDst.insert a.toNat else s.racedDst := rfl
@[simp] theorem State.memWrite_mem (c : Config) (a : Addr) (v : Byte) (s : State) :
    (s.memWrite c a v).mem = (s.landWrite c a v).mem := rfl
@[simp] theorem State.memWrite_taken (c : Config) (a : Addr) (v : Byte) (s : State) :
    (s.memWrite c a v).taken = (s.landWrite c a v).taken := rfl
@[simp] theorem State.memWrite_drawn (c : Config) (a : Addr) (v : Byte) (s : State) :
    (s.memWrite c a v).drawn = (s.landWrite c a v).drawn := rfl
@[simp] theorem State.memWrite_dirty (c : Config) (a : Addr) (v : Byte) (s : State) :
    (s.memWrite c a v).dirty = s.dirty.insert a.toNat := rfl

/-! ### State.masterWrite -/

@[simp] theorem State.masterWrite_irqEn (c : Config) (a : Addr) (v : Byte) (s : State) :
    (s.masterWrite c a v).irqEn = s.irqEn := rfl
@[simp] theorem State.masterWrite_status (c : Config) (a : Addr) (v : Byte) (s : State) :
    (s.masterWrite c a v).status = s.status := rfl
@[simp] theorem State.masterWrite_keyLo (c : Config) (a : Addr) (v : Byte) (s : State) :
    (s.masterWrite c a v).keyLo = s.keyLo := rfl
@[simp] theorem State.masterWrite_keyHi (c : Config) (a : Addr) (v : Byte) (s : State) :
    (s.masterWrite c a v).keyHi = s.keyHi := rfl
@[simp] theorem State.masterWrite_dinLo (c : Config) (a : Addr) (v : Byte) (s : State) :
    (s.masterWrite c a v).dinLo = s.dinLo := rfl
@[simp] theorem State.masterWrite_dinHi (c : Config) (a : Addr) (v : Byte) (s : State) :
    (s.masterWrite c a v).dinHi = s.dinHi := rfl
@[simp] theorem State.masterWrite_doutLo (c : Config) (a : Addr) (v : Byte) (s : State) :
    (s.masterWrite c a v).doutLo = s.doutLo := rfl
@[simp] theorem State.masterWrite_doutHi (c : Config) (a : Addr) (v : Byte) (s : State) :
    (s.masterWrite c a v).doutHi = s.doutHi := rfl
@[simp] theorem State.masterWrite_src (c : Config) (a : Addr) (v : Byte) (s : State) :
    (s.masterWrite c a v).src = s.src := rfl
@[simp] theorem State.masterWrite_dst (c : Config) (a : Addr) (v : Byte) (s : State) :
    (s.masterWrite c a v).dst = s.dst := rfl
@[simp] theorem State.masterWrite_len (c : Config) (a : Addr) (v : Byte) (s : State) :
    (s.masterWrite c a v).len = s.len := rfl
@[simp] theorem State.masterWrite_outlen (c : Config) (a : Addr) (v : Byte) (s : State) :
    (s.masterWrite c a v).outlen = s.outlen := rfl
@[simp] theorem State.masterWrite_blkdone (c : Config) (a : Addr) (v : Byte) (s : State) :
    (s.masterWrite c a v).blkdone = s.blkdone := rfl
@[simp] theorem State.masterWrite_sk (c : Config) (a : Addr) (v : Byte) (s : State) :
    (s.masterWrite c a v).sk = s.sk := rfl
@[simp] theorem State.masterWrite_phase (c : Config) (a : Addr) (v : Byte) (s : State) :
    (s.masterWrite c a v).phase = s.phase := rfl
@[simp] theorem State.masterWrite_host (c : Config) (a : Addr) (v : Byte) (s : State) :
    (s.masterWrite c a v).host = s.host := rfl
@[simp] theorem State.masterWrite_reply (c : Config) (a : Addr) (v : Byte) (s : State) :
    (s.masterWrite c a v).reply = s.reply := rfl
@[simp] theorem State.masterWrite_work_lop (c : Config) (a : Addr) (v : Byte) (s : State) :
    (s.masterWrite c a v).work.lop = s.work.lop := rfl
@[simp] theorem State.masterWrite_work_lkey (c : Config) (a : Addr) (v : Byte) (s : State) :
    (s.masterWrite c a v).work.lkey = s.work.lkey := rfl
@[simp] theorem State.masterWrite_work_lblk (c : Config) (a : Addr) (v : Byte) (s : State) :
    (s.masterWrite c a v).work.lblk = s.work.lblk := rfl
@[simp] theorem State.masterWrite_work_lsrc (c : Config) (a : Addr) (v : Byte) (s : State) :
    (s.masterWrite c a v).work.lsrc = s.work.lsrc := rfl
@[simp] theorem State.masterWrite_work_ldst (c : Config) (a : Addr) (v : Byte) (s : State) :
    (s.masterWrite c a v).work.ldst = s.work.ldst := rfl
@[simp] theorem State.masterWrite_work_llen (c : Config) (a : Addr) (v : Byte) (s : State) :
    (s.masterWrite c a v).work.llen = s.work.llen := rfl
@[simp] theorem State.masterWrite_work_lout (c : Config) (a : Addr) (v : Byte) (s : State) :
    (s.masterWrite c a v).work.lout = s.work.lout := rfl
@[simp] theorem State.masterWrite_work_ldir (c : Config) (a : Addr) (v : Byte) (s : State) :
    (s.masterWrite c a v).work.ldir = s.work.ldir := rfl
@[simp] theorem State.masterWrite_work_rnd (c : Config) (a : Addr) (v : Byte) (s : State) :
    (s.masterWrite c a v).work.rnd = s.work.rnd := rfl
@[simp] theorem State.masterWrite_work_blk (c : Config) (a : Addr) (v : Byte) (s : State) :
    (s.masterWrite c a v).work.blk = s.work.blk := rfl
@[simp] theorem State.masterWrite_racedSrc (c : Config) (a : Addr) (v : Byte) (s : State) :
    (s.masterWrite c a v).racedSrc = if s.phase.isBuffer && s.work.inSource a.toNat
      then s.racedSrc.insert a.toNat else s.racedSrc := rfl
@[simp] theorem State.masterWrite_racedDst (c : Config) (a : Addr) (v : Byte) (s : State) :
    (s.masterWrite c a v).racedDst = if s.phase.isBuffer && s.work.inDestination a.toNat
      then s.racedDst.insert a.toNat else s.racedDst := rfl
@[simp] theorem State.masterWrite_mem (c : Config) (a : Addr) (v : Byte) (s : State) :
    (s.masterWrite c a v).mem = (s.landWrite c a v).mem := rfl
@[simp] theorem State.masterWrite_taken (c : Config) (a : Addr) (v : Byte) (s : State) :
    (s.masterWrite c a v).taken = (s.landWrite c a v).taken := rfl
@[simp] theorem State.masterWrite_drawn (c : Config) (a : Addr) (v : Byte) (s : State) :
    (s.masterWrite c a v).drawn = (s.landWrite c a v).drawn := rfl
@[simp] theorem State.masterWrite_dirty (c : Config) (a : Addr) (v : Byte) (s : State) :
    (s.masterWrite c a v).dirty = s.dirty := rfl

/-! ### State.clean -/

@[simp] theorem State.clean_irqEn (c : Config) (a : Addr) (s : State) :
    (s.clean c a).irqEn = s.irqEn := rfl
@[simp] theorem State.clean_status (c : Config) (a : Addr) (s : State) :
    (s.clean c a).status = s.status := rfl
@[simp] theorem State.clean_keyLo (c : Config) (a : Addr) (s : State) :
    (s.clean c a).keyLo = s.keyLo := rfl
@[simp] theorem State.clean_keyHi (c : Config) (a : Addr) (s : State) :
    (s.clean c a).keyHi = s.keyHi := rfl
@[simp] theorem State.clean_dinLo (c : Config) (a : Addr) (s : State) :
    (s.clean c a).dinLo = s.dinLo := rfl
@[simp] theorem State.clean_dinHi (c : Config) (a : Addr) (s : State) :
    (s.clean c a).dinHi = s.dinHi := rfl
@[simp] theorem State.clean_doutLo (c : Config) (a : Addr) (s : State) :
    (s.clean c a).doutLo = s.doutLo := rfl
@[simp] theorem State.clean_doutHi (c : Config) (a : Addr) (s : State) :
    (s.clean c a).doutHi = s.doutHi := rfl
@[simp] theorem State.clean_src (c : Config) (a : Addr) (s : State) :
    (s.clean c a).src = s.src := rfl
@[simp] theorem State.clean_dst (c : Config) (a : Addr) (s : State) :
    (s.clean c a).dst = s.dst := rfl
@[simp] theorem State.clean_len (c : Config) (a : Addr) (s : State) :
    (s.clean c a).len = s.len := rfl
@[simp] theorem State.clean_outlen (c : Config) (a : Addr) (s : State) :
    (s.clean c a).outlen = s.outlen := rfl
@[simp] theorem State.clean_blkdone (c : Config) (a : Addr) (s : State) :
    (s.clean c a).blkdone = s.blkdone := rfl
@[simp] theorem State.clean_sk (c : Config) (a : Addr) (s : State) :
    (s.clean c a).sk = s.sk := rfl
@[simp] theorem State.clean_phase (c : Config) (a : Addr) (s : State) :
    (s.clean c a).phase = s.phase := rfl
@[simp] theorem State.clean_host (c : Config) (a : Addr) (s : State) :
    (s.clean c a).host = s.host := rfl
@[simp] theorem State.clean_reply (c : Config) (a : Addr) (s : State) :
    (s.clean c a).reply = s.reply := rfl
@[simp] theorem State.clean_work_lop (c : Config) (a : Addr) (s : State) :
    (s.clean c a).work.lop = s.work.lop := rfl
@[simp] theorem State.clean_work_lkey (c : Config) (a : Addr) (s : State) :
    (s.clean c a).work.lkey = s.work.lkey := rfl
@[simp] theorem State.clean_work_lblk (c : Config) (a : Addr) (s : State) :
    (s.clean c a).work.lblk = s.work.lblk := rfl
@[simp] theorem State.clean_work_lsrc (c : Config) (a : Addr) (s : State) :
    (s.clean c a).work.lsrc = s.work.lsrc := rfl
@[simp] theorem State.clean_work_ldst (c : Config) (a : Addr) (s : State) :
    (s.clean c a).work.ldst = s.work.ldst := rfl
@[simp] theorem State.clean_work_llen (c : Config) (a : Addr) (s : State) :
    (s.clean c a).work.llen = s.work.llen := rfl
@[simp] theorem State.clean_work_lout (c : Config) (a : Addr) (s : State) :
    (s.clean c a).work.lout = s.work.lout := rfl
@[simp] theorem State.clean_work_ldir (c : Config) (a : Addr) (s : State) :
    (s.clean c a).work.ldir = s.work.ldir := rfl
@[simp] theorem State.clean_work_rnd (c : Config) (a : Addr) (s : State) :
    (s.clean c a).work.rnd = s.work.rnd := rfl
@[simp] theorem State.clean_work_blk (c : Config) (a : Addr) (s : State) :
    (s.clean c a).work.blk = s.work.blk := rfl
@[simp] theorem State.clean_racedSrc (c : Config) (a : Addr) (s : State) :
    (s.clean c a).racedSrc = if s.held c a && s.phase.isBuffer && s.work.inSource a.toNat
      then s.racedSrc.insert a.toNat else s.racedSrc := rfl
@[simp] theorem State.clean_racedDst (c : Config) (a : Addr) (s : State) :
    (s.clean c a).racedDst = if s.held c a && s.phase.isBuffer && s.work.inDestination a.toNat
      then s.racedDst.insert a.toNat else s.racedDst := rfl
@[simp] theorem State.clean_dirty (c : Config) (a : Addr) (s : State) :
    (s.clean c a).dirty = s.dirty.filter fun b => decide (b ≠ a.toNat) := rfl

/-! ### State.invalidate -/

@[simp] theorem State.invalidate_irqEn (c : Config) (a : Addr) (s : State) :
    (s.invalidate c a).irqEn = s.irqEn := rfl
@[simp] theorem State.invalidate_status (c : Config) (a : Addr) (s : State) :
    (s.invalidate c a).status = s.status := rfl
@[simp] theorem State.invalidate_keyLo (c : Config) (a : Addr) (s : State) :
    (s.invalidate c a).keyLo = s.keyLo := rfl
@[simp] theorem State.invalidate_keyHi (c : Config) (a : Addr) (s : State) :
    (s.invalidate c a).keyHi = s.keyHi := rfl
@[simp] theorem State.invalidate_dinLo (c : Config) (a : Addr) (s : State) :
    (s.invalidate c a).dinLo = s.dinLo := rfl
@[simp] theorem State.invalidate_dinHi (c : Config) (a : Addr) (s : State) :
    (s.invalidate c a).dinHi = s.dinHi := rfl
@[simp] theorem State.invalidate_doutLo (c : Config) (a : Addr) (s : State) :
    (s.invalidate c a).doutLo = s.doutLo := rfl
@[simp] theorem State.invalidate_doutHi (c : Config) (a : Addr) (s : State) :
    (s.invalidate c a).doutHi = s.doutHi := rfl
@[simp] theorem State.invalidate_src (c : Config) (a : Addr) (s : State) :
    (s.invalidate c a).src = s.src := rfl
@[simp] theorem State.invalidate_dst (c : Config) (a : Addr) (s : State) :
    (s.invalidate c a).dst = s.dst := rfl
@[simp] theorem State.invalidate_len (c : Config) (a : Addr) (s : State) :
    (s.invalidate c a).len = s.len := rfl
@[simp] theorem State.invalidate_outlen (c : Config) (a : Addr) (s : State) :
    (s.invalidate c a).outlen = s.outlen := rfl
@[simp] theorem State.invalidate_blkdone (c : Config) (a : Addr) (s : State) :
    (s.invalidate c a).blkdone = s.blkdone := rfl
@[simp] theorem State.invalidate_sk (c : Config) (a : Addr) (s : State) :
    (s.invalidate c a).sk = s.sk := rfl
@[simp] theorem State.invalidate_phase (c : Config) (a : Addr) (s : State) :
    (s.invalidate c a).phase = s.phase := rfl
@[simp] theorem State.invalidate_host (c : Config) (a : Addr) (s : State) :
    (s.invalidate c a).host = s.host := rfl
@[simp] theorem State.invalidate_reply (c : Config) (a : Addr) (s : State) :
    (s.invalidate c a).reply = s.reply := rfl
@[simp] theorem State.invalidate_work_lop (c : Config) (a : Addr) (s : State) :
    (s.invalidate c a).work.lop = s.work.lop := rfl
@[simp] theorem State.invalidate_work_lkey (c : Config) (a : Addr) (s : State) :
    (s.invalidate c a).work.lkey = s.work.lkey := rfl
@[simp] theorem State.invalidate_work_lblk (c : Config) (a : Addr) (s : State) :
    (s.invalidate c a).work.lblk = s.work.lblk := rfl
@[simp] theorem State.invalidate_work_lsrc (c : Config) (a : Addr) (s : State) :
    (s.invalidate c a).work.lsrc = s.work.lsrc := rfl
@[simp] theorem State.invalidate_work_ldst (c : Config) (a : Addr) (s : State) :
    (s.invalidate c a).work.ldst = s.work.ldst := rfl
@[simp] theorem State.invalidate_work_llen (c : Config) (a : Addr) (s : State) :
    (s.invalidate c a).work.llen = s.work.llen := rfl
@[simp] theorem State.invalidate_work_lout (c : Config) (a : Addr) (s : State) :
    (s.invalidate c a).work.lout = s.work.lout := rfl
@[simp] theorem State.invalidate_work_ldir (c : Config) (a : Addr) (s : State) :
    (s.invalidate c a).work.ldir = s.work.ldir := rfl
@[simp] theorem State.invalidate_work_rnd (c : Config) (a : Addr) (s : State) :
    (s.invalidate c a).work.rnd = s.work.rnd := rfl
@[simp] theorem State.invalidate_work_blk (c : Config) (a : Addr) (s : State) :
    (s.invalidate c a).work.blk = s.work.blk := rfl
@[simp] theorem State.invalidate_racedSrc (c : Config) (a : Addr) (s : State) :
    (s.invalidate c a).racedSrc = if s.held c a && s.phase.isBuffer && s.work.inSource a.toNat
      then s.racedSrc.insert a.toNat else s.racedSrc := rfl
@[simp] theorem State.invalidate_racedDst (c : Config) (a : Addr) (s : State) :
    (s.invalidate c a).racedDst = if s.held c a && s.phase.isBuffer && s.work.inDestination a.toNat
      then s.racedDst.insert a.toNat else s.racedDst := rfl
@[simp] theorem State.invalidate_dirty (c : Config) (a : Addr) (s : State) :
    (s.invalidate c a).dirty = s.dirty.filter fun b => decide (b ≠ a.toNat) := rfl

/-! ### State.startKeygen -/

@[simp] theorem State.startKeygen_irqEn (s : State) : (s.startKeygen).irqEn = s.irqEn := rfl
@[simp] theorem State.startKeygen_status (s : State) : (s.startKeygen).status = s.status := rfl
@[simp] theorem State.startKeygen_keyLo (s : State) : (s.startKeygen).keyLo = s.keyLo := rfl
@[simp] theorem State.startKeygen_keyHi (s : State) : (s.startKeygen).keyHi = s.keyHi := rfl
@[simp] theorem State.startKeygen_dinLo (s : State) : (s.startKeygen).dinLo = s.dinLo := rfl
@[simp] theorem State.startKeygen_dinHi (s : State) : (s.startKeygen).dinHi = s.dinHi := rfl
@[simp] theorem State.startKeygen_doutLo (s : State) : (s.startKeygen).doutLo = s.doutLo := rfl
@[simp] theorem State.startKeygen_doutHi (s : State) : (s.startKeygen).doutHi = s.doutHi := rfl
@[simp] theorem State.startKeygen_src (s : State) : (s.startKeygen).src = s.src := rfl
@[simp] theorem State.startKeygen_dst (s : State) : (s.startKeygen).dst = s.dst := rfl
@[simp] theorem State.startKeygen_len (s : State) : (s.startKeygen).len = s.len := rfl
@[simp] theorem State.startKeygen_outlen (s : State) : (s.startKeygen).outlen = s.outlen := rfl
@[simp] theorem State.startKeygen_blkdone (s : State) : (s.startKeygen).blkdone = s.blkdone := rfl
@[simp] theorem State.startKeygen_sk (s : State) : (s.startKeygen).sk = s.sk := rfl
@[simp] theorem State.startKeygen_work (s : State) :
    (s.startKeygen).work = { s.work with lkey := s.key } := rfl
@[simp] theorem State.startKeygen_phase (s : State) : (s.startKeygen).phase = .keygen := rfl
@[simp] theorem State.startKeygen_mem (s : State) : (s.startKeygen).mem = s.mem := rfl
@[simp] theorem State.startKeygen_host (s : State) : (s.startKeygen).host = s.host := rfl
@[simp] theorem State.startKeygen_reply (s : State) : (s.startKeygen).reply = s.reply := rfl
@[simp] theorem State.startKeygen_drawn (s : State) : (s.startKeygen).drawn = s.drawn := rfl
@[simp] theorem State.startKeygen_taken (s : State) :
    (s.startKeygen).taken = s.taken := rfl
@[simp] theorem State.startKeygen_racedSrc (s : State) :
    (s.startKeygen).racedSrc = s.racedSrc := rfl
@[simp] theorem State.startKeygen_racedDst (s : State) :
    (s.startKeygen).racedDst = s.racedDst := rfl
@[simp] theorem State.startKeygen_dirty (s : State) : (s.startKeygen).dirty = s.dirty := rfl
@[simp] theorem State.startKeygen_stale (s : State) : (s.startKeygen).stale = s.stale := rfl

/-! ### State.latchBuffer -/

@[simp] theorem State.latchBuffer_irqEn (d : Dir) (s : State) :
    (s.latchBuffer d).irqEn = s.irqEn := rfl
@[simp] theorem State.latchBuffer_status (d : Dir) (s : State) :
    (s.latchBuffer d).status = s.status := rfl
@[simp] theorem State.latchBuffer_keyLo (d : Dir) (s : State) :
    (s.latchBuffer d).keyLo = s.keyLo := rfl
@[simp] theorem State.latchBuffer_keyHi (d : Dir) (s : State) :
    (s.latchBuffer d).keyHi = s.keyHi := rfl
@[simp] theorem State.latchBuffer_dinLo (d : Dir) (s : State) :
    (s.latchBuffer d).dinLo = s.dinLo := rfl
@[simp] theorem State.latchBuffer_dinHi (d : Dir) (s : State) :
    (s.latchBuffer d).dinHi = s.dinHi := rfl
@[simp] theorem State.latchBuffer_doutLo (d : Dir) (s : State) :
    (s.latchBuffer d).doutLo = s.doutLo := rfl
@[simp] theorem State.latchBuffer_doutHi (d : Dir) (s : State) :
    (s.latchBuffer d).doutHi = s.doutHi := rfl
@[simp] theorem State.latchBuffer_src (d : Dir) (s : State) : (s.latchBuffer d).src = s.src := rfl
@[simp] theorem State.latchBuffer_dst (d : Dir) (s : State) : (s.latchBuffer d).dst = s.dst := rfl
@[simp] theorem State.latchBuffer_len (d : Dir) (s : State) : (s.latchBuffer d).len = s.len := rfl
@[simp] theorem State.latchBuffer_outlen (d : Dir) (s : State) :
    (s.latchBuffer d).outlen = s.outlen := rfl
@[simp] theorem State.latchBuffer_blkdone (d : Dir) (s : State) :
    (s.latchBuffer d).blkdone = s.blkdone := rfl
@[simp] theorem State.latchBuffer_sk (d : Dir) (s : State) : (s.latchBuffer d).sk = s.sk := rfl
@[simp] theorem State.latchBuffer_phase (d : Dir) (s : State) :
    (s.latchBuffer d).phase = s.phase := rfl
@[simp] theorem State.latchBuffer_mem (d : Dir) (s : State) : (s.latchBuffer d).mem = s.mem := rfl
@[simp] theorem State.latchBuffer_host (d : Dir) (s : State) :
    (s.latchBuffer d).host = s.host := rfl
@[simp] theorem State.latchBuffer_reply (d : Dir) (s : State) :
    (s.latchBuffer d).reply = s.reply := rfl
@[simp] theorem State.latchBuffer_drawn (d : Dir) (s : State) :
    (s.latchBuffer d).drawn = s.drawn := rfl
@[simp] theorem State.latchBuffer_taken (d : Dir) (s : State) :
    (s.latchBuffer d).taken = [] := rfl
@[simp] theorem State.latchBuffer_racedSrc (d : Dir) (s : State) :
    (s.latchBuffer d).racedSrc = [] := rfl
@[simp] theorem State.latchBuffer_racedDst (d : Dir) (s : State) :
    (s.latchBuffer d).racedDst = [] := rfl
@[simp] theorem State.latchBuffer_dirty (d : Dir) (s : State) :
    (s.latchBuffer d).dirty = s.dirty := rfl
@[simp] theorem State.latchBuffer_stale (d : Dir) (s : State) :
    (s.latchBuffer d).stale = s.stale := rfl

/-! ### State.resetEvent -/

@[simp] theorem State.resetEvent_irqEn (c : Config) (s : State) :
    (s.resetEvent c).irqEn = false := rfl
@[simp] theorem State.resetEvent_status (c : Config) (s : State) :
    (s.resetEvent c).status = Status.reset := rfl
@[simp] theorem State.resetEvent_keyLo (c : Config) (s : State) :
    (s.resetEvent c).keyLo = 0#32 := rfl
@[simp] theorem State.resetEvent_keyHi (c : Config) (s : State) :
    (s.resetEvent c).keyHi = 0#32 := rfl
@[simp] theorem State.resetEvent_dinLo (c : Config) (s : State) :
    (s.resetEvent c).dinLo = 0#32 := rfl
@[simp] theorem State.resetEvent_dinHi (c : Config) (s : State) :
    (s.resetEvent c).dinHi = 0#32 := rfl
@[simp] theorem State.resetEvent_doutLo (c : Config) (s : State) :
    (s.resetEvent c).doutLo = 0#32 := rfl
@[simp] theorem State.resetEvent_doutHi (c : Config) (s : State) :
    (s.resetEvent c).doutHi = 0#32 := rfl
@[simp] theorem State.resetEvent_src (c : Config) (s : State) : (s.resetEvent c).src = 0#32 := rfl
@[simp] theorem State.resetEvent_dst (c : Config) (s : State) : (s.resetEvent c).dst = 0#32 := rfl
@[simp] theorem State.resetEvent_len (c : Config) (s : State) : (s.resetEvent c).len = 0#32 := rfl
@[simp] theorem State.resetEvent_outlen (c : Config) (s : State) :
    (s.resetEvent c).outlen = 0#32 := rfl
@[simp] theorem State.resetEvent_blkdone (c : Config) (s : State) :
    (s.resetEvent c).blkdone = 0#32 := rfl
@[simp] theorem State.resetEvent_sk (c : Config) (s : State) :
    (s.resetEvent c).sk = freeSchedule (s.drawn + 16) := rfl
@[simp] theorem State.resetEvent_work (c : Config) (s : State) :
    (s.resetEvent c).work = freeWork (s.drawn + 32) := rfl
@[simp] theorem State.resetEvent_phase (c : Config) (s : State) :
    (s.resetEvent c).phase = .idle := rfl
@[simp] theorem State.resetEvent_mem (c : Config) (s : State) :
    (s.resetEvent c).mem = s.memAfterReset c := rfl
@[simp] theorem State.resetEvent_host (c : Config) (s : State) :
    (s.resetEvent c).host = s.host := rfl
@[simp] theorem State.resetEvent_reply (c : Config) (s : State) :
    (s.resetEvent c).reply = s.reply := rfl
@[simp] theorem State.resetEvent_drawn (c : Config) (s : State) :
    (s.resetEvent c).drawn = s.drawn + 44 := rfl
@[simp] theorem State.resetEvent_taken (c : Config) (s : State) :
    (s.resetEvent c).taken = [] := rfl
@[simp] theorem State.resetEvent_racedSrc (c : Config) (s : State) :
    (s.resetEvent c).racedSrc = [] := rfl
@[simp] theorem State.resetEvent_racedDst (c : Config) (s : State) :
    (s.resetEvent c).racedDst = [] := rfl
@[simp] theorem State.resetEvent_dirty (c : Config) (s : State) :
    (s.resetEvent c).dirty = s.dirty := rfl
@[simp] theorem State.resetEvent_stale (c : Config) (s : State) :
    (s.resetEvent c).stale = s.staleAfterReset := rfl

/-! ### Status.accept -/

@[simp] theorem Status.accept_busy (t : Status) (op : BitVec 8) : (t.accept op).busy = true := rfl
@[simp] theorem Status.accept_done (t : Status) (op : BitVec 8) : (t.accept op).done = false := rfl
@[simp] theorem Status.accept_err (t : Status) (op : BitVec 8) : (t.accept op).err = false := rfl
@[simp] theorem Status.accept_keyValid (t : Status) (op : BitVec 8) :
    (t.accept op).keyValid = t.keyValid := rfl
@[simp] theorem Status.accept_ovr (t : Status) (op : BitVec 8) : (t.accept op).ovr = t.ovr := rfl
@[simp] theorem Status.accept_errcode (t : Status) (op : BitVec 8) :
    (t.accept op).errcode = 0#4 := rfl
@[simp] theorem Status.accept_lastop (t : Status) (op : BitVec 8) : (t.accept op).lastop = op := rfl

/-! ### Status.complete -/

@[simp] theorem Status.complete_busy (t : Status) (code : ErrCode) :
    (t.complete code).busy = false := rfl
@[simp] theorem Status.complete_done (t : Status) (code : ErrCode) :
    (t.complete code).done = true := rfl
@[simp] theorem Status.complete_err (t : Status) (code : ErrCode) :
    (t.complete code).err = decide (code ≠ .none) := rfl
@[simp] theorem Status.complete_keyValid (t : Status) (code : ErrCode) :
    (t.complete code).keyValid = t.keyValid := rfl
@[simp] theorem Status.complete_ovr (t : Status) (code : ErrCode) :
    (t.complete code).ovr = t.ovr := rfl
@[simp] theorem Status.complete_errcode (t : Status) (code : ErrCode) :
    (t.complete code).errcode = code.bits := rfl
@[simp] theorem Status.complete_lastop (t : Status) (code : ErrCode) :
    (t.complete code).lastop = t.lastop := rfl

/-! ### Status.write -/

@[simp] theorem Status.write_busy (t : Status) (w : Word) : (t.write w).busy = t.busy := rfl
@[simp] theorem Status.write_done (t : Status) (w : Word) :
    (t.write w).done = (t.done && !w.getLsbD 1) := rfl
@[simp] theorem Status.write_err (t : Status) (w : Word) : (t.write w).err = t.err := rfl
@[simp] theorem Status.write_keyValid (t : Status) (w : Word) :
    (t.write w).keyValid = t.keyValid := rfl
@[simp] theorem Status.write_ovr (t : Status) (w : Word) :
    (t.write w).ovr = (t.ovr && !w.getLsbD 4) := rfl
@[simp] theorem Status.write_errcode (t : Status) (w : Word) :
    (t.write w).errcode = t.errcode := rfl
@[simp] theorem Status.write_lastop (t : Status) (w : Word) : (t.write w).lastop = t.lastop := rfl

end Sys2Proof.Machine
end

