-- ==== Sys2Proof/Laws/Ops.lean ====
section
/-! SUPPORT. For each shared operation, once, everything it can do: acceptance and the meanings' own
acceptance parts, the DMA port, and what a reset leaves in memory. -/

namespace Sys2Proof.Machine

/-! ### Acceptance -/

theorem State.issue_busy {s : State} (h : s.status.busy = true) (op : BitVec 8)
    (body : State → State) : s.issue op body = s.drop := by simp [State.issue, h]

theorem State.issue_idle {s : State} (h : s.status.busy = false) (op : BitVec 8)
    (body : State → State) : s.issue op body = body (s.accept op) := by simp [State.issue, h]

theorem State.startBlock_keyed {s : State} (h : s.status.keyValid = true) (d : Dir) :
    s.startBlock d =
      { s with
        work := { s.work with lblk := s.din, ldir := d, wl := hi s.din, wr := lo s.din, rnd := 0 }
        phase := .rounds } := by simp [State.startBlock, h]

theorem State.startBlock_noKey {s : State} (h : s.status.keyValid = false) (d : Dir) :
    s.startBlock d = s.complete .noKey := by simp [State.startBlock, h]

theorem rangeError_eq_false {src dst len : Word} :
    rangeError src dst len = false ↔
      paddedLength len.toNat ≤ 2 ^ 32 - 8 ∧ src.toNat + len.toNat ≤ 2 ^ 32
        ∧ dst.toNat + paddedLength len.toNat ≤ 2 ^ 32 := by
  simp only [rangeError, Bool.or_eq_false_iff, decide_eq_false_iff_not, not_lt, and_assoc]

theorem State.startBuffer_noKey {s : State} (h : s.status.keyValid = false) (d : Dir) :
    s.startBuffer d = State.complete .noKey { s with blkdone := 0#32, outlen := 0#32 } := by
  simp [State.startBuffer, h]

theorem State.startBuffer_range {s : State} (h : s.status.keyValid = true)
    (hr : rangeError s.src s.dst s.len = true) (d : Dir) :
    s.startBuffer d =
      State.complete .range (State.latchBuffer d { s with blkdone := 0#32, outlen := 0#32 }) := by
  simp [State.startBuffer, h, hr]

theorem State.startBuffer_empty {s : State} (h : s.status.keyValid = true)
    (hr : rangeError s.src s.dst s.len = false) (hl : s.len.toNat = 0) (d : Dir) :
    s.startBuffer d =
      State.complete .none (State.latchBuffer d { s with blkdone := 0#32, outlen := 0#32 }) := by
  simp only [State.startBuffer, h, hr, if_true, paddedLength_eq_zero.2 hl]
  rfl

theorem State.startBuffer_ok {s : State} (h : s.status.keyValid = true)
    (hr : rangeError s.src s.dst s.len = false) (hl : s.len.toNat ≠ 0) (d : Dir) :
    s.startBuffer d =
      { s with
        blkdone := 0#32
        outlen := BitVec.ofNat 32 (paddedLength s.len.toNat)
        work := { s.work with
          lsrc := s.src
          ldst := s.dst
          llen := s.len
          ldir := d
          lout := BitVec.ofNat 33 (paddedLength s.len.toNat)
          blk := 0 }
        phase := .bufRead
        taken := []
        racedSrc := []
        racedDst := [] } := by
  simp only [State.startBuffer, h, hr, if_true, paddedLength_eq_zero, if_neg hl]
  rfl

/-- Every command is a CMD write with its own opcode and its own acceptance part (60_exceptions.md rule
R200). -/
theorem exec_issue (i : Instr) :
    ∃ body, ∀ s, exec i s = .next (s.issue (opcodeOf i) body) := by
  cases i <;> exact ⟨_, fun _ => rfl⟩

/-- Every command answers a next state: the core takes no traps (60_exceptions.md rule R208). -/
theorem exec_eq_next (i : Instr) (s : State) : ∃ t, exec i s = .next t := by
  cases i <;> exact ⟨_, rfl⟩

/-! ### The DMA port -/

/-- What a DMA write can do. -/
theorem State.dmaWrite_ok {c : Config} {a : Nat} {v : Byte} {n : Nat} {s t : State}
    (h : s.dmaWrite c a v n = .ok t) :
    a < 2 ^ 32 ∧ c.memOk (BitVec.ofNat 32 a) .write = true
      ∧ t = { s with
          mem := if s.racedDst.contains a && !freeBit n then s.mem else Memory.write s.mem a v
          stale := s.stale.insert a } := by
  unfold State.dmaWrite at h
  split at h
  · split at h
    · rename_i ha hm
      exact ⟨ha, hm, (Except.ok.inj h).symm⟩
    · exact nomatch h
  · exact nomatch h

theorem State.dmaWrite_busErr {c : Config} {a : Nat} {v : Byte} {n : Nat} {s : State}
    (h : s.dmaWrite c a v n = .error .busErr) :
    a < 2 ^ 32 ∧ c.memOk (BitVec.ofNat 32 a) .write = false := by
  unfold State.dmaWrite at h
  split at h
  · split at h
    · exact nomatch h
    · rename_i ha hm
      exact ⟨ha, by simpa using hm⟩
  · exact nomatch h

theorem State.dmaWrite_outside {c : Config} {a : Nat} {v : Byte} {n : Nat} {s : State}
    (h : s.dmaWrite c a v n = .error .outside) : 2 ^ 32 ≤ a := by
  unfold State.dmaWrite at h
  split at h
  · split at h
    · exact nomatch h
    · exact absurd h (by simp)
  · omega

/-- A DMA write the platform answers. -/
theorem State.dmaWrite_of_ok {c : Config} {a : Nat} (ha : a < 2 ^ 32)
    (hm : c.memOk (BitVec.ofNat 32 a) .write = true) (v : Byte) (n : Nat) (s : State) :
    s.dmaWrite c a v n = .ok { s with
      mem := if s.racedDst.contains a && !freeBit n then s.mem else Memory.write s.mem a v
      stale := s.stale.insert a } := by
  unfold State.dmaWrite
  rw [if_pos ha, if_pos hm]

theorem State.dmaRead_outside {c : Config} {s : State} {a n : Nat}
    (h : s.dmaRead c a n = .error .outside) : 2 ^ 32 ≤ a := by
  unfold State.dmaRead at h
  split at h
  · split at h
    · exact nomatch h
    · exact absurd h (by simp)
  · omega

/-- A DMA read the platform answers, of a byte that no one raced for and no cache holds back. -/
theorem State.dmaRead_of_ok {c : Config} {s : State} {a : Nat} (ha : a < 2 ^ 32)
    (hm : c.memOk (BitVec.ofNat 32 a) .read = true) (hr : s.racedSrc.contains a = false)
    (hd : c.coherent = true ∨ s.dirty.contains a = false) (n : Nat) :
    s.dmaRead c a n = .ok (Memory.read s.mem a) := by
  have hc : (s.dirty.contains a && !c.coherent) = false := by
    rcases hd with h | h
    · simp [h]
    · rw [h, Bool.false_and]
  unfold State.dmaRead
  rw [if_pos ha, if_pos hm, State.dmaByte, hr, hc]
  rfl

/-- A block whose eight bytes all read is made of them (20_memory.md rule R61). -/
theorem State.readBlock_of_ok {c : Config} {s : State} {f : Nat → Byte}
    (h : ∀ j, j < 8 → s.sourceByte c j = .ok (f j)) : s.readBlock c = .ok (ofBytes f) := by
  simp only [State.readBlock, h 0 (by omega), h 1 (by omega), h 2 (by omega), h 3 (by omega),
    h 4 (by omega), h 5 (by omega), h 6 (by omega), h 7 (by omega)]
  rfl

/-- A block read fails only where one of its bytes does. -/
theorem State.readBlock_error {c : Config} {s : State} {e : DmaFail}
    (h : s.readBlock c = .error e) : ∃ j, j < 8 ∧ s.sourceByte c j = .error e := by
  by_contra hne
  have hb : ∀ j, j < 8 → s.sourceByte c j ≠ .error e := fun j hj hs => hne ⟨j, hj, hs⟩
  have step : ∀ {j : Nat}, j < 8 → ∀ {k : Byte → Except DmaFail Block},
      (s.sourceByte c j >>= k) = .error e → ∃ b, k b = .error e := fun {j} hj {k} hk => by
    cases hs : s.sourceByte c j with
    | error e' =>
      rw [hs] at hk
      cases hk
      exact absurd hs (hb j hj)
    | ok b =>
      rw [hs] at hk
      exact ⟨b, hk⟩
  unfold State.readBlock at h
  obtain ⟨b0, h⟩ := step (by omega) h
  obtain ⟨b1, h⟩ := step (by omega) h
  obtain ⟨b2, h⟩ := step (by omega) h
  obtain ⟨b3, h⟩ := step (by omega) h
  obtain ⟨b4, h⟩ := step (by omega) h
  obtain ⟨b5, h⟩ := step (by omega) h
  obtain ⟨b6, h⟩ := step (by omega) h
  obtain ⟨b7, h⟩ := step (by omega) h
  exact nomatch h

theorem State.sourceByte_outside {c : Config} {s : State} {j : Nat}
    (h : s.sourceByte c j = .error .outside) :
    8 * s.work.blk + j < s.work.llen.toNat ∧ 2 ^ 32 ≤ byteAddr s.work.lsrc s.work.blk j := by
  unfold State.sourceByte at h
  split at h
  · rename_i hj
    exact ⟨hj, State.dmaRead_outside h⟩
  · exact nomatch h

/-- Writing bytes of a block touches memory and the set of stale bytes alone. -/
theorem State.writeBytes_frame {c : Config} {o : Block} {js : List Nat} {s t : State}
    {r : Option DmaFail} (h : State.writeBytes c o js s = (t, r)) :
    t = { s with mem := t.mem, stale := t.stale } := by
  induction js generalizing s with
  | nil => cases h; rfl
  | cons j js ih =>
    unfold State.writeBytes at h
    split at h
    · rename_i s' hs'
      have hf := (State.dmaWrite_ok hs').2.2
      rw [ih h, hf]
    · cases h; rfl

/-- Writing the bytes `js` changes no other byte of memory. -/
theorem State.writeBytes_read_other {c : Config} {o : Block} {js : List Nat} {s t : State}
    {r : Option DmaFail} (hm : Memory.wf s.mem) (h : State.writeBytes c o js s = (t, r)) {a : Nat}
    (ha : ∀ j ∈ js, a ≠ byteAddr s.work.ldst s.work.blk j) :
    Memory.read t.mem a = Memory.read s.mem a := by
  induction js generalizing s with
  | nil => cases h; rfl
  | cons j js ih =>
    unfold State.writeBytes at h
    split at h
    · rename_i s' hs'
      obtain ⟨hlt, -, hf⟩ := State.dmaWrite_ok hs'
      subst hf
      have hm' : Memory.wf (if s.racedDst.contains (byteAddr s.work.ldst s.work.blk j)
          && !freeBit (s.drawn + j) then s.mem
          else Memory.write s.mem (byteAddr s.work.ldst s.work.blk j) (blockByte o j)) := by
        split
        · exact hm
        · exact Memory.wf_write hm hlt _
      rw [ih hm' h fun k hk => ha k (by simp [hk])]
      show Memory.read (if _ then _ else _) a = _
      split
      · rfl
      · rw [Memory.read_write hm.1, if_neg (ha j (by simp))]
    · cases h; rfl

/-- Writing the bytes `js` of a block that the platform answers, none of them raced for, in front of the
rest: they hold the block's bytes and no other byte changes. -/
theorem State.writeBytes_of_ok {c : Config} (o : Block) (js rest : List Nat) {s : State}
    (hm : Memory.wf s.mem) (hnd : js.Nodup)
    (hr : ∀ j ∈ js, s.racedDst.contains (byteAddr s.work.ldst s.work.blk j) = false)
    (h : ∀ j ∈ js, byteAddr s.work.ldst s.work.blk j < 2 ^ 32
      ∧ c.memOk (BitVec.ofNat 32 (byteAddr s.work.ldst s.work.blk j)) .write = true) :
    ∃ u, State.writeBytes c o (js ++ rest) s = State.writeBytes c o rest u
      ∧ u = { s with mem := u.mem, stale := u.stale } ∧ Memory.wf u.mem
      ∧ (∀ j ∈ js, Memory.read u.mem (byteAddr s.work.ldst s.work.blk j) = blockByte o j)
      ∧ (∀ a, (∀ j ∈ js, a ≠ byteAddr s.work.ldst s.work.blk j) →
          Memory.read u.mem a = Memory.read s.mem a) := by
  induction js generalizing s with
  | nil => exact ⟨s, rfl, rfl, hm, by simp, by simp⟩
  | cons j js ih =>
    obtain ⟨hlt, hok⟩ := h j (by simp)
    have hd := State.dmaWrite_of_ok hlt hok (blockByte o j) (s.drawn + j) s
    rw [hr j (by simp)] at hd
    simp only [Bool.false_and, Bool.false_eq_true, if_false] at hd
    obtain ⟨hj, hnd⟩ := List.nodup_cons.1 hnd
    obtain ⟨u, h1, h2, h3, h4, h5⟩ := ih
      (s := { s with
        mem := Memory.write s.mem (byteAddr s.work.ldst s.work.blk j) (blockByte o j)
        stale := s.stale.insert (byteAddr s.work.ldst s.work.blk j) })
      (Memory.wf_write hm hlt _) hnd (fun k hk => hr k (by simp [hk])) fun k hk => h k (by simp [hk])
    refine ⟨u, ?_, h2, h3, fun k hk => ?_, fun a ha => ?_⟩
    · rw [← h1, List.cons_append, State.writeBytes, hd]
    · rcases List.mem_cons.1 hk with rfl | hk
      · rw [h5 _ fun i hi heq => hj (by
          change byteAddr s.work.ldst s.work.blk k = byteAddr s.work.ldst s.work.blk i at heq
          unfold byteAddr at heq
          exact (by omega : k = i) ▸ hi)]
        show Memory.read (Memory.write _ _ _) _ = _
        rw [Memory.read_write hm.1, if_pos rfl]
      · exact h4 k hk
    · rw [h5 a fun i hi => ha i (by simp [hi])]
      show Memory.read (Memory.write _ _ _) _ = _
      rw [Memory.read_write hm.1, if_neg (ha j (by simp))]

/-- Writing bytes keeps the canonical form. -/
theorem State.writeBytes_wf {c : Config} {o : Block} {js : List Nat} {s t : State}
    {r : Option DmaFail} (hm : Memory.wf s.mem) (h : State.writeBytes c o js s = (t, r)) :
    Memory.wf t.mem := by
  induction js generalizing s with
  | nil => cases h; exact hm
  | cons j js ih =>
    unfold State.writeBytes at h
    split at h
    · rename_i s' hs'
      obtain ⟨hlt, -, hf⟩ := State.dmaWrite_ok hs'
      subst hf
      refine ih ?_ h
      show Memory.wf (if _ then _ else _)
      split
      · exact hm
      · exact Memory.wf_write hm hlt _
    · cases h; exact hm

/-- Writing bytes fails only where one of the writes does. -/
theorem State.writeBytes_fail {c : Config} {o : Block} {js : List Nat} {s t : State} {e : DmaFail}
    (h : State.writeBytes c o js s = (t, some e)) :
    ∃ j ∈ js, ∃ u : State, u.dmaWrite c (byteAddr s.work.ldst s.work.blk j) (blockByte o j)
      (s.drawn + j) = .error e := by
  induction js generalizing s with
  | nil => exact nomatch h
  | cons j js ih =>
    unfold State.writeBytes at h
    split at h
    · rename_i s' hs'
      obtain ⟨-, -, hf⟩ := State.dmaWrite_ok hs'
      subst hf
      obtain ⟨k, hk, u, hu⟩ := ih h
      exact ⟨k, by simp [hk], u, hu⟩
    · rename_i e' he'
      cases h
      exact ⟨j, by simp, _, he'⟩

/-- A reset in the middle of a block keeps the canonical form. -/
theorem State.cutOff_wf {c : Config} {o : Block} {s : State} {js : List Nat} {m : Memory}
    (hm : Memory.wf m) : Memory.wf (s.cutOff c o js m) := by
  induction js generalizing m with
  | nil => exact hm
  | cons j js ih =>
    unfold State.cutOff
    split
    · rename_i h
      refine ih ?_
      split
      · exact Memory.wf_write hm h.1 _
      · exact hm
    · exact hm

theorem State.memAfterReset_wf {c : Config} {s : State} (hm : Memory.wf s.mem) :
    Memory.wf (s.memAfterReset c) := by
  unfold State.memAfterReset
  split
  · exact State.cutOff_wf hm
  · exact hm

/-! ### Races -/

/-- Taking a block anew touches the record, the working halves, memory, the stale bytes and the counter of
open values alone. -/
theorem State.retake_frame (c : Config) (k : Nat) (v : Block) (s : State) :
    s.retake c k v = { s with
      taken := s.taken.set k v
      work := { s.work with wl := (s.retake c k v).work.wl, wr := (s.retake c k v).work.wr }
      mem := (s.retake c k v).mem
      stale := (s.retake c k v).stale
      drawn := (s.retake c k v).drawn } := by
  unfold State.retake
  dsimp only
  split <;> rfl

/-- The block in progress taken anew: the working halves follow. -/
theorem State.retake_current {c : Config} {k : Nat} {s : State} (h : k = s.work.blk) (v : Block) :
    s.retake c k v = { s with
      taken := s.taken.set k v
      work := { s.work with
        wl := (roundsFrom c s.sk s.work.ldir s.roundsDone 0 (split v)).1
        wr := (roundsFrom c s.sk s.work.ldir s.roundsDone 0 (split v)).2 } } := by
  simp only [State.retake, if_pos h]

/-- An earlier block taken anew: its output block is written again. -/
theorem State.retake_written {c : Config} {k : Nat} {s : State} (h : k ≠ s.work.blk) (v : Block) :
    ∃ u r, State.writeBytes c (crypt c s.sk s.work.ldir v) byteOrder
        { s with taken := s.taken.set k v, work := { s.work with blk := k } } = (u, r)
      ∧ s.retake c k v = { s with
          taken := s.taken.set k v, mem := u.mem, stale := u.stale, drawn := s.drawn + 8 } := by
  obtain ⟨⟨u, r⟩, hu⟩ : ∃ p, State.writeBytes c (crypt c s.sk s.work.ldir v) byteOrder
    { s with taken := s.taken.set k v, work := { s.work with blk := k } } = p := ⟨_, rfl⟩
  exact ⟨u, r, hu, by simp only [State.retake, if_neg h, hu]⟩

theorem State.retake_wf {c : Config} {k : Nat} {v : Block} {s : State} (hm : Memory.wf s.mem) :
    Memory.wf (s.retake c k v).mem := by
  by_cases h : k = s.work.blk
  · rw [State.retake_current h]
    exact hm
  · obtain ⟨u, r, hu, he⟩ := State.retake_written (c := c) h v
    have := State.writeBytes_wf
      (s := { s with taken := s.taken.set k v, work := { s.work with blk := k } }) hm hu
    rw [he]
    exact this

/-- What holds of a state, and of every state in which a block is taken anew, holds after the readers of
the changed blocks are. -/
theorem State.retakeReaders_induct {c : Config} {P : State → Prop}
    (step : ∀ (k : Nat) (v : Block) (s : State) (d : Nat), k < s.taken.length → P s →
      P (State.retake c k v { s with drawn := d }))
    (n m : Nat) (ks : List Nat) (s : State) (hn : m + n ≤ s.taken.length) (h : P s) :
    P (s.retakeReaders c n m ks) := by
  induction n generalizing m ks s with
  | zero => exact h
  | succ n ih =>
    unfold State.retakeReaders
    dsimp only
    split
    · refine ih _ _ _ ?_ (step _ _ _ _ (by omega) h)
      rw [State.retake_frame]
      show m + 1 + n ≤ (s.taken.set m _).length
      rw [List.length_set]
      omega
    · exact ih _ _ _ (by omega) h

/-- The same for a source byte read again. -/
theorem State.redraw_induct {c : Config} {P : State → Prop}
    (step : ∀ (k : Nat) (v : Block) (s : State) (d : Nat), k < s.taken.length → P s →
      P (State.retake c k v { s with drawn := d }))
    (n : Nat) (s : State) (h : P s) : P (s.redraw c n) := by
  unfold State.redraw
  dsimp only
  split
  · rename_i hc
    simp only [Bool.and_eq_true, decide_eq_true_eq] at hc
    refine State.retakeReaders_induct step _ _ _ _ ?_ (step _ _ _ _ hc.2 h)
    rw [State.retake_frame]
    show _ ≤ (s.taken.set _ _).length
    rw [List.length_set]
    omega
  · exact h

/-- A redraw touches what taking a block anew touches. -/
theorem State.redraw_frame (c : Config) (n : Nat) (s : State) :
    s.redraw c n = { s with
      taken := (s.redraw c n).taken
      work := { s.work with wl := (s.redraw c n).work.wl, wr := (s.redraw c n).work.wr }
      mem := (s.redraw c n).mem
      stale := (s.redraw c n).stale
      drawn := (s.redraw c n).drawn } :=
  State.redraw_induct (c := c)
    (P := fun t => t = { s with
      taken := t.taken
      work := { s.work with wl := t.work.wl, wr := t.work.wr }
      mem := t.mem
      stale := t.stale
      drawn := t.drawn })
    (fun k v t d _ h => by
      rw [State.retake_frame, h]) n s rfl

theorem State.redraw_wf {c : Config} {n : Nat} {s : State} (hm : Memory.wf s.mem) :
    Memory.wf (s.redraw c n).mem :=
  State.redraw_induct (c := c) (P := fun t => Memory.wf t.mem)
    (fun _ _ _ _ _ h => State.retake_wf h) n s hm

/-- Where no write is performed, or no buffer command runs, nothing is raced for. -/
theorem State.markRace_quiet {c : Config} {b : Bool} {s : State} (h : (b && s.phase.isBuffer) = false)
    (n : Nat) : s.markRace c b n = s := by
  unfold State.markRace
  dsimp only
  rw [h]
  rfl

/-- A race redraws the state with the marks set. -/
theorem State.markRace_races {c : Config} {b : Bool} {s : State} (h : (b && s.phase.isBuffer) = true)
    (n : Nat) : s.markRace c b n = State.redraw c n { s with
      racedSrc := if s.work.inSource n then s.racedSrc.insert n else s.racedSrc
      racedDst := if s.work.inDestination n then s.racedDst.insert n else s.racedDst } := by
  unfold State.markRace
  dsimp only
  simp only [h, if_true, Bool.true_and]
  conv_rhs => rw [State.redraw_frame]

theorem State.markRace_wf {c : Config} {b : Bool} {n : Nat} {s : State} (hm : Memory.wf s.mem) :
    Memory.wf (s.markRace c b n).mem := by
  cases h : b && s.phase.isBuffer
  · rw [State.markRace_quiet h]
    exact hm
  · rw [State.markRace_races h]
    exact State.redraw_wf hm

theorem State.landWrite_wf {s : State} (hm : Memory.wf s.mem) (c : Config) (a : Addr) (v : Byte) :
    Memory.wf (s.landWrite c a v).mem := by
  unfold State.landWrite
  dsimp only
  split
  · exact State.markRace_wf (s := { s with drawn := s.drawn + 1 }) hm
  · exact Memory.wf_write (State.markRace_wf (s := { s with drawn := s.drawn + 1 }) hm) a.isLt v

theorem State.memWrite_wf {s : State} (hm : Memory.wf s.mem) (c : Config) (a : Addr) (v : Byte) :
    Memory.wf (s.memWrite c a v).mem := State.landWrite_wf hm c a v

theorem State.masterWrite_wf {s : State} (hm : Memory.wf s.mem) (c : Config) (a : Addr) (v : Byte) :
    Memory.wf (s.masterWrite c a v).mem := State.landWrite_wf hm c a v

theorem State.clean_wf {s : State} (hm : Memory.wf s.mem) (c : Config) (a : Addr) :
    Memory.wf (s.clean c a).mem := by
  unfold State.clean
  dsimp only
  split
  · exact Memory.wf_write (State.markRace_wf (s := { s with drawn := s.drawn + 1 }) hm) a.isLt _
  · exact State.markRace_wf (s := { s with drawn := s.drawn + 1 }) hm

theorem State.invalidate_wf {s : State} (hm : Memory.wf s.mem) (c : Config) (a : Addr) :
    Memory.wf (s.invalidate c a).mem := by
  unfold State.invalidate
  dsimp only
  split
  · exact Memory.wf_write (State.markRace_wf (s := { s with drawn := s.drawn + 1 }) hm) a.isLt _
  · exact State.markRace_wf (s := { s with drawn := s.drawn + 1 }) hm

end Sys2Proof.Machine
end

