-- ==== Sys2Proof/Laws/Steps.lean ====
section
/-! SUPPORT. What a step can do: the core's step by phase, and the machine's step by the next outstanding
event. -/

namespace Sys2Proof.Machine

/-! ### The core's step -/

theorem coreStep_idle {c : Config} {s : State} (h : s.phase = .idle) : coreStep c s = .next s := by
  simp [coreStep, h]

theorem coreStep_keygen {c : Config} {s : State} (h : s.phase = .keygen) :
    coreStep c s = .next (keygenStep c s) := by simp [coreStep, h]

theorem coreStep_rounds {c : Config} {s : State} (h : s.phase = .rounds) :
    coreStep c s = .next (roundsStep c s) := by simp [coreStep, h]

theorem coreStep_bufRead {c : Config} {s : State} (h : s.phase = .bufRead) :
    coreStep c s = bufReadStep c s := by simp [coreStep, h]

theorem coreStep_bufRounds {c : Config} {s : State} (h : s.phase = .bufRounds) :
    coreStep c s = .next (bufRoundsStep c s) := by simp [coreStep, h]

theorem coreStep_bufWrite {c : Config} {s : State} (h : s.phase = .bufWrite) :
    coreStep c s = bufWriteStep c s := by simp [coreStep, h]

theorem roundsStep_last {c : Config} {s : State} (h : s.work.rnd = 15) :
    roundsStep c s =
      State.complete .none (State.setDout (merge (s.roundOnce c))
        { s with work := { s.work with wl := (s.roundOnce c).1, wr := (s.roundOnce c).2 } }) := by
  simp [roundsStep, h]

theorem roundsStep_more {c : Config} {s : State} (h : s.work.rnd ≠ 15) :
    roundsStep c s =
      { s with work := { s.work with
          wl := (s.roundOnce c).1, wr := (s.roundOnce c).2, rnd := s.work.rnd + 1 } } := by
  simp [roundsStep, h]

theorem bufRoundsStep_last {c : Config} {s : State} (h : s.work.rnd = 15) :
    bufRoundsStep c s =
      { s with
        work := { s.work with wl := (s.roundOnce c).1, wr := (s.roundOnce c).2 }
        phase := .bufWrite } := by
  simp [bufRoundsStep, h]

theorem bufRoundsStep_more {c : Config} {s : State} (h : s.work.rnd ≠ 15) :
    bufRoundsStep c s =
      { s with work := { s.work with
          wl := (s.roundOnce c).1, wr := (s.roundOnce c).2, rnd := s.work.rnd + 1 } } := by
  simp [bufRoundsStep, h]

/-- The ways a BUF_READ step can go. -/
theorem bufReadStep_cases {c : Config} {s t : State} (h : bufReadStep c s = .next t) :
    (∃ v, s.readBlock c = .ok v ∧ t = { s with
        work := { s.work with wl := hi v, wr := lo v, rnd := 0 }
        phase := .bufRounds
        taken := s.taken ++ [v]
        drawn := s.drawn + 8 })
      ∨ (s.readBlock c = .error .busErr
        ∧ t = State.complete .bus { s with drawn := s.drawn + 8 }) := by
  unfold bufReadStep at h
  split at h
  · rename_i v hv
    exact .inl ⟨v, hv, (Host.Outcome.next.inj h).symm⟩
  · rename_i hv
    exact .inr ⟨hv, (Host.Outcome.next.inj h).symm⟩
  · exact nomatch h

/-- The ways a BUF_WRITE step can go. -/
theorem bufWriteStep_cases {c : Config} {s t : State} (h : bufWriteStep c s = .next t) :
    ∃ u, (State.writeBytes c (merge (s.work.wl, s.work.wr)) byteOrder s = (u, none)
        ∧ t = State.blockWritten { u with drawn := u.drawn + 8 })
      ∨ (State.writeBytes c (merge (s.work.wl, s.work.wr)) byteOrder s = (u, some .busErr)
        ∧ t = State.complete .bus { u with drawn := u.drawn + 8 }) := by
  unfold bufWriteStep at h
  split at h
  · rename_i u hu
    exact ⟨u, .inl ⟨hu, (Host.Outcome.next.inj h).symm⟩⟩
  · rename_i u hu
    exact ⟨u, .inr ⟨hu, (Host.Outcome.next.inj h).symm⟩⟩
  · exact nomatch h

theorem State.blockWritten_last {s : State} (h : s.work.blk + 1 = s.work.lout.toNat / 8) :
    s.blockWritten = State.complete .none
      { s with blkdone := s.blkdone + 1#32, work := { s.work with blk := s.work.blk + 1 } } := by
  simp [State.blockWritten, h]

theorem State.blockWritten_more {s : State} (h : s.work.blk + 1 ≠ s.work.lout.toNat / 8) :
    s.blockWritten =
      { s with
        blkdone := s.blkdone + 1#32
        work := { s.work with blk := s.work.blk + 1 }
        phase := .bufRead } := by
  simp [State.blockWritten, h]

/-- The end of a block's writing touches BLKDONE, BLK, PHASE and the completion's fields alone. -/
theorem State.blockWritten_frame (s : State) :
    s.blockWritten.mem = s.mem ∧ s.blockWritten.sk = s.sk
      ∧ s.blockWritten.status.keyValid = s.status.keyValid
      ∧ s.blockWritten.status.lastop = s.status.lastop ∧ s.blockWritten.status.ovr = s.status.ovr
      ∧ s.blockWritten.doutLo = s.doutLo ∧ s.blockWritten.doutHi = s.doutHi
      ∧ s.blockWritten.outlen = s.outlen ∧ s.blockWritten.host = s.host
      ∧ s.blockWritten.reply = s.reply ∧ s.blockWritten.dirty = s.dirty
      ∧ s.blockWritten.stale = s.stale := by
  unfold State.blockWritten
  dsimp only
  split <;> simp

@[simp] theorem coreSteps_zero (c : Config) (s : State) : coreSteps c 0 s = .next s := rfl

theorem coreSteps_succ {c : Config} {s t : State} (h : coreStep c s = .next t) (n : Nat) :
    coreSteps c (n + 1) s = coreSteps c n t := by simp [coreSteps, h]

/-- Core steps split anywhere. -/
theorem coreSteps_add {c : Config} {s t : State} {m : Nat} (h : coreSteps c m s = .next t) (n : Nat) :
    coreSteps c (m + n) s = coreSteps c n t := by
  induction m generalizing s with
  | zero =>
    cases h
    rw [Nat.zero_add]
  | succ m ih =>
    rw [show m + 1 + n = (m + n) + 1 by omega]
    cases hs : coreStep c s with
    | next u =>
      rw [coreSteps_succ hs] at h ⊢
      exact ih h
    | fault r => simp [coreSteps, hs] at h
    | refused r => simp [coreSteps, hs] at h

/-! ### The machine's step -/

theorem stepWith_nil {c : Config} {s : State} (h : s.host = []) : stepWith c s = coreStep c s := by
  simp [stepWith, h]

theorem stepWith_cons {c : Config} {s : State} {e : Event} {rest : List Event}
    (h : s.host = e :: rest) : stepWith c s = eventStep c e { s with host := rest } := by
  simp [stepWith, h]

/-- The ways a register write can go. -/
theorem busWrite_cases {offset : BitVec 8} {size : Nat} {w : Word} {s t : State}
    (h : busWrite offset size w s = .next t) :
    size = 4 ∧ offset.toNat % 4 = 0
      ∧ ((regAt offset = .cmd ∧ command w s = .next t)
        ∨ (regAt offset ≠ .cmd ∧ t = s.writeReg (regAt offset) w)) := by
  unfold busWrite at h
  split at h
  · split at h
    · rename_i hs ho
      refine ⟨hs, ho, ?_⟩
      split at h
      · rename_i hr
        exact .inl ⟨hr, h⟩
      · rename_i hr
        exact .inr ⟨hr, (Host.Outcome.next.inj h).symm⟩
    · exact nomatch h
  · exact nomatch h

/-- The ways a register read can go. -/
theorem busRead_cases {offset : BitVec 8} {size : Nat} {s t : State}
    (h : busRead offset size s = .next t) :
    size = 4 ∧ offset.toNat % 4 = 0 ∧ t = { s with reply := .word (s.readReg (regAt offset)) } := by
  unfold busRead at h
  split at h
  · split at h
    · rename_i hs ho
      exact ⟨hs, ho, (Host.Outcome.next.inj h).symm⟩
    · exact nomatch h
  · exact nomatch h

/-- The ways one read of a poll can go. -/
theorem pollOnce_cases {c : Config} {offset : BitVec 8} {mask value : Word} {s t : State}
    (h : pollOnce c offset mask value s = .next t) :
    offset.toNat % 4 = 0
      ∧ ((s.readReg (regAt offset) &&& mask = value
          ∧ t = { s with reply := .word (s.readReg (regAt offset)) })
        ∨ (s.readReg (regAt offset) &&& mask ≠ value
          ∧ coreStep c { s with
              host := .poll offset mask value :: s.host
              reply := .word (s.readReg (regAt offset)) } = .next t)) := by
  unfold pollOnce at h
  split at h
  · rename_i ho
    refine ⟨ho, ?_⟩
    dsimp only at h
    split at h
    · rename_i hd
      exact .inl ⟨hd, (Host.Outcome.next.inj h).symm⟩
    · rename_i hd
      exact .inr ⟨hd, h⟩
  · exact nomatch h

/-- What a register write leaves alone, whatever the register: the core, memory and the schedule of
events. -/
theorem State.writeReg_frame (s : State) (r : Reg) (w : Word) :
    (s.writeReg r w).sk = s.sk ∧ (s.writeReg r w).work = s.work ∧ (s.writeReg r w).phase = s.phase
      ∧ (s.writeReg r w).mem = s.mem ∧ (s.writeReg r w).host = s.host
      ∧ (s.writeReg r w).reply = s.reply ∧ (s.writeReg r w).drawn = s.drawn
      ∧ (s.writeReg r w).doutLo = s.doutLo ∧ (s.writeReg r w).doutHi = s.doutHi
      ∧ (s.writeReg r w).outlen = s.outlen ∧ (s.writeReg r w).blkdone = s.blkdone
      ∧ (s.writeReg r w).status.keyValid = s.status.keyValid := by
  cases r <;> simp [State.writeReg, Status.write]

/-- A register's value does not depend on the outstanding events or on the last reply. -/
@[simp] theorem State.readReg_host (s : State) (h : List Event) (q : Reply) (r : Reg) :
    State.readReg { s with host := h, reply := q } r = s.readReg r := by
  cases r <;> rfl

/-- The next outstanding event is a write to CMD. -/
theorem stepWith_cmd {c : Config} {s : State} {w : Word} {rest : List Event}
    (h : s.host = .wr 0x08#8 4 w :: rest) : stepWith c s = command w { s with host := rest } := by
  rw [stepWith_cons h]
  rfl

end Sys2Proof.Machine
end

