-- ==== Sys2Proof/Laws/Inv.lean ====
section
/-! SUPPORT. The laws of the invariant that every event uses: it rests on few fields, and any completion
in a state with an honest schedule re-establishes it. -/

namespace Sys2Proof.Machine

/-- The invariant but for the record of a running buffer command rests on few fields, of the internal
state not on the working halves unless a block command runs. -/
theorem State.Inv.congr_of_record {c : Config} {s t : State} (h : s.Inv c) (hs : t.status = s.status)
    (hp : t.phase = s.phase) (hk : t.sk = s.sk)
    (hw : t.work = { s.work with wl := t.work.wl, wr := t.work.wr })
    (hh : s.phase = .rounds → t.work = s.work) (hb : t.blkdone = s.blkdone)
    (ho : t.outlen = s.outlen) (hr : s.phase.isBuffer = true → t.TakenOk c) (hm : Memory.wf t.mem) :
    t.Inv c := by
  obtain ⟨h1, h2, h3, h4, h5, h6, h7, h8, h9, h10, -, h11, h12, -⟩ := h
  refine ⟨hs ▸ hp ▸ h1, hs ▸ h2, hs ▸ h3, hs ▸ h4, hs ▸ hk ▸ h5, hs ▸ hp ▸ h6, ?_, ?_, fun hph => ?_,
    fun hph => ?_, fun hph => hr (hp ▸ hph), ?_, ?_, hm⟩
  · rw [hw, hp]
    exact h7
  · rw [hw, hs]
    exact h8
  · rw [hh (hp ▸ hph), hk]
    exact h9 (hp ▸ hph)
  · obtain ⟨b1, b2, b3, b4, b5, b6⟩ := h10 (hp ▸ hph)
    constructor <;> (try rw [hb]) <;> (try rw [ho]) <;> rw [hw] <;> assumption
  · rw [hw]
    exact h11
  · rw [hw]
    exact h12

/-- The invariant rests on STATUS, PHASE, SK, the internal state, BLKDONE, OUTLEN, the record of the
running command with its races, and memory alone. -/
theorem State.Inv.congr {c : Config} {s t : State} (h : s.Inv c) (hs : t.status = s.status)
    (hp : t.phase = s.phase) (hk : t.sk = s.sk) (hw : t.work = s.work) (hb : t.blkdone = s.blkdone)
    (ho : t.outlen = s.outlen) (ht : t.taken = s.taken) (hd : t.racedDst = s.racedDst)
    (hm : t.mem = s.mem) : t.Inv c := by
  refine h.congr_of_record hs hp hk (by rw [hw]) (fun _ => hw) hb ho (fun hph => ?_)
    (hm.symm ▸ h.memory)
  have he : t.roundsDone = s.roundsDone := by unfold State.roundsDone; rw [hp, hw]
  obtain ⟨h1, h2, h3, h4⟩ := h.record hph
  refine ⟨?_, ?_, ?_, ?_⟩
  · rw [ht, hw, hp]
    exact h1
  · rw [ht, hw, hp, hk, he]
    exact h2
  · rw [hw]
    exact h3
  · rw [hw, hd, hm, hk, ht]
    exact h4

/-- The free internal state keeps the ranges of 10_state.md rules R43 and R44. -/
theorem freeWork_ranges (n : Nat) : (freeWork n).blk ≤ 2 ^ 29 ∧ (freeWork n).lout.toNat ≤ 2 ^ 32 := by
  constructor
  · show (Config.free 30 _).toNat % (2 ^ 29 + 1) ≤ 2 ^ 29
    omega
  · show (BitVec.ofNat 33 ((Config.free 33 _).toNat % (2 ^ 32 + 1))).toNat ≤ 2 ^ 32
    rw [BitVec.toNat_ofNat]
    have := Nat.mod_lt (Config.free 33 (n + 8)).toNat (by omega : 2 ^ 32 + 1 > 0)
    have := Nat.mod_le ((Config.free 33 (n + 8)).toNat % (2 ^ 32 + 1)) (2 ^ 33)
    omega

/-- A completion re-establishes the invariant wherever SK holds what KEY_VALID says and memory is in its
canonical form. -/
theorem State.Inv.complete {c : Config} {s : State} (code : ErrCode)
    (hk : s.status.keyValid = true → ∃ k, s.sk = sched c k) (hm : Memory.wf s.mem) :
    (s.complete code).Inv c where
  busyPhase := by simp
  busyQuiet := by simp
  errCode := by
    show decide (code ≠ .none) = true ↔ code.bits ≠ 0#4
    cases code <;> decide
  codeRange := by
    show code.bits.toNat ≤ 4
    cases code <;> decide
  schedule := hk
  keyed h := by rcases h with h | h <;> exact nomatch h
  opcode := trivial
  lastop h := nomatch h
  progress h := nomatch h
  buffer h := nomatch h
  record h := nomatch h
  blkRange := (freeWork_ranges s.drawn).1
  loutRange := (freeWork_ranges s.drawn).2
  memory := hm

end Sys2Proof.Machine
end

