-- ==== Sys2Proof/Laws/PerInstr.lean ====
section
/-! SUPPORT. Statements for all commands, made per command (LAWS.json): the word a command encodes to is
decoded to it (30_encoding.md rule R83). -/

namespace Sys2Proof.Laws.RoundTrip

/-- The word of `i` has `RSV` = 0 and the decoder reads `i` from it (30_encoding.md rules R81 and R83). -/
def Statement (i : Instr) : Prop :=
  i.wf = true ∧ rsvField (encode i) = 0#24 ∧ decode (encode i) = .ok i

theorem setkey : Statement .setkey := by unfold Statement; decide

theorem encb : Statement .encb := by unfold Statement; decide

theorem decb : Statement .decb := by unfold Statement; decide

theorem encbuf : Statement .encbuf := by unfold Statement; decide

theorem decbuf : Statement .decbuf := by unfold Statement; decide

end Sys2Proof.Laws.RoundTrip
end

