-- ==== Sys2Proof/Laws/Race.lean ====
section
/-! SUPPORT. What a race with a running buffer command can do (20_memory.md rule R72): the record of the
input blocks and what was computed from them stay in agreement. -/

namespace Sys2Proof.Machine

/-- Writing bytes of a block: each holds what it held before or the block's byte, and the block's byte
where the platform answers all of them and no other master has written it. -/
theorem State.writeBytes_read {c : Config} {o : Block} {js : List Nat} {s t : State}
    {r : Option DmaFail} (hm : Memory.wf s.mem) (hnd : js.Nodup)
    (h : State.writeBytes c o js s = (t, r)) {j : Nat} (hj : j ∈ js) :
    (Memory.read t.mem (byteAddr s.work.ldst s.work.blk j)
        = Memory.read s.mem (byteAddr s.work.ldst s.work.blk j)
      ∨ Memory.read t.mem (byteAddr s.work.ldst s.work.blk j) = blockByte o j)
    ∧ ((∀ i ∈ js, byteAddr s.work.ldst s.work.blk i < 2 ^ 32
        ∧ c.memOk (BitVec.ofNat 32 (byteAddr s.work.ldst s.work.blk i)) .write = true) →
      s.racedDst.contains (byteAddr s.work.ldst s.work.blk j) = false →
      Memory.read t.mem (byteAddr s.work.ldst s.work.blk j) = blockByte o j) := by
  induction js generalizing s with
  | nil => exact absurd hj (by simp)
  | cons i js ih =>
    obtain ⟨hi, hnd⟩ := List.nodup_cons.1 hnd
    unfold State.writeBytes at h
    split at h
    · rename_i s' hs'
      obtain ⟨hlt, -, rfl⟩ := State.dmaWrite_ok hs'
      have hm' : Memory.wf (if s.racedDst.contains (byteAddr s.work.ldst s.work.blk i)
          && !freeBit (s.drawn + i) then s.mem
          else Memory.write s.mem (byteAddr s.work.ldst s.work.blk i) (blockByte o i)) := by
        split
        · exact hm
        · exact Memory.wf_write hm hlt _
      rcases List.mem_cons.1 hj with rfl | hj
      · have hother := State.writeBytes_read_other hm' h (a := byteAddr s.work.ldst s.work.blk j)
          fun k hk heq => hi (by
            change byteAddr s.work.ldst s.work.blk j = byteAddr s.work.ldst s.work.blk k at heq
            unfold byteAddr at heq
            exact (by omega : j = k) ▸ hk)
        rw [hother]
        refine ⟨?_, fun _ hr => ?_⟩
        · show Memory.read (if _ then _ else _) _ = _ ∨ Memory.read (if _ then _ else _) _ = _
          split
          · exact .inl rfl
          · rw [Memory.read_write hm.1, if_pos rfl]
            exact .inr rfl
        · show Memory.read (if _ then _ else _) _ = _
          rw [hr, Bool.false_and, if_neg (by decide), Memory.read_write hm.1, if_pos rfl]
      · have hne : byteAddr s.work.ldst s.work.blk j ≠ byteAddr s.work.ldst s.work.blk i := fun heq =>
          hi (by
            unfold byteAddr at heq
            exact (by omega : j = i) ▸ hj)
        have hsame : Memory.read (if s.racedDst.contains (byteAddr s.work.ldst s.work.blk i)
              && !freeBit (s.drawn + i) then s.mem
              else Memory.write s.mem (byteAddr s.work.ldst s.work.blk i) (blockByte o i))
            (byteAddr s.work.ldst s.work.blk j)
            = Memory.read s.mem (byteAddr s.work.ldst s.work.blk j) := by
          split
          · rfl
          · rw [Memory.read_write hm.1, if_neg hne]
        obtain ⟨h1, h2⟩ := ih hm' hnd h hj
        exact ⟨by rw [← hsame]; exact h1, fun hok hr => h2 (fun k hk => hok k (by simp [hk])) hr⟩
    · rename_i e he
      cases h
      refine ⟨.inl rfl, fun hok => ?_⟩
      obtain ⟨hlt, hw⟩ := hok i (by simp)
      rw [State.dmaWrite_of_ok hlt hw] at he
      exact nomatch he

/-- Bytes of two output blocks are apart. -/
theorem byteAddr_ne {a : Addr} {k k' j j' : Nat} (hj : j < 8) (hj' : j' < 8) (h : k ≠ k') :
    byteAddr a k j ≠ byteAddr a k' j' := by
  unfold byteAddr
  omega

theorem mem_byteOrder {j : Nat} : j ∈ byteOrder ↔ j < 8 := by
  simp only [byteOrder, List.mem_cons, List.not_mem_nil, or_false]
  omega

/-- Taking an input block anew keeps what was computed from the blocks in agreement with them. -/
theorem State.TakenOk.retake {c : Config} {s : State} (h : s.TakenOk c) (hm : Memory.wf s.mem)
    {k : Nat} (hk : k < s.taken.length) (v : Block) : (s.retake c k v).TakenOk c := by
  obtain ⟨h1, h2, h3, h4⟩ := h
  by_cases hc : k = s.work.blk
  · rw [State.retake_current hc]
    refine ⟨?_, fun _ => ?_, h3, fun i j hi hj hr => ?_⟩
    · show (s.taken.set k v).length = _
      rw [List.length_set]
      exact h1
    · show _ = roundsFrom c s.sk s.work.ldir s.roundsDone 0
        (split ((s.taken.set k v).getD s.work.blk 0#64))
      rw [← hc, List.getD_eq_getElem?_getD, List.getElem?_set_self hk]
      rfl
    · show _ = blockByte (crypt c s.sk s.work.ldir ((s.taken.set k v).getD i 0#64)) j
      have hi' : k ≠ i := fun e => by
        have : i < s.work.blk := hi
        omega
      rw [List.getD_eq_getElem?_getD, List.getElem?_set_ne hi', ← List.getD_eq_getElem?_getD]
      exact h4 i j hi hj hr
  · obtain ⟨u, r, hu, he⟩ := State.retake_written (c := c) hc v
    have hkb : k < s.work.blk := by
      rw [h1] at hk
      split at hk <;> omega
    rw [he]
    refine ⟨?_, fun hp => ?_, h3, fun i j hi hj hr => ?_⟩
    · show (s.taken.set k v).length = _
      rw [List.length_set]
      exact h1
    · show _ = roundsFrom c s.sk s.work.ldir s.roundsDone 0
        (split ((s.taken.set k v).getD s.work.blk 0#64))
      rw [List.getD_eq_getElem?_getD, List.getElem?_set_ne hc, ← List.getD_eq_getElem?_getD]
      exact h2 hp
    · show Memory.read u.mem _ = blockByte (crypt c s.sk s.work.ldir ((s.taken.set k v).getD i 0#64)) j
      by_cases hik : i = k
      · subst hik
        have := (State.writeBytes_read
          (s := { s with taken := s.taken.set i v, work := { s.work with blk := i } })
          hm (by decide) hu (mem_byteOrder.2 hj)).2
          (fun j' hj' => h3 i j' hi (mem_byteOrder.1 hj')) hr
        rw [List.getD_eq_getElem?_getD, List.getElem?_set_self hk]
        exact this
      · have := State.writeBytes_read_other
          (s := { s with taken := s.taken.set k v, work := { s.work with blk := k } })
          hm hu (a := byteAddr s.work.ldst i j) fun j' hj' => byteAddr_ne hj (mem_byteOrder.1 hj') hik
        rw [this, List.getD_eq_getElem?_getD, List.getElem?_set_ne (Ne.symm hik),
          ← List.getD_eq_getElem?_getD]
        exact h4 i j hi hj hr

/-- A redraw keeps them in agreement. -/
theorem State.TakenOk.redraw {c : Config} {s : State} (h : s.TakenOk c) (hm : Memory.wf s.mem)
    (n : Nat) : (s.redraw c n).TakenOk c :=
  (State.redraw_induct (c := c) (P := fun t => Memory.wf t.mem ∧ t.TakenOk c)
    (fun _ v t d hk ht => ⟨State.retake_wf ht.1,
      State.TakenOk.retake (s := { t with drawn := d }) ⟨ht.2.1, ht.2.2, ht.2.3, ht.2.4⟩ ht.1 hk v⟩)
    n s ⟨hm, h⟩).2

/-- More bytes raced for say less. -/
theorem State.TakenOk.raced {c : Config} {s : State} (h : s.TakenOk c) {src dst : List Nat} (d : Nat)
    (hd : ∀ a, s.racedDst.contains a = true → dst.contains a = true) :
    State.TakenOk c { s with racedSrc := src, racedDst := dst, drawn := d } :=
  ⟨h.1, h.2, h.3, fun k j hk hj hr => h.4 k j hk hj (by
    cases hc : s.racedDst.contains (byteAddr s.work.ldst k j)
    · rfl
    · exact absurd (hd _ hc) (by
        have : dst.contains (byteAddr s.work.ldst k j) = false := hr
        rw [this]
        decide))⟩

/-- A race keeps them in agreement. -/
theorem State.TakenOk.markRace {c : Config} {s : State} (h : s.TakenOk c) (hm : Memory.wf s.mem)
    (b : Bool) (n d : Nat) : (State.markRace c b n { s with drawn := d }).TakenOk c := by
  cases hb : b && s.phase.isBuffer
  · rw [State.markRace_quiet (s := { s with drawn := d }) hb]
    exact ⟨h.1, h.2, h.3, h.4⟩
  · rw [State.markRace_races (s := { s with drawn := d }) hb]
    refine State.TakenOk.redraw (h.raced d fun a ha => ?_) hm n
    split
    · rw [List.contains_iff_mem] at ha ⊢
      exact List.mem_insert_of_mem ha
    · exact ha

/-- Memory may change outside the output blocks, and at bytes raced for. -/
theorem State.TakenOk.mem {c : Config} {s t : State} (h : s.TakenOk c)
    (he : t = { s with mem := t.mem, stale := t.stale, dirty := t.dirty })
    (hm : ∀ k j, k < s.work.blk → j < 8 → s.racedDst.contains (byteAddr s.work.ldst k j) = false →
      Memory.read t.mem (byteAddr s.work.ldst k j) = Memory.read s.mem (byteAddr s.work.ldst k j)) :
    t.TakenOk c := by
  rw [he]
  exact ⟨h.1, h.2, h.3, fun k j hk hj hr => (hm k j hk hj hr).trans (h.4 k j hk hj hr)⟩

/-! ### The invariant -/

/-- A race keeps the invariant. -/
theorem State.Inv.markRace {c : Config} {s : State} (h : s.Inv c) (b : Bool) (n d : Nat) :
    (State.markRace c b n { s with drawn := d }).Inv c :=
  h.congr_of_record rfl rfl rfl rfl
    (fun hp => by
      rw [State.markRace_quiet (s := { s with drawn := d })
        (show (b && s.phase.isBuffer) = false by rw [hp]; exact Bool.and_false b)])
    rfl rfl (fun hp => (h.record hp).markRace h.memory b n d)
    (State.markRace_wf (s := { s with drawn := d }) h.memory)

/-- So does a change of one byte of memory that is not in the destination range, or that is raced for. -/
theorem State.Inv.writeAt {c : Config} {s t : State} (h : s.Inv c) {a : Nat}
    (he : t = { s with mem := t.mem, stale := t.stale, dirty := t.dirty })
    (hm : ∀ x, x ≠ a → Memory.read t.mem x = Memory.read s.mem x)
    (hr : s.phase.isBuffer = true → s.work.inDestination a = true →
      s.racedDst.contains a = true ∨ t.mem = s.mem)
    (hw : Memory.wf t.mem) : t.Inv c := by
  have hwk : t.work = s.work := by rw [he]
  refine h.congr_of_record (by rw [he]) (by rw [he]) (by rw [he]) (by rw [hwk]) (fun _ => hwk)
    (by rw [he]) (by rw [he]) (fun hp => (h.record hp).mem he fun k j hk hj hn => ?_) hw
  by_cases hx : byteAddr s.work.ldst k j = a
  · have hb := (h.buffer hp).block
    have hd : s.work.inDestination a = true := by
      unfold Work.inDestination
      refine decide_eq_true ?_
      unfold byteAddr at hx
      omega
    rcases hr hp hd with hc | hc
    · rw [← hx, hn] at hc
      exact nomatch hc
    · rw [hc]
  · exact hm _ hx

/-- A write that happens or not leaves every other byte alone. -/
theorem Memory.read_ite_write {m : Memory} (hm : Memory.wf m) (b : Bool) {a x : Nat} (v : Byte)
    (h : x ≠ a) : Memory.read (if b then Memory.write m a v else m) x = Memory.read m x := by
  split
  · rw [Memory.read_write hm.1, if_neg h]
  · rfl

theorem State.landWrite_inv {c : Config} {s : State} (h : s.Inv c) (a : Addr) (v : Byte) :
    (s.landWrite c a v).Inv c := by
  have h0 := h.markRace true a.toNat (s.drawn + 1)
  refine h0.writeAt (a := a.toNat) rfl (fun x hx => ?_) (fun hp hd => .inl ?_)
    (State.landWrite_wf h.memory c a v)
  · show Memory.read (if _ then _ else _) x = _
    split
    · rfl
    · rw [Memory.read_write h0.memory.1, if_neg hx]
  · have hp' : s.phase.isBuffer = true := hp
    have hd' : s.work.inDestination a.toNat = true := hd
    simp [hp', hd']

theorem State.memWrite_inv {c : Config} {s : State} (h : s.Inv c) (a : Addr) (v : Byte) :
    (s.memWrite c a v).Inv c :=
  (State.landWrite_inv h a v).writeAt (a := a.toNat) rfl (fun _ _ => rfl) (fun _ _ => .inr rfl)
    (State.memWrite_wf h.memory c a v)

theorem State.masterWrite_inv {c : Config} {s : State} (h : s.Inv c) (a : Addr) (v : Byte) :
    (s.masterWrite c a v).Inv c :=
  (State.landWrite_inv h a v).writeAt (a := a.toNat) rfl (fun _ _ => rfl) (fun _ _ => .inr rfl)
    (State.masterWrite_wf h.memory c a v)

theorem State.clean_inv {c : Config} {s : State} (h : s.Inv c) (a : Addr) : (s.clean c a).Inv c := by
  have h0 := h.markRace (s.held c a) a.toNat (s.drawn + 1)
  refine h0.writeAt (a := a.toNat) rfl (fun x hx => Memory.read_ite_write h0.memory _ _ hx)
    (fun hp hd => ?_) (State.clean_wf h.memory c a)
  have hp' : s.phase.isBuffer = true := hp
  have hd' : s.work.inDestination a.toNat = true := hd
  cases hh : s.held c a
  · exact .inr (by simp [State.clean, hh])
  · exact .inl (by simp [hp', hd'])

theorem State.invalidate_inv {c : Config} {s : State} (h : s.Inv c) (a : Addr) :
    (s.invalidate c a).Inv c := by
  have h0 := h.markRace (s.held c a) a.toNat (s.drawn + 1)
  refine h0.writeAt (a := a.toNat) rfl (fun x hx => Memory.read_ite_write h0.memory _ _ hx)
    (fun hp hd => ?_) (State.invalidate_wf h.memory c a)
  have hp' : s.phase.isBuffer = true := hp
  have hd' : s.work.inDestination a.toNat = true := hd
  cases hh : s.held c a
  · exact .inr (by simp [State.invalidate, hh])
  · exact .inl (by simp [hp', hd'])

end Sys2Proof.Machine
end

