-- ==== Sys2Proof/Tests/Slice0.lean ====
section
/-! SUPPORT. The model's own tests: an ill-formed term for each check, the encodings, the spec's vectors
(95_test_vectors.md), one step of each command, and for every obligation with hypotheses a state that
meets them. -/

namespace Sys2Proof.Tests

open Sys2Proof Sys2Proof.Machine

/-! ### Helpers -/

/-- REFCFG on a platform that answers every access and is coherent. -/
def conf : Config := refConfig 0x40000000 (fun _ _ => true) true

/-- REFCFG on a platform that is not coherent. -/
def confCached : Config := refConfig 0x40000000 (fun _ _ => true) false

/-- REFCFG on a platform that refuses the byte `a` for `k`. -/
def confBad (a : Addr) (k : AccessKind) : Config :=
  refConfig 0x40000000 (fun b l => !(decide (b = a) && decide (l = k))) true

/-- The outcome is a next state with the property `p`. -/
def nextIs (p : State → Bool) : Host.Outcome State Fault Refusal → Bool
  | .next t => p t
  | .fault _ => false
  | .refused _ => false

theorem exists_next {p : State → Bool} {o : Host.Outcome State Fault Refusal}
    (h : nextIs p o = true) : ∃ t, o = .next t ∧ p t = true := by
  cases o with
  | next t => exact ⟨t, rfl, h⟩
  | fault r => exact nomatch h
  | refused r => exact nomatch h

/-- A reset core with the schedule of key 0 under REFCFG. -/
def keyed : State := { State.reset with status := { Status.reset with keyValid := true } }

/-- `keyed` with the operands of a buffer command. -/
def keyedBuf (src dst len : Word) : State := { keyed with src := src, dst := dst, len := len }

/-- SETKEY accepted. -/
def keygen : State :=
  { State.reset with
    status := { Status.reset with busy := true, lastop := 0x01#8 }
    phase := .keygen
    work := { Work.reset with lop := 0x01#8 } }

/-- ENCB running, `n` round steps done. -/
def inRounds (n : Fin 16) : State :=
  { keyed with
    status := { keyed.status with busy := true, lastop := 0x02#8 }
    phase := .rounds
    work := { Work.reset with lop := 0x02#8, rnd := n } }

/-- The rounds done on a block of zeros when a buffer command enters the phase `p`. -/
def zeroHalves (p : Phase) : Half × Half :=
  if p = .bufWrite then roundsFrom conf keyed.sk .encode 16 0 (split 0#64) else split 0#64

/-- ENCBUF of 8 zero bytes from 0x1000 to 0x2000 running, in the phase `p`. -/
def inBuffer (p : Phase) : State :=
  { keyed with
    status := { keyed.status with busy := true, lastop := 0x04#8 }
    phase := p
    outlen := 8#32
    work := { Work.reset with
      lop := 0x04#8, lsrc := 0x1000#32, ldst := 0x2000#32, llen := 8#32, lout := 8#33
      wl := (zeroHalves p).1, wr := (zeroHalves p).2 }
    taken := if p = .bufRead then [] else [0#64] }

/-- ENCBUF of 16 zero bytes from 0x1000 to 0x2000 running, block 0 written and block 1 not read. -/
def secondBlock : State :=
  { inBuffer .bufRead with
    outlen := 16#32
    blkdone := 1#32
    work := { (inBuffer .bufRead).work with llen := 16#32, lout := 16#33, blk := 1 }
    taken := [0#64]
    mem := writeBlockIn [] 0x2000#32 0 0x82C23DAF34C34096#64 }

/-- A running ENCBUF with bytes in the host's caches: the first of the source, and the first and the last
of the destination, not cleaned; the first of the destination an older copy as well. -/
def cached : State :=
  { inBuffer .bufRead with dirty := [0x1000, 0x2000, 0x2007], stale := [0x2000] }

/-- `s` with the outstanding events `l`. -/
def withHost (s : State) (l : List Event) : State := { s with host := l }

/-! ### Well-formedness: one ill-formed term for each check -/

theorem test_ref_wf : RawTables.ref.wf = true := by decide

theorem test_etable_short : RawTables.wf { RawTables.ref with etable := RawTables.ref.etable.drop 1 } = false := by
  decide

theorem test_etable_zero :
    RawTables.wf { RawTables.ref with etable := 0 :: RawTables.ref.etable.drop 1 } = false := by decide

theorem test_etable_above :
    RawTables.wf { RawTables.ref with etable := 33 :: RawTables.ref.etable.drop 1 } = false := by decide

theorem test_etable_repeat :
    RawTables.wf { RawTables.ref with etable := 1 :: RawTables.ref.etable.drop 1 } = true := by decide

theorem test_ptable_short :
    RawTables.wf { RawTables.ref with ptable := RawTables.ref.ptable.drop 1 } = false := by decide

theorem test_ptable_repeat :
    RawTables.wf { RawTables.ref with ptable := 7 :: RawTables.ref.ptable.drop 1 } = false := by decide

theorem test_ptable_above :
    RawTables.wf { RawTables.ref with ptable := 33 :: RawTables.ref.ptable.drop 1 } = false := by decide

theorem test_sbox_rows : RawTables.wf { RawTables.ref with sbox := RawTables.ref.sbox.drop 1 } = false := by
  decide

theorem test_sbox_row_short :
    RawTables.wf { RawTables.ref with sbox := [1] :: RawTables.ref.sbox.drop 1 } = false := by decide

theorem test_sbox_above :
    RawTables.wf { RawTables.ref with
      sbox := (16 :: List.replicate 15 0) :: RawTables.ref.sbox.drop 1 } = false := by decide

theorem test_access_size : accessWf 0x08#8 2 = false := by decide

theorem test_access_wide : accessWf 0x08#8 8 = false := by decide

theorem test_access_misaligned : accessWf 0x09#8 4 = false := by decide

theorem test_access_ok : accessWf 0x08#8 4 = true := by decide

/-- A command has no field that could be ill-formed (30_encoding.md rule R82). -/
theorem test_commands_wf : [Instr.setkey, .encb, .decb, .encbuf, .decbuf].all Instr.wf = true := by
  decide

/-! ### Encodings, written out from 30_encoding.md rule R83 -/

theorem test_decode_words :
    (decodeTableWord 32 1 = some .setkey ∧ decodeTableWord 32 2 = some .encb)
      ∧ (decodeTableWord 32 3 = some .decb ∧ decodeTableWord 32 4 = some .encbuf
        ∧ decodeTableWord 32 5 = some .decbuf)
      ∧ decodeTableWord 32 0 = none ∧ decodeTableWord 32 0x105 = none := by decide

/-- RSV is bits 31 to 8 and no bit of it is ignored (rule R84). -/
theorem test_decode_rsv : ∀ i : Fin 24, decode (0x00000002#32 ||| (1#32 <<< (i.val + 8))) = .error .reservedBits := by
  decide

/-! ### The spec's vectors (95_test_vectors.md, section L2), under REFCFG -/

/-- V-RF-3, V-RF-5, V-RF-7. -/
theorem test_vectors_expand :
    expand conf 0x00000001#32 = 0x800000000002#48 ∧ expand conf 0x12345678#32 = 0x0A41A82AC3F0#48
      ∧ expand conf 0x89ABCDEF#32 = 0xC53D57E5BF5F#48 := by decide +kernel

/-- V-RF-10 to V-RF-13. -/
theorem test_vectors_substitute :
    substitute conf 0x000000000001#48 = 0xEEEEEEE0#32 ∧ substitute conf 0x800000000000#48 = 0x4EEEEEEE#32
      ∧ substitute conf 0x800000000001#48 = 0x4EEEEEE0#32
      ∧ substitute conf 0x123456789ABC#48 = 0xDCAC7E65#32 := by decide +kernel

/-- V-RF-17, V-RF-18, V-RF-20. -/
theorem test_vectors_permute :
    permute conf 0x00000001#32 = 0x00000800#32 ∧ permute conf 0x80000000#32 = 0x00800000#32
      ∧ permute conf 0xF0F0F0F0#32 = 0x27958787#32 := by decide +kernel

/-- V-RF-22, V-RF-28, V-RND-3. -/
theorem test_vectors_round :
    feistel conf 0x00000000#32 0x000000000000#48 = 0x59FF97FD#32
      ∧ feistel conf 0x89ABCDEF#32 0x0123456789AB#48 = 0x1E54884E#32
      ∧ oneRound conf 0x0123456789AB#48 (0x01234567#32, 0x89ABCDEF#32)
        = (0x89ABCDEF#32, 0x1F77CD29#32) := by decide +kernel

/-- V-SK-3 and V-SK-7, first, second and last entries. -/
theorem test_vectors_schedule :
    (sched conf 0x133457799BBCDFF1#64)[0] = 0x57799BBCDFF1#48
      ∧ (sched conf 0x133457799BBCDFF1#64)[1] = 0x2BBCCDDE6FF8#48
      ∧ (sched conf 0x133457799BBCDFF1#64)[15] = 0x2668AEF33779#48
      ∧ (sched conf 0x0000800000000000#64)[15] = 0x000100000000#48 := by decide +kernel

/-- V-BLK-2: encode and decode of block 0 under key 1. -/
theorem test_vectors_block :
    crypt conf (sched conf 1#64) .encode 0#64 = 0x9FD9244E87B55BF9#64
      ∧ crypt conf (sched conf 1#64) .decode 0#64 = 0x82C035AF34C34096#64 := by decide +kernel

/-- V-BLK-5: the general block, both directions. -/
theorem test_vectors_block_general :
    crypt conf (sched conf 0x133457799BBCDFF1#64) .encode 0x0123456789ABCDEF#64 = 0xBD04E16CFBFD5B06#64
      ∧ crypt conf (sched conf 0x133457799BBCDFF1#64) .decode 0x0123456789ABCDEF#64
        = 0x75BE0F2F54745145#64 := by decide +kernel

/-- V-BUF-3: the two blocks of "HELLO WORLD" under key 42. -/
theorem test_vectors_buffer :
    crypt conf (sched conf 42#64) .encode 0x48454C4C4F20574F#64 = 0x5024461E332883EB#64
      ∧ crypt conf (sched conf 42#64) .encode 0x524C440000000000#64 = 0x6A01389B57B7A210#64 := by
  decide +kernel

/-! ### One step of each command -/

/-- V-SK-2: the KEYGEN step of SETKEY, and STATUS as V-SK-1 gives it. -/
theorem test_setkey_step :
    nextIs (fun u => u.status.word == 0x0001000A#32 && u.sk[1] == 0xA2B3C4D5E6F7#48
        && u.sk[15] == 0x02468ACF1357#48)
      (coreStep conf { keygen with work := { keygen.work with lkey := 0x0123456789ABCDEF#64 } })
      = true := by decide +kernel

/-- 95_test_vectors.md section L3: STATUS reads 0x00010001 during a first SETKEY. -/
theorem test_setkey_accepted :
    nextIs (fun t => t.status.word == 0x00010001#32 && t.work.lkey == 5#64)
      (exec .setkey { State.reset with keyLo := 5#32 }) = true := by decide

/-- V-ERR-5. -/
theorem test_encb_no_key :
    nextIs (fun t => t.status.word == 0x00020206#32 && t.dout == 0#64) (exec .encb State.reset)
      = true := by decide

/-- V-BLK-9, first row of the round trace: f = 0x59FF97FD. -/
theorem test_encb_round :
    nextIs (fun t => t.work.wl == 0#32 && t.work.wr == 0x59FF97FD#32 && t.work.rnd == 1)
      (coreStep conf (inRounds 0)) = true := by decide +kernel

/-- Rule R148: DIN is latched and split, and the subkeys run from 15 down. -/
theorem test_decb_accepted :
    nextIs (fun t => t.status.word == 0x00030009#32 && t.work.ldir == .decode && t.work.wl == 7#32
        && t.work.wr == 9#32 && subkeyAt t.sk t.work.ldir t.work.rnd == t.sk[15])
      (exec .decb { keyed with dinHi := 7#32, dinLo := 9#32 }) = true := by decide

/-- V-ERR-13. -/
theorem test_decb_dropped :
    nextIs (fun t => t.status.word == 0x00020019#32 && t.phase == .rounds) (exec .decb (inRounds 3))
      = true := by decide

/-- V-ERR-8, V-ERR-9 and V-ERR-10: the three RANGE checks. -/
theorem test_encbuf_range :
    [keyedBuf 0xFFFFFFFC#32 0x2000#32 8#32, keyedBuf 0xFFFFFFFC#32 0xFFFFFFFC#32 4#32,
      keyedBuf 0#32 0#32 0xFFFFFFF9#32].all (fun s =>
        nextIs (fun t => t.status.word == 0x0004030E#32 && t.outlen == 0#32 && t.blkdone == 0#32)
          (exec .encbuf s)) = true := by decide

/-- V-BUF-10 and V-ERR-11: the largest length, and both ranges ending at 2^32. -/
theorem test_encbuf_top :
    nextIs (fun t => t.phase == .bufRead && t.outlen == 0xFFFFFFF8#32)
        (exec .encbuf (keyedBuf 8#32 0#32 0xFFFFFFF8#32)) = true
      ∧ nextIs (fun t => t.phase == .bufRead && t.outlen == 8#32)
        (exec .encbuf (keyedBuf 0xFFFFFFFC#32 0xFFFFFFF8#32 4#32)) = true := by decide

/-- V-ERR-6. -/
theorem test_decbuf_no_key :
    nextIs (fun t => t.status.word == 0x00050206#32 && t.outlen == 0#32 && t.blkdone == 0#32)
      (exec .decbuf { State.reset with outlen := 9#32, blkdone := 9#32 }) = true := by decide

/-- V-BUF-8. -/
theorem test_decbuf_empty :
    nextIs (fun t => t.status.word == 0x0005000A#32 && t.outlen == 0#32 && t.blkdone == 0#32)
      (exec .decbuf (keyedBuf 0xFFFFFFFF#32 0xFFFFFFFF#32 0#32)) = true := by decide

/-- V-ERR-1 to V-ERR-4 and V-ERR-7: the illegal words. -/
theorem test_illegal_words :
    [(0x00000000#32, 0x00000106#32), (0x00000101#32, 0x00010106#32), (0x00000006#32, 0x00060106#32),
      (0xFFFFFFFF#32, 0x00FF0106#32), (0x00000107#32, 0x00070106#32)].all (fun p =>
        nextIs (fun t => t.status.word == p.2)
          (stepWith conf (withHost State.reset [.wr 0x08#8 4 p.1]))) = true := by decide

/-- 43_block_chainer.md rule R162: 3 bytes of "HELLO WORLD" and 5 of padding, big-endian. -/
theorem test_read_step :
    nextIs (fun t => t.work.wl == 0x524C4400#32 && t.work.wr == 0#32 && t.phase == .bufRounds)
      (coreStep conf { inBuffer .bufRead with
        mem := [(0x1008, 0x52#8), (0x1009, 0x4C#8), (0x100A, 0x44#8), (0x100B, 0xFF#8)]
        work := { (inBuffer .bufRead).work with llen := 11#32, lout := 16#33, blk := 1 } })
      = true := by decide

/-- 43_block_chainer.md rule R163 and program P4: the failing write is byte 3 of the block. -/
theorem test_write_step_bus_error :
    nextIs (fun t => t.mem == [(0x2000, 0x11#8), (0x2001, 0x22#8), (0x2002, 0x33#8)]
        && t.status.word == 0x0004040E#32 && t.blkdone == 0#32)
      (coreStep (confBad 0x2003#32 .write) { inBuffer .bufWrite with
        work := { (inBuffer .bufWrite).work with wr := 0x11223344#32, wl := 0x55667788#32 } })
      = true := by decide

/-- Only a byte that is not 0x00 is listed, and the lowest address holds bits 63 to 56. -/
theorem test_write_step :
    nextIs (fun t => t.mem == [(0x2000, 0x11#8), (0x2007, 0x88#8)]
        && t.status.word == 0x0004000A#32 && t.blkdone == 1#32 && t.phase == .idle)
      (coreStep conf { inBuffer .bufWrite with
        work := { (inBuffer .bufWrite).work with wr := 0x11000000#32, wl := 0x00000088#32 } })
      = true := by decide

/-- V-ERR-14, V-ERR-15 and V-ERR-16 on a STATUS with every field set. -/
theorem test_status_writes :
    (Status.write ⟨false, true, true, true, true, 4#4, 0x05#8⟩ 0x10#32).word = 0x0005040E#32
      ∧ (Status.write ⟨false, true, true, true, true, 4#4, 0x05#8⟩ 0x02#32).word = 0x0005041C#32
      ∧ (Status.write ⟨false, true, true, true, true, 4#4, 0x05#8⟩ 0xFFFFFFED#32).word = 0x0005041E#32 := by
  decide

/-- V-REG-3: CTRL has bit 0 alone. -/
theorem test_ctrl :
    (State.writeReg .ctrl 0xFFFFFFFF#32 State.reset).readReg .ctrl = 0x00000001#32 := by decide

/-! ### Witnesses: for each obligation with hypotheses, a state that meets all of them, clause by clause -/

/-- The schedule `keyed` holds is that of key 0. -/
theorem keyed_sched : keyed.sk = sched conf 0#64 := by decide +kernel

theorem witness_DecodeAcceptsExactlyTheOpcodeMap :
    (∀ i, 0x00000000#32 ≠ encode i) ∧ (∀ i, 0x00000006#32 ≠ encode i) ∧ (∀ i, 0x000000FF#32 ≠ encode i)
      ∧ (∀ i, 0x00000100#32 ≠ encode i) := by
  refine ⟨?_, ?_, ?_, ?_⟩ <;> (intro i; cases i <;> decide)

theorem witness_StepRunsTheDecodedCommand :
    (withHost keyed [cmd .decbuf]).host = .wr 0x08#8 4 0x00000005#32 :: []
      ∧ decode 0x00000005#32 = .ok .decbuf := by decide

theorem witness_PlacedCommandRunsNext :
    decodeTableWord 32 5 = some .decbuf ∧ decodeTableWord 3 5 = some .decbuf := by decide

theorem witness_RunWithoutEventsIsCoreSteps : (inBuffer .bufWrite).host = [] := by decide

theorem witness_IdleCoreKeepsItsState : keyed.phase = .idle ∧ keyed.host = [] := by decide

/-- The poll of WAITDONE, found and not found. -/
theorem witness_PollReadsUntilItFinds :
    (withHost (inRounds 0) [waitDone]).host = .poll 0x0C#8 0x00000002#32 0x00000002#32 :: []
      ∧ (0x0C#8).toNat % 4 = 0
      ∧ (withHost (inRounds 0) [waitDone]).readReg (regAt 0x0C#8) &&& 0x00000002#32 ≠ 0x00000002#32
      ∧ (State.complete .none (withHost keyed [waitDone])).readReg (regAt 0x0C#8) &&& 0x00000002#32
        = 0x00000002#32 := by decide

theorem witness_IllegalWordCompletesAtOnce :
    (∀ i, 0x00000102#32 ≠ encode i)
      ∧ (withHost keyed [wr .cmd 0x00000102#32]).host = .wr 0x08#8 4 0x00000102#32 :: []
      ∧ (withHost keyed [wr .cmd 0x00000102#32]).status.busy = false
      ∧ (withHost (inRounds 15) [wr .cmd 0x00000102#32]).host = .wr 0x08#8 4 0x00000102#32 :: []
      ∧ (withHost (inRounds 15) [wr .cmd 0x00000102#32]).status.busy = true := by
  refine ⟨?_, by decide⟩
  intro i
  cases i <;> decide

theorem witness_BusyCommandIsDropped :
    (withHost keygen [wr .cmd 0xFFFFFFFF#32]).status.busy = true
      ∧ (withHost keygen [wr .cmd 0xFFFFFFFF#32]).host = .wr 0x08#8 4 0xFFFFFFFF#32 :: [] := by decide

/-- An idle core with each kind of word, and OutOfRange on both sides of each bound. -/
theorem witness_AcceptanceReportsTheFirstError :
    (∀ i, 0x00000000#32 ≠ encode i)
      ∧ (withHost keyed [wr .cmd 0x00000000#32]).host = .wr 0x08#8 4 0x00000000#32 :: []
      ∧ (withHost State.reset [cmd .encb]).host = .wr 0x08#8 4 (encode .encb) :: []
      ∧ (withHost State.reset [cmd .encb]).status.busy = false
      ∧ (withHost State.reset [cmd .encb]).status.keyValid = false
      ∧ (withHost (keyedBuf 0#32 0#32 8#32) [cmd .encbuf]).host = .wr 0x08#8 4 (encode .encbuf) :: []
      ∧ (keyedBuf 0#32 0#32 8#32).status.busy = false
      ∧ (keyedBuf 0#32 0#32 8#32).status.keyValid = true
      ∧ (keyedBuf 0#32 0#32 0xFFFFFFF9#32).OutOfRange ∧ ¬ (keyedBuf 8#32 8#32 0xFFFFFFF8#32).OutOfRange
      ∧ (keyedBuf 9#32 0#32 0xFFFFFFF8#32).OutOfRange ∧ (keyedBuf 0#32 9#32 0xFFFFFFF8#32).OutOfRange
      ∧ ¬ (keyedBuf 0xFFFFFFFF#32 0xFFFFFFFF#32 0#32).OutOfRange := by
  refine ⟨fun i => by cases i <;> decide, by decide, by decide, by decide, by decide, by decide,
    by decide, by decide, ?_, ?_, ?_, ?_, ?_⟩ <;>
  · unfold State.OutOfRange
    decide

/-- A buffer of three bytes that ends at the top of the DMA space, onto the last eight bytes: the source
lies inside the destination, so there is an overlap, and the destination does not run ahead. -/
theorem witness_BufferAccepted : (keyedBuf 0xFFFFFFFD#32 0xFFFFFFF8#32 3#32).BufferAccepted conf where
  idle := by decide
  keyed := by decide
  nonempty := by decide
  length := by decide
  source := by decide
  destination := by decide
  readable := fun i hi => by
    constructor
    · rfl
    · exact .inl rfl
  writable := fun i hi => rfl
  memory := by decide

/-- A destination that runs ahead of the source: accepted, and read from the blocks written before. -/
theorem witness_BufferCommandsHaveTheirNetEffect :
    (keyedBuf 0x1000#32 0x1004#32 16#32).BufferAccepted conf
      ∧ ¬ (keyedBuf 0x1000#32 0x1004#32 16#32).NoForwardOverlap := by
  refine ⟨⟨by decide, by decide, by decide, by decide, by decide, by decide, fun i hi => ⟨rfl, .inl rfl⟩,
    fun i hi => rfl, by decide⟩, ?_⟩
  unfold State.NoForwardOverlap
  decide

theorem witness_CommandsTakeTheirStepCounts :
    keyed.status.busy = false ∧ keyed.status.keyValid = true ∧ keyed.len = 0#32
      ∧ State.reset.status.busy = false ∧ State.reset.status.keyValid = false
      ∧ (keyedBuf 0xFFFFFFFD#32 0xFFFFFFF8#32 3#32).BufferAccepted conf
      ∧ (keyedBuf 9#32 0#32 0xFFFFFFF8#32).OutOfRange
      ∧ (withHost keyed [wr .cmd 0x00000006#32]).host = .wr 0x08#8 4 0x00000006#32 :: []
      ∧ (∀ i, 0x00000006#32 ≠ encode i) := by
  refine ⟨by decide, by decide, by decide, by decide, by decide, witness_BufferAccepted, ?_, by decide,
    fun i => by cases i <;> decide⟩
  unfold State.OutOfRange
  decide

theorem witness_AcceptanceFrame :
    (∃ t, exec .encbuf (keyedBuf 0#32 8#32 8#32) = .next t ∧ (t.phase == .bufRead) = true)
      ∧ (∃ t, exec .encb (inRounds 1) = .next t ∧ t.status.ovr = true) :=
  ⟨exists_next (by decide), exists_next (by decide)⟩

theorem witness_SetkeyLoadsTheSchedule : State.reset.status.busy = false ∧ keyed.status.busy = false := by
  decide

theorem witness_ScheduleIsWrittenAllAtOnce :
    keygen.phase = .keygen ∧ (∀ rest, keygen.host ≠ .reset :: rest)
      ∧ step keygen = .next (keygenStep Config.chip keygen) :=
  ⟨rfl, (fun _ h => nomatch h), rfl⟩

theorem witness_DoutIsWrittenOnlyByTheLastRound :
    (inRounds 15).phase = .rounds ∧ (∀ rest, (inRounds 15).host ≠ .reset :: rest)
      ∧ step (inRounds 15) = .next (roundsStep Config.chip (inRounds 15)) :=
  ⟨rfl, (fun _ h => nomatch h), rfl⟩

theorem witness_IllFormedTablesAreRefused :
    RawTables.ref.wf = true ∧ (RawTables.wf ⟨[], [], []⟩) = false := by decide

/-- The first and the last group. -/
theorem witness_SubstituteLooksUpEightGroups : (0 : Nat) < 8 ∧ (7 : Nat) < 8 := by decide

theorem witness_PalindromicScheduleEncodesAsItDecodes : ∀ i : Fin 16, keyed.sk[i] = keyed.sk[i.rev] := by
  decide

theorem witness_RoundStepComputesOneRound :
    (inRounds 15).phase = .rounds ∧ (inRounds 15).work.rnd = 15 ∧ (inRounds 14).phase = .rounds
      ∧ (inRounds 14).work.rnd ≠ 15 ∧ (inRounds 0).work.rnd ≠ 15 := by decide

theorem witness_EncbEncodesTheBlock :
    keyed.status.busy = false ∧ keyed.status.keyValid = true ∧ State.reset.status.busy = false
      ∧ State.reset.status.keyValid = false := by decide

theorem witness_DecbDecodesTheBlock :
    (keyedBuf 1#32 2#32 3#32).status.busy = false ∧ (keyedBuf 1#32 2#32 3#32).status.keyValid = true
      ∧ State.reset.status.busy = false ∧ State.reset.status.keyValid = false := by decide

theorem witness_PaddedLengthIsTheLeastMultiple : 8 ∣ 16 ∧ 9 ≤ 16 ∧ 8 ∣ 8 := by decide

/-- Each clause at a bound: no key; the three RANGE checks one byte past; LEN = 0; both ranges ending
exactly at 2^32, and the largest length. -/
theorem witness_BufferAcceptanceChecksInOrder :
    (Instr.encbuf, Dir.encode) ∈ bufferCommands ∧ (Instr.decbuf, Dir.decode) ∈ bufferCommands
      ∧ keyed.status.busy = false ∧ keyed.status.keyValid = true ∧ keyed.len = 0#32
      ∧ State.reset.status.keyValid = false
      ∧ 8 * (((0xFFFFFFF9#32).toNat + 7) / 8) > 2 ^ 32 - 8
      ∧ (0xFFFFFFFD#32).toNat + (4#32).toNat > 2 ^ 32
      ∧ (0xFFFFFFF9#32).toNat + 8 * (((4#32).toNat + 7) / 8) > 2 ^ 32
      ∧ (0xFFFFFFFC#32).toNat + (4#32).toNat ≤ 2 ^ 32
      ∧ (0xFFFFFFF8#32).toNat + 8 * (((4#32).toNat + 7) / 8) ≤ 2 ^ 32
      ∧ 8 * (((0xFFFFFFF8#32).toNat + 7) / 8) ≤ 2 ^ 32 - 8 ∧ (4#32) ≠ 0#32 := by decide

/-- A block of 8 bytes, and a block with 3 of them before the padding. -/
theorem witness_BufferStepsFollowTheirPhases :
    (inBuffer .bufRead).phase = .bufRead
      ∧ (∀ j, j < 8 → 8 * (inBuffer .bufRead).work.blk + j < (inBuffer .bufRead).work.llen.toNat →
        byteAddr (inBuffer .bufRead).work.lsrc (inBuffer .bufRead).work.blk j < 2 ^ 32
          ∧ conf.memOk (BitVec.ofNat 32
              (byteAddr (inBuffer .bufRead).work.lsrc (inBuffer .bufRead).work.blk j)) .read = true
          ∧ (inBuffer .bufRead).racedSrc.contains
              (byteAddr (inBuffer .bufRead).work.lsrc (inBuffer .bufRead).work.blk j) = false
          ∧ (conf.coherent = true ∨ (inBuffer .bufRead).dirty.contains
              (byteAddr (inBuffer .bufRead).work.lsrc (inBuffer .bufRead).work.blk j) = false))
      ∧ (inBuffer .bufRounds).phase = .bufRounds ∧ (inBuffer .bufRounds).work.rnd ≠ 15
      ∧ (inBuffer .bufWrite).phase = .bufWrite ∧ Memory.wf (inBuffer .bufWrite).mem
      ∧ (inBuffer .bufWrite).racedDst = []
      ∧ (∀ j, j < 8 → byteAddr (inBuffer .bufWrite).work.ldst (inBuffer .bufWrite).work.blk j < 2 ^ 32
          ∧ conf.memOk (BitVec.ofNat 32
              (byteAddr (inBuffer .bufWrite).work.ldst (inBuffer .bufWrite).work.blk j)) .write = true)
      ∧ (inBuffer .bufWrite).work.blk + 1 = (inBuffer .bufWrite).work.lout.toNat / 8 := by
  refine ⟨rfl, fun j hj _ => ⟨?_, rfl, rfl, .inl rfl⟩, rfl, by decide, rfl, by decide, rfl,
    fun j hj => ⟨?_, rfl⟩, by decide⟩
  · show 0x1000 + 8 * 0 + j < 2 ^ 32
    omega
  · show 0x2000 + 8 * 0 + j < 2 ^ 32
    omega

/-- "HELLO WORLD", 11 bytes, from 0x1000 to 0x2000. -/
theorem witness_BufferCommandsTransformEveryBlock :
    (keyedBuf 0x1000#32 0x2000#32 11#32).BufferReady conf where
  idle := by decide
  keyed := by decide
  nonempty := by decide
  length := by decide
  source := by decide
  destination := by decide
  readable := fun i hi => ⟨rfl, .inl rfl⟩
  writable := fun i hi => rfl
  memory := by decide
  overlap := by
    unfold State.NoForwardOverlap
    decide

/-- One block encoded from 0x1000 to 0x2000 and the state it leaves, with SRC, DST and LEN set for the way
back: the conditions of the round trip hold together. -/
theorem witness_BufferRoundTrip :
    ∃ s t u v : State, s.BufferReady conf ∧ exec .encbuf s = .next t
      ∧ coreSteps conf (18 * s.blockCount) t = .next u ∧ v.BufferReady conf ∧ v.sk = s.sk
      ∧ v.src = s.dst ∧ v.len.toNat = paddedLength s.len.toNat
      ∧ ∀ i, i < paddedLength s.len.toNat →
          Memory.read v.mem (s.dst.toNat + i) = Memory.read u.mem (s.dst.toNat + i) := by
  obtain ⟨t, ht, -⟩ := exists_next (p := fun _ => true)
    (o := exec .encbuf (keyedBuf 0x1000#32 0x2000#32 8#32)) (by decide)
  have hu : nextIs (fun u => u.status.busy == false && u.status.keyValid
      && decide (u.sk = keyed.sk) && decide (Memory.wf u.mem)) (coreSteps conf 18 t) = true := by
    cases ht
    decide +kernel
  obtain ⟨u, hu, hp⟩ := exists_next hu
  simp only [Bool.and_eq_true, decide_eq_true_eq, beq_iff_eq] at hp
  obtain ⟨⟨⟨h1, h2⟩, h3⟩, h4⟩ := hp
  have hn : 18 * (keyedBuf 0x1000#32 0x2000#32 8#32).blockCount = 18 := by decide
  refine ⟨keyedBuf 0x1000#32 0x2000#32 8#32, t, u,
    { u with src := 0x2000#32, dst := 0x3000#32, len := 8#32 }, ?_, ht, by rw [hn]; exact hu, ?_, h3, rfl,
    ?_, fun i _ => rfl⟩
  rotate_left 2
  · show (8#32).toNat = paddedLength (8#32).toNat
    decide
  · exact ⟨⟨by decide, by decide, by decide, by decide, by decide, by decide,
      fun i hi => ⟨rfl, .inl rfl⟩, fun i hi => rfl, by decide⟩, by unfold State.NoForwardOverlap; decide⟩
  · exact ⟨⟨h1, h2, by show (8#32).toNat ≠ 0; decide, by show paddedLength (8#32).toNat ≤ 2 ^ 32 - 8; decide,
      by show (0x2000#32).toNat + (8#32).toNat ≤ 2 ^ 32; decide,
      by show (0x3000#32).toNat + paddedLength (8#32).toNat ≤ 2 ^ 32; decide,
      fun i hi => ⟨rfl, .inl rfl⟩, fun i hi => rfl, h4⟩,
      by show ¬ ((0x2000#32).toNat < (0x3000#32).toNat ∧ (0x3000#32).toNat < (0x2000#32).toNat + (8#32).toNat)
         decide⟩

/-- The failing read is the last byte of the block; the failing write is the first one, or the last. -/
theorem witness_BusErrorEndsTheCommand :
    (∀ i, i < 7 → byteAddr (inBuffer .bufRead).work.lsrc (inBuffer .bufRead).work.blk i < 2 ^ 32
        ∧ (confBad 0x1007#32 .read).memOk (BitVec.ofNat 32
            (byteAddr (inBuffer .bufRead).work.lsrc (inBuffer .bufRead).work.blk i)) .read = true)
      ∧ 8 * (inBuffer .bufRead).work.blk + 7 < (inBuffer .bufRead).work.llen.toNat
      ∧ byteAddr (inBuffer .bufRead).work.lsrc (inBuffer .bufRead).work.blk 7 < 2 ^ 32
      ∧ (confBad 0x1007#32 .read).memOk (BitVec.ofNat 32
          (byteAddr (inBuffer .bufRead).work.lsrc (inBuffer .bufRead).work.blk 7)) .read = false
      ∧ Memory.wf (inBuffer .bufWrite).mem ∧ (inBuffer .bufWrite).racedDst = []
      ∧ byteAddr (inBuffer .bufWrite).work.ldst (inBuffer .bufWrite).work.blk 0 < 2 ^ 32
      ∧ (confBad 0x2000#32 .write).memOk (BitVec.ofNat 32
          (byteAddr (inBuffer .bufWrite).work.ldst (inBuffer .bufWrite).work.blk 0)) .write = false
      ∧ (∀ i, i < 7 → byteAddr (inBuffer .bufWrite).work.ldst (inBuffer .bufWrite).work.blk i < 2 ^ 32
        ∧ (confBad 0x2007#32 .write).memOk (BitVec.ofNat 32
            (byteAddr (inBuffer .bufWrite).work.ldst (inBuffer .bufWrite).work.blk i)) .write = true)
      ∧ (confBad 0x2007#32 .write).memOk (BitVec.ofNat 32
          (byteAddr (inBuffer .bufWrite).work.ldst (inBuffer .bufWrite).work.blk 7)) .write = false := by
  decide

/-- A running SETKEY has the invariant, on every configuration. -/
theorem keygen_inv (c : Config) : keygen.Inv c where
  busyPhase := by decide
  busyQuiet := by decide
  errCode := by decide
  codeRange := by decide
  schedule h := nomatch h
  keyed h := by rcases h with h | h <;> exact nomatch h
  opcode := rfl
  lastop _ := rfl
  progress h := nomatch h
  buffer h := nomatch h
  record h := nomatch h
  blkRange := by decide
  loutRange := by decide
  memory := by decide

/-- A running ENCBUF has the invariant, in each of its phases. -/
theorem inBuffer_inv {p : Phase} (hp : p.isBuffer = true) : (inBuffer p).Inv conf where
  busyPhase := ⟨(fun _ h => by cases h.symm.trans (show (inBuffer p).phase = p from rfl); nomatch hp), fun _ => rfl⟩
  busyQuiet _ := ⟨rfl, rfl, rfl⟩
  errCode := ⟨(fun h => nomatch h), fun h => absurd rfl h⟩
  codeRange := by show (0#4).toNat ≤ 4; decide
  schedule _ := ⟨0#64, keyed_sched⟩
  keyed _ := rfl
  opcode := by cases p <;> first | rfl | cases hp
  lastop _ := rfl
  progress h := by cases h.symm.trans (show (inBuffer p).phase = p from rfl); nomatch hp
  buffer _ := ⟨by show (8#33).toNat = paddedLength (8#32).toNat; decide,
    by show (0x1000#32).toNat + (8#32).toNat ≤ 2 ^ 32; decide,
    by show (0x2000#32).toNat + (8#33).toNat ≤ 2 ^ 32; decide,
    by show 0 < (8#33).toNat / 8; decide, rfl, rfl⟩
  record _ := ⟨(by cases p <;> rfl), (fun _ => by cases p <;> rfl),
    (fun _ _ hk => absurd hk (Nat.not_lt_zero _)), (fun _ _ hk => absurd hk (Nat.not_lt_zero _))⟩
  blkRange := by show 0 ≤ 2 ^ 29; decide
  loutRange := by show (8#33).toNat ≤ 2 ^ 32; decide
  memory := by show Memory.wf []; decide

/-- So has one whose first block is written: its output is V-BLK-1's. -/
theorem secondBlock_inv : secondBlock.Inv conf where
  busyPhase := by decide
  busyQuiet := by decide
  errCode := by decide
  codeRange := by decide
  schedule _ := ⟨0#64, keyed_sched⟩
  keyed _ := rfl
  opcode := rfl
  lastop _ := rfl
  progress h := nomatch h
  buffer _ := ⟨by decide, by decide, by decide, by decide, by decide, by decide⟩
  record _ := by
    have hc : blockByte (crypt conf keyed.sk .encode 0#64) = blockByte 0x82C23DAF34C34096#64 := by
      rw [show crypt conf keyed.sk .encode 0#64 = 0x82C23DAF34C34096#64 by decide +kernel]
    refine ⟨rfl, (fun h => absurd rfl h), fun k j hk hj => ?_, fun k j hk hj _ => ?_⟩
    · refine ⟨?_, rfl⟩
      have hk' : k < 1 := hk
      show 0x2000 + 8 * k + j < 2 ^ 32
      omega
    · obtain rfl : k = 0 := Nat.lt_one_iff.1 hk
      show Memory.read _ _ = blockByte (crypt conf keyed.sk .encode 0#64) j
      rw [hc]
      have : ∀ i : Fin 8, Memory.read secondBlock.mem (byteAddr 0x2000#32 0 i)
          = blockByte 0x82C23DAF34C34096#64 i := by decide
      exact this ⟨j, hj⟩
  blkRange := by decide
  loutRange := by decide
  memory := by decide

/-- A core idle after reset with the schedule of key 0 loaded, and operands of any kind. -/
theorem keyedBuf_inv (src dst len : Word) : (keyedBuf src dst len).Inv conf where
  busyPhase := ⟨(fun h => nomatch h), fun h => absurd rfl h⟩
  busyQuiet h := nomatch h
  errCode := ⟨(fun h => nomatch h), fun h => absurd rfl h⟩
  codeRange := by show (0#4).toNat ≤ 4; decide
  schedule _ := ⟨0#64, keyed_sched⟩
  keyed _ := rfl
  opcode := trivial
  lastop h := nomatch h
  progress h := nomatch h
  buffer h := nomatch h
  record h := nomatch h
  blkRange := by show 0 ≤ 2 ^ 29; decide
  loutRange := by show (0#33).toNat ≤ 2 ^ 32; decide
  memory := by show Memory.wf []; decide

/-- The two parts: a memory that differs at 0x1008, past the source; and the two ways a byte is safe from
a step, a phase that does not write and an address next to the destination. -/
theorem witness_CoreStaysInsideItsBuffers :
    (∀ a, (inBuffer .bufRead).work.inSource a = true →
        Memory.read [(0x1008, 0xFF#8)] a = Memory.read (inBuffer .bufRead).mem a)
      ∧ (inBuffer .bufRead).Inv conf ∧ (inBuffer .bufWrite).Inv conf
      ∧ (∃ t, coreStep conf (inBuffer .bufRead) = .next t) ∧ (inBuffer .bufRead).phase ≠ .bufWrite
      ∧ (∃ t, coreStep conf (inBuffer .bufWrite) = .next t)
      ∧ (inBuffer .bufWrite).work.inDestination 0x1FFF = false
      ∧ (inBuffer .bufWrite).work.inDestination 0x2008 = false := by
  refine ⟨fun a ha => ?_, inBuffer_inv rfl, inBuffer_inv rfl, ?_, by decide, ?_, by decide, by decide⟩
  · have h : 0x1000 ≤ a ∧ a < 0x1000 + 8 := of_decide_eq_true ha
    show (if a = 0x1008 then 0xFF#8 else Memory.unlisted) = Memory.unlisted
    rw [if_neg (by omega)]
  · obtain ⟨t, ht, -⟩ := exists_next (p := fun _ => true) (o := coreStep conf (inBuffer .bufRead)) (by decide)
    exact ⟨t, ht⟩
  · obtain ⟨t, ht, -⟩ := exists_next (p := fun _ => true) (o := coreStep conf (inBuffer .bufWrite)) (by decide)
    exact ⟨t, ht⟩

/-- ENCBUF on an idle core with the invariant, and 18 core steps after it. -/
theorem witness_BufferCommandsTouchTheirOutputsAlone :
    (keyedBuf 0x1000#32 0x2000#32 8#32).Inv conf ∧ (keyedBuf 0x1000#32 0x2000#32 8#32).status.busy = false
      ∧ (Instr.encbuf, Dir.encode) ∈ bufferCommands
      ∧ ∃ t, exec .encbuf (keyedBuf 0x1000#32 0x2000#32 8#32) = .next t
        ∧ ∃ u, coreSteps conf 18 t = .next u := by
  refine ⟨keyedBuf_inv _ _ _, by decide, by decide, ?_⟩
  obtain ⟨t, ht, -⟩ := exists_next (p := fun _ => true)
    (o := exec .encbuf (keyedBuf 0x1000#32 0x2000#32 8#32)) (by decide)
  refine ⟨t, ht, ?_⟩
  have hu : nextIs (fun _ => true) (coreSteps conf 18 t) = true := by
    cases ht
    decide +kernel
  obtain ⟨u, hu, -⟩ := exists_next hu
  exact ⟨u, hu⟩

theorem witness_CoreStepFrame :
    coreStep conf keygen = .next (keygenStep conf keygen) ∧ (inRounds 2).phase ≠ .keygen
      ∧ coreStep conf (inRounds 2) = .next (roundsStep conf (inRounds 2)) ∧ keygen.phase ≠ .rounds
      ∧ keygen.phase ≠ .bufWrite := ⟨rfl, by decide, rfl, by decide, by decide⟩

theorem witness_RegisterWritesDoNotReachTheCommand :
    Reg.ctrl ∈ hostWritable ∧ Reg.len ∈ hostWritable ∧ Reg.keyHi ∈ hostWritable := by decide

theorem witness_KeyWritesLeaveTheSchedule : Instr.encb ≠ .setkey ∧ Instr.decbuf ≠ .setkey := by decide

/-- Every register's offset, and the first and the last reserved one. -/
theorem witness_RegisterReadHasNoSideEffect :
    (withHost keyed [.rd 0xFC#8 4]).host = .rd 0xFC#8 4 :: []
      ∧ [0x00#8, 0x04#8, 0x08#8, 0x0C#8, 0x10#8, 0x14#8, 0x18#8, 0x1C#8, 0x20#8, 0x24#8, 0x28#8, 0x2C#8,
          0x30#8, 0x34#8, 0x38#8, 0x3C#8, 0xFC#8].all (fun o => decide (o.toNat % 4 = 0)) = true
      ∧ 0x3C ≤ (0x3C#8).toNat ∧ 0x3C ≤ (0xFC#8).toNat := by decide

theorem witness_RegisterWriteChangesItsRegisterAlone :
    (withHost keyed [.wr 0x0C#8 4 0x12#32]).host = .wr 0x0C#8 4 0x12#32 :: []
      ∧ (0x0C#8).toNat % 4 = 0 ∧ 0x0C#8 ≠ 0x08#8 ∧ (0xFC#8).toNat % 4 = 0 ∧ 0xFC#8 ≠ 0x08#8 := by decide

theorem witness_ReservedSpaceReadsZeroAndIgnoresWrites :
    0x3C ≤ (0x3C#8).toNat ∧ (0x3C#8).toNat % 4 = 0 ∧ 0x3C ≤ (0xFC#8).toNat ∧ (0xFC#8).toNat % 4 = 0
      ∧ (withHost keyed [.rd 0x3C#8 4]).host = .rd 0x3C#8 4 :: []
      ∧ (withHost keyed [.wr 0xFC#8 4 1#32]).host = .wr 0xFC#8 4 1#32 :: []
      ∧ (∀ i, i < 1 → (0xFFFFFFFF#32).getLsbD i = (0x00000001#32).getLsbD i)
      ∧ (0xFFFFFFED#32).getLsbD 1 = false ∧ (0xFFFFFFED#32).getLsbD 4 = false
      ∧ (0x00000101#32).extractLsb' 8 24 ≠ 0#24 ∧ (0x80000001#32).extractLsb' 8 24 ≠ 0#24 := by decide

theorem witness_StatusWriteClearsDoneAndOvr :
    (withHost keyed [wr .status 0xFFFFFFFF#32]).host = .wr 0x0C#8 4 0xFFFFFFFF#32 :: [] := by decide

theorem witness_OnlyAlignedWordAccessesAreServed :
    (withHost keyed [.wr 0x08#8 2 1#32]).host = .wr 0x08#8 2 1#32 :: [] ∧ (2 : Nat) ≠ 4
      ∧ (withHost keyed [.rd 0x0D#8 4]).host = .rd 0x0D#8 4 :: [] ∧ (0x0D#8).toNat % 4 ≠ 0
      ∧ (0x0C#8).toNat % 4 = 0 := by decide

/-- One byte below the window, and the first one above it. -/
theorem witness_TransactionsReachTheirRegister :
    0x3FFFFFFF < conf.regBase ∧ conf.regBase + 256 ≤ 0x40000100 := by decide

theorem witness_ResetSetsEveryRegister :
    (withHost (inBuffer .bufWrite) [.reset]).host = .reset :: [] ∧ (0x0C#8).toNat % 4 = 0
      ∧ (0xFC#8).toNat % 4 = 0 := by decide

theorem witness_ResetForgetsTheKey :
    (withHost keyed [.reset]).host = .reset :: []
      ∧ step (withHost keyed [.reset]) = .next (State.resetEvent Config.chip keyed) ∧ Instr.encb ≠ .setkey :=
  ⟨rfl, rfl, by decide⟩

/-- A reset while ENCBUF writes, and one while SETKEY runs. -/
theorem witness_ResetKeepsMemoryButTheBlockInProgress :
    (withHost (inBuffer .bufWrite) [.reset]).host = .reset :: [] ∧ Memory.wf (inBuffer .bufWrite).mem
      ∧ step (withHost (inBuffer .bufWrite) [.reset])
        = .next (State.resetEvent Config.chip (inBuffer .bufWrite))
      ∧ step (withHost keygen [.reset]) = .next (State.resetEvent Config.chip keygen)
      ∧ keygen.phase.isBuffer = false :=
  ⟨rfl, by decide, rfl, rfl, rfl⟩

theorem witness_EveryStepKeepsTheInvariant :
    keygen.Inv Config.chip ∧ step keygen = .next (keygenStep Config.chip keygen) :=
  ⟨keygen_inv _, rfl⟩

/-- `keygen` with an event outstanding has the invariant too. -/
theorem keygen_host_inv (c : Config) (l : List Event) : (withHost keygen l).Inv c :=
  let h := keygen_inv c
  ⟨h.busyPhase, h.busyQuiet, h.errCode, h.codeRange, h.schedule, h.keyed, h.opcode, h.lastop, h.progress,
    (fun hh => nomatch hh), (fun hh => nomatch hh), h.blkRange, h.loutRange, h.memory⟩

theorem witness_NoStepFaultsUnderTheInvariant :
    (withHost keygen [.rd 0x0C#8 1]).Inv Config.chip
      ∧ step (withHost keygen [.rd 0x0C#8 1]) = .refused .accessSize :=
  ⟨keygen_host_inv _ _, rfl⟩

theorem witness_RunningCommandCompletes :
    (inBuffer .bufRead).Inv conf ∧ (inBuffer .bufRead).status.busy = true
      ∧ (inBuffer .bufRead).stepsLeft = 18 := ⟨inBuffer_inv rfl, by decide, by decide⟩

theorem witness_PerformedWriteIsSeenByTheCommand :
    (keyedBuf 0x1000#32 0x2000#32 8#32).status.busy = false
      ∧ (keyedBuf 0x1000#32 0x2000#32 8#32).phase = .idle
      ∧ (keyedBuf 0x1000#32 0x2000#32 8#32).status.keyValid = true
      ∧ (keyedBuf 0x1000#32 0x2000#32 8#32).len ≠ 0#32
      ∧ rangeError 0x1000#32 0x2000#32 8#32 = false ∧ Memory.wf (keyedBuf 0x1000#32 0x2000#32 8#32).mem
      ∧ conf.coherent = true
      ∧ (∃ t, exec .encbuf ((keyedBuf 0x1000#32 0x2000#32 8#32).memWrite conf 0x1000#32 0x41#8) = .next t)
      ∧ (∃ t, exec .decbuf (((keyedBuf 0x1000#32 0x2000#32 8#32).memWrite conf 0x1007#32 0x41#8).clean conf
          0x1007#32)
        = .next t)
      ∧ (∃ t, exec .encbuf ((keyedBuf 0x1000#32 0x2000#32 8#32).masterWrite conf 0x1000#32 0x41#8) = .next t)
      ∧ (keyedBuf 0x1000#32 0x2000#32 8#32).dirty.contains (0x1000#32).toNat = false :=
  ⟨by decide, by decide, by decide, by decide, by decide, by decide, rfl, ⟨_, rfl⟩, ⟨_, rfl⟩, ⟨_, rfl⟩,
    by decide⟩

/-- The first byte of the source, the last of the destination, a byte of the block to be written, and a
byte of a block written already. -/
theorem witness_RacingAccessesLeaveBytesOpen :
    secondBlock.Inv conf ∧ (0x1003#32).toNat = byteAddr secondBlock.work.lsrc 0 3
      ∧ 0 < secondBlock.taken.length ∧ 0 < secondBlock.work.blk
      ∧ secondBlock.work.inSource (0x1003#32).toNat = true
      ∧ secondBlock.work.written (0x2007#32).toNat = true
      ∧ (inBuffer .bufRounds).Inv conf ∧ 0 = (inBuffer .bufRounds).work.blk
      ∧ 0 < (inBuffer .bufRounds).taken.length
      ∧ (0x1003#32).toNat = byteAddr (inBuffer .bufRounds).work.lsrc 0 3
      ∧ (State.memWrite conf 0x1003#32 0x41#8 secondBlock).racedDst.contains
          (byteAddr secondBlock.work.ldst 0 7) = false
      ∧ ¬ (secondBlock.work.lsrc.toNat < secondBlock.work.ldst.toNat
        ∧ secondBlock.work.ldst.toNat < secondBlock.work.lsrc.toNat + secondBlock.work.llen.toNat)
      ∧ (inBuffer .bufRead).phase.isBuffer = true ∧ (inBuffer .bufRead).work.inSource (0x1000#32).toNat = true
      ∧ (inBuffer .bufRead).work.inDestination (0x2007#32).toNat = true
      ∧ (inBuffer .bufWrite).phase = .bufWrite ∧ Memory.wf (inBuffer .bufWrite).mem
      ∧ (inBuffer .bufWrite).work.inDestination (0x2007#32).toNat = true
      ∧ (0x2007#32).toNat = byteAddr (inBuffer .bufWrite).work.ldst (inBuffer .bufWrite).work.blk 7
      ∧ (∃ t, coreStep conf ((inBuffer .bufWrite).memWrite conf 0x2007#32 0xFF#8) = .next t)
      ∧ (∃ t, coreStep conf ((inBuffer .bufWrite).masterWrite conf 0x2007#32 0xFF#8) = .next t)
      ∧ (Work.written { (inBuffer .bufRead).work with llen := 16#32, lout := 16#33, blk := 1 }
          (0x2007#32).toNat) = true := by
  refine ⟨secondBlock_inv, by decide, by decide, by decide, by decide, by decide, inBuffer_inv rfl, rfl,
    by decide, by decide, by decide, by decide, by decide, by decide, by decide, by decide, by decide,
    by decide, by decide, ⟨_, rfl⟩, ⟨_, rfl⟩, by decide⟩

/-- A source byte written after its block is read makes the block read open; one written before its block
is read does not touch the blocks read (20_memory.md rule R72 a). -/
theorem test_race_after_read :
    (State.memWrite conf 0x1003#32 0x41#8 secondBlock).taken
        = [ofBytes fun j => if j = 3 then Config.free 8 1 else 0x00#8]
      ∧ (State.memWrite conf 0x100B#32 0x41#8 secondBlock).taken = [0#64]
      ∧ (State.memWrite conf 0x100B#32 0x41#8 secondBlock).racedSrc = [0x100B] :=
  ⟨rfl, by decide, by decide⟩

theorem witness_SkippedMaintenanceLeavesBytesOpen :
    confCached.coherent = false
      ∧ (State.memWrite conf 0x1000#32 0x41#8 keyed).dirty.contains (0x1000#32).toNat = true
      ∧ (State.stale { keyed with stale := [0x2000] }).contains (0x2000#32).toNat = true
      ∧ keyed.racedSrc.contains (0x1000#32).toNat = false ∧ keyed.phase = .idle
      ∧ keyed.stale.contains (0x1000#32).toNat = false ∧ keyed.phase.isBuffer = false
      ∧ keyed.dirty.contains (0x2000#32).toNat = false := by decide

/-- The clauses about a running command: the first byte of the source and the last of the destination
dirty, the first of the destination stale, and the core's write of the cleaned byte. -/
theorem witness_LateMaintenance :
    cached.phase.isBuffer = true ∧ Memory.wf cached.mem
      ∧ cached.dirty.contains (0x1000#32).toNat = true ∧ cached.work.inSource (0x1000#32).toNat = true
      ∧ cached.dirty.contains (0x2007#32).toNat = true
      ∧ cached.work.inDestination (0x2007#32).toNat = true
      ∧ cached.work.written (0x2007#32).toNat = false
      ∧ cached.dirty.contains (0x2000#32).toNat = true ∧ cached.stale.contains (0x2000#32).toNat = true
      ∧ cached.work.inDestination (0x2000#32).toNat = true
      ∧ (∃ t, State.dmaWrite confCached (0x2007#32).toNat 0xAB#8 5 (cached.clean confCached 0x2007#32)
        = .ok t) :=
  ⟨by decide, by decide, by decide, by decide, by decide, by decide, by decide, by decide, by decide,
    by decide, ⟨_, rfl⟩⟩

/-- A clean after the CMD write leaves the source byte raced, a clean before it does not (20_memory.md
rule R72, 70_reset_and_hazards.md rule R255). -/
theorem test_late_clean :
    (cached.clean confCached 0x1000#32).racedSrc = [0x1000]
      ∧ (cached.clean confCached 0x2007#32).racedDst = [0x2007]
      ∧ (State.clean confCached 0x1000#32 { cached with phase := .idle }).racedSrc = []
      ∧ (cached.clean conf 0x1000#32).racedSrc = [] := by decide

/-- An invalidate before DONE = 1 leaves the byte stale, one after it does not (70_reset_and_hazards.md
rule R255). -/
theorem test_early_invalidate :
    (cached.invalidate confCached 0x2000#32).stale = [0x2000]
      ∧ (State.invalidate confCached 0x2000#32 { cached with phase := .idle }).stale = [] := by decide

theorem witness_PseudoInstructionsReachTheirResult :
    keyed.status.busy = false ∧ keyed.phase = .idle ∧ keyed.status.keyValid = true
      ∧ (withHost State.reset (loadKey 42#64 ++ [rd .status])).host = loadKey 42#64 ++ [rd .status]
      ∧ (withHost keyed (enc64 7#64 ++ [])).host = enc64 7#64 ++ []
      ∧ (withHost keyed (dec64 7#64 ++ [])).host = dec64 7#64 ++ [] := by decide

end Sys2Proof.Tests
end

/-! PROOFS. 00_scope.md: one read of a poll (rule R14), and the tables a configuration is built from
(rule R8). -/

namespace Sys2Proof.Machine

/-! ### One read of a poll -/

theorem pollOnce_found {c : Config} {offset : BitVec 8} {mask value : Word} {s : State}
    (ho : offset.toNat % 4 = 0) (hd : s.readReg (regAt offset) &&& mask = value) :
    pollOnce c offset mask value s = .next { s with reply := .word (s.readReg (regAt offset)) } := by
  simp [pollOnce, ho, hd]

theorem pollOnce_not_found {c : Config} {offset : BitVec 8} {mask value : Word} {s : State}
    (ho : offset.toNat % 4 = 0) (hd : s.readReg (regAt offset) &&& mask ≠ value) :
    pollOnce c offset mask value s = coreStep c { s with
      host := .poll offset mask value :: s.host, reply := .word (s.readReg (regAt offset)) } := by
  simp [pollOnce, ho, hd]

theorem stepWith_poll {c : Config} {offset : BitVec 8} {mask value : Word} {s : State}
    {rest : List Event} (h : s.host = .poll offset mask value :: rest) :
    stepWith c s = pollOnce c offset mask value { s with host := rest } := by
  rw [stepWith_cons h]
  rfl

/-- Settles O7: the step takes the poll off, and a read that does not find the value puts it back in
front, which restores the schedule of `s`. -/
theorem pollReadsUntilItFinds : Obligations.PollReadsUntilItFinds := by
  intro s offset mask value rest hhost ho
  have hread : State.readReg { s with host := rest } (regAt offset) = s.readReg (regAt offset) :=
    s.readReg_host rest s.reply _
  refine ⟨fun hd => ?_, fun hd => ?_⟩
  · rw [step, stepWith_poll hhost, pollOnce_found ho (by rwa [hread]), hread]
  · rw [step, stepWith_poll hhost, pollOnce_not_found ho (by rwa [hread]), hread, ← hhost]

end Sys2Proof.Machine

namespace Sys2Proof

/-! ### The check of the tables -/

theorem positionsOk_iff {t : List Nat} : positionsOk t = true ↔ ∀ e ∈ t, 1 ≤ e ∧ e ≤ 32 := by
  simp [positionsOk]

/-- Among 32 entries in 1..32, none repeats exactly when every position is hit: either way the table is
a permutation of 1, …, 32. -/
theorem nodup_iff_hits_every_position {t : List Nat} (hlen : t.length = 32)
    (hpos : ∀ e ∈ t, 1 ≤ e ∧ e ≤ 32) : t.Nodup ↔ ∀ v, 1 ≤ v → v ≤ 32 → v ∈ t := by
  have hmem (v : Nat) : v ∈ List.range' 1 32 ↔ 1 ≤ v ∧ v ≤ 32 := by
    rw [List.mem_range'_1]
    omega
  constructor
  · intro hnd v h1 h32
    have hsub : t.Subperm (List.range' 1 32) := hnd.subperm fun e he => (hmem e).2 (hpos e he)
    exact (hsub.perm_of_length_le (by simp [hlen])).mem_iff.2 ((hmem v).2 ⟨h1, h32⟩)
  · intro hall
    have hsub : (List.range' 1 32).Subperm t :=
      (List.nodup_range' (s := 1) (n := 32)).subperm fun v hv =>
        hall v ((hmem v).1 hv).1 ((hmem v).1 hv).2
    exact (hsub.perm_of_length_le (by simp [hlen])).nodup List.nodup_range'

theorem RawTables.etableOk_iff {t : RawTables} :
    t.etableOk = true ↔ t.etable.length = 48 ∧ ∀ e ∈ t.etable, 1 ≤ e ∧ e ≤ 32 := by
  simp only [RawTables.etableOk, Bool.and_eq_true, decide_eq_true_eq, positionsOk_iff]

theorem RawTables.ptableOk_iff {t : RawTables} :
    t.ptableOk = true ↔ t.ptable.length = 32 ∧ (∀ e ∈ t.ptable, 1 ≤ e ∧ e ≤ 32)
      ∧ ∀ v, 1 ≤ v → v ≤ 32 → v ∈ t.ptable := by
  simp only [RawTables.ptableOk, Bool.and_eq_true, decide_eq_true_eq, positionsOk_iff, and_assoc]
  exact and_congr_right fun hlen => and_congr_right fun hpos =>
    nodup_iff_hits_every_position hlen hpos

theorem RawTables.sboxOk_iff {t : RawTables} :
    t.sboxOk = true ↔ t.sbox.length = 4 ∧ ∀ row ∈ t.sbox, row.length = 16 ∧ ∀ e ∈ row, e ≤ 15 := by
  simp only [RawTables.sboxOk, Bool.and_eq_true, decide_eq_true_eq, List.all_eq_true]

theorem RawTables.wf_iff {t : RawTables} :
    t.wf = true ↔ t.etableOk = true ∧ t.ptableOk = true ∧ t.sboxOk = true := by
  simp only [RawTables.wf, Bool.and_eq_true, and_assoc]

/-! ### The configuration that is built -/

section Build

variable {t : RawTables} {sub : Fin 16 → Block → Subkey} {b : Nat} {ok : Addr → AccessKind → Bool}
  {coh : Bool}

theorem RawTables.build_of_not_wf (h : t.wf = false) : t.build sub b ok coh = none := by
  simp [RawTables.build, h]

theorem RawTables.build_of_wf (h : t.wf = true) (hp : t.ptableOk = true) :
    t.build sub b ok coh = some (t.config hp sub b ok coh) := by
  simp [RawTables.build, h, hp]

theorem RawTables.config_eEntry (hp : t.ptableOk = true) (he : t.etableOk = true) (i : Fin 48) :
    t.etable[i.val]? = some ((t.config hp sub b ok coh).eEntry i) := by
  obtain ⟨hlen, hpos⟩ := RawTables.etableOk_iff.1 he
  have hi : i.val < t.etable.length := i.isLt.trans_eq hlen.symm
  have hentry := tablePos_val (positionsOk_iff.2 hpos) hi
  simp [RawTables.config, Config.eEntry, hentry, hi]

theorem RawTables.config_pEntry (hp : t.ptableOk = true) (i : Fin 32) :
    t.ptable[i.val]? = some ((t.config hp sub b ok coh).pEntry i) := by
  obtain ⟨hlen, hpos, -⟩ := RawTables.ptableOk_iff.1 hp
  have hi : i.val < t.ptable.length := i.isLt.trans_eq hlen.symm
  have hentry := tablePos_val (positionsOk_iff.2 hpos) hi
  simp [RawTables.config, RawTables.perm, Config.pEntry, hentry, hi]

/-- An entry of at most 15 survives the narrowing to four bits. -/
theorem RawTables.config_sboxEntry (hp : t.ptableOk = true) (hs : t.sboxOk = true) (r : BitVec 2)
    (k : BitVec 4) : (t.sbox[r.toNat]?.bind fun row => row[k.toNat]?)
      = some ((t.config hp sub b ok coh).sboxEntry r k).toNat := by
  obtain ⟨hrows, hrow⟩ := RawTables.sboxOk_iff.1 hs
  have hr : r.toNat < t.sbox.length := r.isLt.trans_eq hrows.symm
  obtain ⟨hcols, hle⟩ := hrow _ (List.getElem_mem hr)
  have hk : k.toNat < t.sbox[r.toNat].length := k.isLt.trans_eq hcols.symm
  have hentry : t.sbox[r.toNat][k.toNat] ≤ 15 := hle _ (List.getElem_mem hk)
  have hmod : t.sbox[r.toNat][k.toNat] % 16 = t.sbox[r.toNat][k.toNat] :=
    Nat.mod_eq_of_lt (by omega)
  simp [RawTables.config, Config.sboxEntry, hr, hk, hmod]

end Build

/-- Settles O21: the check spelled out table by table, and the entries of the configuration built. -/
theorem illFormedTablesAreRefused : Obligations.IllFormedTablesAreRefused := by
  intro t sub b ok coh
  refine ⟨?_, RawTables.build_of_not_wf, fun h => ?_⟩
  · rw [RawTables.wf_iff, RawTables.etableOk_iff, RawTables.ptableOk_iff, RawTables.sboxOk_iff]
  · obtain ⟨he, hp, hs⟩ := RawTables.wf_iff.1 h
    exact ⟨t.config hp sub b ok coh, RawTables.build_of_wf h hp, RawTables.config_eEntry hp he,
      RawTables.config_pEntry hp, RawTables.config_sboxEntry hp hs, rfl, rfl, rfl, rfl⟩

end Sys2Proof

/-! PROOFS. 10_state.md: the invariant of the machine, at reset and under every step. -/

namespace Sys2Proof.Machine

/-! ### The invariant at reset -/

/-- Any state with STATUS and PHASE as reset leaves them has the invariant, whatever SK and the
internal state hold (10_state.md rule R49). -/
theorem State.Inv.of_reset_status {c : Config} {s : State} (hs : s.status = Status.reset)
    (hp : s.phase = .idle) (hb : s.work.blk ≤ 2 ^ 29) (ho : s.work.lout.toNat ≤ 2 ^ 32)
    (hm : Memory.wf s.mem) : s.Inv c where
  busyPhase := by simp [hs, hp, Status.reset]
  busyQuiet := by simp [hs, Status.reset]
  errCode := by simp [hs, Status.reset]
  codeRange := by simp [hs, Status.reset]
  schedule := by simp [hs, Status.reset]
  keyed := by simp [hp, Phase.isBuffer]
  opcode := by simp [hp, opcodeIn]
  lastop := by simp [hs, Status.reset]
  progress := by simp [hp]
  buffer := by simp [hp, Phase.isBuffer]
  record := by simp [hp, Phase.isBuffer]
  blkRange := hb
  loutRange := ho
  memory := hm

/-- Settles O53: after reset STATUS is 0, PHASE is IDLE and nothing is in memory. -/
theorem invariantHoldsAtReset : Obligations.InvariantHoldsAtReset := fun _ =>
  .of_reset_status rfl rfl (by decide) (by decide) Memory.wf_nil

theorem State.Inv.resetEvent {c : Config} {s : State} (h : s.Inv c) : (s.resetEvent c).Inv c :=
  .of_reset_status rfl rfl (freeWork_ranges _).1 (freeWork_ranges _).2
    (State.memAfterReset_wf h.memory)

/-! ### The invariant under register writes and dropped commands -/

/-- DONE may fall and OVR may change at any time. -/
theorem State.Inv.setFlags {c : Config} {s : State} (h : s.Inv c) {done ovr : Bool}
    (hd : done = true → s.status.done = true) :
    State.Inv c { s with status := { s.status with done := done, ovr := ovr } } where
  busyPhase := h.busyPhase
  busyQuiet hb := by
    obtain ⟨hdone, hrest⟩ := h.busyQuiet hb
    exact ⟨by simpa [hdone] using hd, hrest⟩
  errCode := h.errCode
  codeRange := h.codeRange
  schedule := h.schedule
  keyed := h.keyed
  opcode := h.opcode
  lastop := h.lastop
  progress := h.progress
  buffer hp := by
    obtain ⟨hpad, hsrc, hdst, hblk, hdone, hout⟩ := h.buffer hp
    exact ⟨hpad, hsrc, hdst, hblk, hdone, hout⟩
  record hp := by
    obtain ⟨hlen, hhalves, hans, hout⟩ := h.record hp
    exact ⟨hlen, hhalves, hans, hout⟩
  blkRange := h.blkRange
  loutRange := h.loutRange
  memory := h.memory

theorem State.Inv.drop {c : Config} {s : State} (h : s.Inv c) : s.drop.Inv c :=
  h.setFlags (done := s.status.done) (ovr := true) id

theorem State.Inv.writeReg {c : Config} {s : State} (h : s.Inv c) (r : Reg) (w : Word) :
    (s.writeReg r w).Inv c := by
  by_cases hr : r = .status
  · subst hr
    exact h.setFlags fun hd => (Bool.and_eq_true_iff.1 hd).1
  · have hs : (s.writeReg r w).status = s.status := by
      cases r
      case status => exact absurd rfl hr
      all_goals rfl
    obtain ⟨hsk, hwork, hphase, hmem, -, -, -, -, -, hout, hblk, -⟩ := s.writeReg_frame r w
    exact h.congr hs hphase hsk hwork hblk hout (by cases r <;> rfl) (by cases r <;> rfl) hmem

/-! ### The invariant under acceptances -/

/-- The core is idle exactly when BUSY = 0. -/
theorem State.Inv.phase_idle {c : Config} {s : State} (h : s.Inv c) (hb : s.status.busy = false) :
    s.phase = .idle := by
  by_contra hp
  exact absurd (h.busyPhase.2 hp) (by simp [hb])

/-- A CMD write keeps the invariant if the command's own acceptance part does on an idle core. -/
theorem State.Inv.issue {c : Config} {s : State} (h : s.Inv c) {op : BitVec 8}
    {body : State → State} (hbody : (body (s.accept op)).Inv c) : (s.issue op body).Inv c := by
  cases hb : s.status.busy
  · rwa [State.issue_idle hb]
  · rw [State.issue_busy hb]
    exact h.drop

/-- A completion right at the acceptance, whatever else the acceptance part did to the registers. -/
theorem State.Inv.complete_of_same {c : Config} {s t : State} (h : s.Inv c) (code : ErrCode)
    (hsk : t.sk = s.sk) (hk : t.status.keyValid = s.status.keyValid) (hm : t.mem = s.mem) :
    (t.complete code).Inv c :=
  .complete code (by rw [hk, hsk]; exact h.schedule) (hm ▸ h.memory)

/-- A command that starts to run: what is left to show is about its own latches. -/
theorem State.Inv.start {c : Config} {s t : State} (h : s.Inv c) {op : BitVec 8}
    (hs : t.status = s.status.accept op) (hsk : t.sk = s.sk) (hm : t.mem = s.mem)
    (hp : t.phase ≠ .idle) (hop : t.work.lop = op) (hopc : opcodeIn t.phase t.work.ldir op)
    (hkey : t.phase = .rounds ∨ t.phase.isBuffer = true → s.status.keyValid = true)
    (hprog : t.phase = .rounds →
      merge (roundsFrom c t.sk t.work.ldir (16 - t.work.rnd.val) t.work.rnd.val
        (t.work.wl, t.work.wr)) = crypt c t.sk t.work.ldir t.work.lblk)
    (hbuf : t.phase.isBuffer = true → t.BufferOk) (hrec : t.phase.isBuffer = true → t.TakenOk c)
    (hblk : t.work.blk ≤ 2 ^ 29) (hlout : t.work.lout.toNat ≤ 2 ^ 32) : t.Inv c where
  busyPhase := by simp [hs, hp]
  busyQuiet := by simp [hs]
  errCode := by simp [hs]
  codeRange := by simp [hs]
  schedule := by
    rw [hs, hsk]
    exact h.schedule
  keyed := by
    rw [hs]
    exact hkey
  opcode := hop.symm ▸ hopc
  lastop _ := by rw [hs, hop, Status.accept_lastop]
  progress := hprog
  buffer := hbuf
  record := hrec
  blkRange := hblk
  loutRange := hlout
  memory := hm ▸ h.memory

theorem State.Inv.startKeygen {c : Config} {s : State} (h : s.Inv c) :
    (s.accept 0x01#8).startKeygen.Inv c :=
  h.start rfl rfl rfl nofun rfl rfl nofun nofun nofun nofun h.blkRange h.loutRange

/-- The opcode of a block command (30_encoding.md rule R83). -/
def blockOpcode : Dir → BitVec 8
  | .encode => 0x02#8
  | .decode => 0x03#8

/-- The opcode of a buffer command (30_encoding.md rule R83). -/
def bufferOpcode : Dir → BitVec 8
  | .encode => 0x04#8
  | .decode => 0x05#8

theorem State.Inv.startBlock {c : Config} {s : State} (h : s.Inv c) (d : Dir) :
    ((s.accept (blockOpcode d)).startBlock d).Inv c := by
  cases hk : s.status.keyValid
  · rw [State.startBlock_noKey (s := s.accept _) hk]
    exact h.complete_of_same _ rfl rfl rfl
  · rw [State.startBlock_keyed (s := s.accept _) hk]
    exact h.start rfl rfl rfl nofun rfl (by cases d <;> rfl) (fun _ => hk) (fun _ => rfl) nofun
      nofun h.blkRange h.loutRange

/-- An accepted buffer of at least one byte is in order, with block 0 the block to do. -/
theorem State.Inv.startBuffer {c : Config} {s : State} (h : s.Inv c) (d : Dir) :
    ((s.accept (bufferOpcode d)).startBuffer d).Inv c := by
  cases hk : s.status.keyValid
  · rw [State.startBuffer_noKey (s := s.accept _) hk]
    exact h.complete_of_same _ rfl rfl rfl
  cases hr : rangeError s.src s.dst s.len
  case true =>
    rw [State.startBuffer_range (s := s.accept _) hk hr]
    exact h.complete_of_same _ rfl rfl rfl
  by_cases hl : s.len.toNat = 0
  · rw [State.startBuffer_empty (s := s.accept _) hk hr hl]
    exact h.complete_of_same _ rfl rfl rfl
  · rw [State.startBuffer_ok (s := s.accept _) hk hr hl]
    obtain ⟨hlen, hsrc, hdst⟩ := rangeError_eq_false.1 hr
    have hlout := lout_toNat s.len
    have hpad := le_paddedLength s.len.toNat
    refine h.start rfl rfl rfl nofun rfl (by cases d <;> rfl) (fun _ => hk) nofun
      (fun _ => ⟨hlout, hsrc, ?_, ?_, rfl, ?_⟩)
      (fun _ => ⟨rfl, fun hne => absurd rfl hne, fun _ _ => nofun, fun _ _ => nofun⟩)
      (Nat.zero_le _) ?_
    · simpa only [State.accept_len, State.accept_dst, hlout] using hdst
    · have := paddedLength_eq_blocks s.len.toNat
      simp only [State.accept_len, hlout]
      omega
    · simp only [State.accept_len, hlout, BitVec.toNat_ofNat]
      exact Nat.mod_eq_of_lt (by omega)
    · simpa only [State.accept_len, hlout] using paddedLength_le s.len

theorem exec_inv {c : Config} {i : Instr} {s t : State} (h : s.Inv c) (ht : exec i s = .next t) :
    t.Inv c := by
  cases i <;> cases ht
  case setkey => exact h.issue h.startKeygen
  case encb => exact h.issue (h.startBlock .encode)
  case decb => exact h.issue (h.startBlock .decode)
  case encbuf => exact h.issue (h.startBuffer .encode)
  case decbuf => exact h.issue (h.startBuffer .decode)

theorem State.Inv.illegal {c : Config} {s : State} (h : s.Inv c) (w : Word) : (s.illegal w).Inv c :=
  h.issue (h.complete_of_same _ rfl rfl rfl)

/-- The ways a write to CMD can go (30_encoding.md rules R84 and R85). -/
theorem command_cases {w : Word} {s t : State} (h : command w s = .next t) :
    (∃ i, decode w = .ok i ∧ exec i s = .next t) ∨ t = s.illegal w := by
  unfold command at h
  split at h
  · rename_i i hi
    exact .inl ⟨i, hi, h⟩
  · exact .inr (Host.Outcome.next.inj h).symm

theorem command_inv {c : Config} {w : Word} {s t : State} (h : s.Inv c)
    (ht : command w s = .next t) : t.Inv c := by
  obtain ⟨i, -, hi⟩ | rfl := command_cases ht
  · exact exec_inv h hi
  · exact h.illegal w

/-! ### The invariant under core steps -/

theorem keygenStep_inv {c : Config} {s : State} (h : s.Inv c) : (keygenStep c s).Inv c :=
  .complete .none (fun _ => ⟨s.work.lkey, rfl⟩) h.memory

/-- The next round number, where this one is not the last. -/
theorem rnd_succ_val {n : Fin 16} (h : n ≠ 15) : (n + 1).val = n.val + 1 :=
  Fin.val_add_one_of_lt' (by omega)

/-- The round step does the first of the rounds that are left. -/
theorem State.roundsFrom_roundOnce (c : Config) (s : State) (m : Nat) :
    roundsFrom c s.sk s.work.ldir (m + 1) s.work.rnd.val (s.work.wl, s.work.wr)
      = roundsFrom c s.sk s.work.ldir m (s.work.rnd.val + 1) (s.roundOnce c) := by
  rw [roundsFrom_succ, Fin.ofNat_val_eq_self]
  rfl

theorem roundsStep_inv {c : Config} {s : State} (h : s.Inv c) (hp : s.phase = .rounds) :
    (roundsStep c s).Inv c := by
  by_cases hr : s.work.rnd = 15
  · rw [roundsStep_last hr]
    exact h.complete_of_same _ rfl rfl rfl
  · rw [roundsStep_more hr]
    have hprog := h.progress hp
    have hlast : s.work.rnd.val ≠ 15 := fun hv => hr (Fin.ext hv)
    rw [show 16 - s.work.rnd.val = (16 - (s.work.rnd.val + 1)) + 1 by omega,
      State.roundsFrom_roundOnce, ← rnd_succ_val hr] at hprog
    have hnb : ¬ s.phase.isBuffer = true := by simp [hp, Phase.isBuffer]
    exact { h with
      progress := fun _ => hprog
      buffer := fun hb => absurd hb hnb
      record := fun hb => absurd hb hnb }

/-- LOP is the same in the three phases of a buffer command. -/
theorem opcodeIn_buffer {p : Phase} (hp : p.isBuffer = true) (d : Dir) (op : BitVec 8) :
    opcodeIn p d op ↔ op = bufferOpcode d := by
  cases p
  case bufRead | bufRounds | bufWrite => cases d <;> rfl
  all_goals cases hp

/-- A step inside a buffer command: what is left to show is about BLK, the record and memory. -/
theorem State.Inv.advance {c : Config} {s t : State} (h : s.Inv c) (hps : s.phase.isBuffer = true)
    (hpt : t.phase.isBuffer = true) (hs : t.status = s.status) (hsk : t.sk = s.sk)
    (hw : t.work = { s.work with
      wl := t.work.wl, wr := t.work.wr, rnd := t.work.rnd, blk := t.work.blk })
    (ho : t.outlen = s.outlen) (hblk : t.work.blk < s.work.lout.toNat / 8)
    (hdone : t.blkdone.toNat = t.work.blk) (hrec : t.TakenOk c) (hm : Memory.wf t.mem) :
    t.Inv c := by
  have hlout : t.work.lout = s.work.lout := by rw [hw]
  have hbusy : s.status.busy = true :=
    h.busyPhase.2 fun he => by simp [he, Phase.isBuffer] at hps
  obtain ⟨hpad, hsrc, hdst, -, -, hout⟩ := h.buffer hps
  have hrange := h.loutRange
  exact {
    busyPhase := by
      have hne : t.phase ≠ .idle := fun he => by simp [he, Phase.isBuffer] at hpt
      rw [hs, hbusy]
      exact ⟨fun _ => hne, fun _ => rfl⟩
    busyQuiet := hs ▸ h.busyQuiet
    errCode := hs ▸ h.errCode
    codeRange := hs ▸ h.codeRange
    schedule := hs ▸ hsk ▸ h.schedule
    keyed := fun _ => hs ▸ h.keyed (.inr hps)
    opcode := by
      rw [hw]
      exact (opcodeIn_buffer hpt _ _).2 ((opcodeIn_buffer hps _ _).1 h.opcode)
    lastop := by
      rw [hs, hw]
      exact h.lastop
    progress := fun he => by simp [he, Phase.isBuffer] at hpt
    buffer := fun _ => ⟨by rw [hw]; exact hpad, by rw [hw]; exact hsrc, by rw [hw]; exact hdst,
      by rw [hlout]; exact hblk, hdone, by rw [ho, hlout]; exact hout⟩
    record := fun _ => hrec
    blkRange := by omega
    loutRange := by rw [hlout]; exact hrange
    memory := hm }

/-! ### The record of the input blocks under core steps -/

/-- Reading block `BLK` adds it to the record, and no round on it is done yet. -/
theorem State.TakenOk.read {c : Config} {s : State} (h : s.TakenOk c) (hp : s.phase = .bufRead)
    (v : Block) :
    State.TakenOk c { s with
      work := { s.work with wl := hi v, wr := lo v, rnd := 0 }
      phase := .bufRounds
      taken := s.taken ++ [v]
      drawn := s.drawn + 8 } := by
  obtain ⟨hlen, -, hans, hout⟩ := h
  have hlen : s.taken.length = s.work.blk := by simpa [hp] using hlen
  refine ⟨by simp [hlen], fun _ => ?_, hans, fun k j hk hj hr => ?_⟩
  · show (hi v, lo v) = split ((s.taken ++ [v]).getD s.work.blk 0#64)
    simp [← hlen, split]
  · have hk' : k < s.taken.length := hlen.symm ▸ hk
    show _ = blockByte (crypt c s.sk s.work.ldir ((s.taken ++ [v]).getD k 0#64)) j
    rw [List.getD_append _ _ _ _ hk']
    exact hout k j hk hj hr

/-- One more round on block `BLK`: `p` is the next phase and `n` the next round counter. -/
theorem State.TakenOk.round {c : Config} {s : State} (h : s.TakenOk c) (hp : s.phase = .bufRounds)
    {p : Phase} {n : Fin 16} (hpn : p = .bufRounds ∧ n.val = s.work.rnd.val + 1
      ∨ p = .bufWrite ∧ s.work.rnd.val = 15) :
    State.TakenOk c { s with
      work := { s.work with wl := (s.roundOnce c).1, wr := (s.roundOnce c).2, rnd := n }
      phase := p } := by
  obtain ⟨hlen, hhalves, hans, hout⟩ := h
  have hdone : s.roundsDone = s.work.rnd.val := by simp [State.roundsDone, hp]
  have hnext : State.roundsDone { s with
      work := { s.work with wl := (s.roundOnce c).1, wr := (s.roundOnce c).2, rnd := n }
      phase := p } = s.work.rnd.val + 1 := by
    obtain ⟨rfl, hn⟩ | ⟨rfl, hn⟩ := hpn
    · exact hn
    · exact (congrArg (· + 1) hn).symm
  have hne : p ≠ .bufRead := by obtain ⟨rfl, -⟩ | ⟨rfl, -⟩ := hpn <;> decide
  refine ⟨?_, fun _ => ?_, hans, hout⟩
  · simpa [hp, hne] using hlen
  · rw [hnext, roundsFrom_last, Nat.zero_add, Fin.ofNat_val_eq_self]
    have hhalves := hhalves (by simp [hp])
    rw [hdone] at hhalves
    exact congrArg (oneRound c (subkeyAt s.sk s.work.ldir s.work.rnd)) hhalves

/-- Writing bytes without a failure: the platform has answered every one of them. -/
theorem State.writeBytes_answered {c : Config} {o : Block} {js : List Nat} {s t : State}
    (h : State.writeBytes c o js s = (t, none)) {j : Nat} (hj : j ∈ js) :
    byteAddr s.work.ldst s.work.blk j < 2 ^ 32
      ∧ c.memOk (BitVec.ofNat 32 (byteAddr s.work.ldst s.work.blk j)) .write = true := by
  induction js generalizing s with
  | nil => exact absurd hj (by simp)
  | cons i js ih =>
    unfold State.writeBytes at h
    split at h
    · rename_i s' hs'
      obtain ⟨hlt, hok, rfl⟩ := State.dmaWrite_ok hs'
      obtain rfl | hj := List.mem_cons.1 hj
      · exact ⟨hlt, hok⟩
      · have := ih h hj
        exact this
    · cases h

/-- The output block of a block whose rounds are done is its transform. -/
theorem State.TakenOk.output {c : Config} {s : State} (h : s.TakenOk c) (hp : s.phase = .bufWrite) :
    merge (s.work.wl, s.work.wr)
      = crypt c s.sk s.work.ldir (s.taken.getD s.work.blk 0#64) := by
  rw [h.halves (by simp [hp]), State.roundsDone, hp]
  rfl

/-- Writing the output block to its end makes block `BLK` one of the blocks written. -/
theorem State.TakenOk.written {c : Config} {s u : State} (h : s.TakenOk c)
    (hp : s.phase = .bufWrite) (hm : Memory.wf s.mem)
    (hu : State.writeBytes c (merge (s.work.wl, s.work.wr)) byteOrder s = (u, none)) (b : Word)
    (d : Nat) :
    State.TakenOk c { u with
      blkdone := b
      work := { u.work with blk := u.work.blk + 1 }
      phase := .bufRead
      drawn := d } := by
  have hanswered := fun j (hj : j < 8) => State.writeBytes_answered hu (mem_byteOrder.2 hj)
  have hlen : s.taken.length = s.work.blk + 1 := by simpa [hp] using h.length
  rw [State.writeBytes_frame hu]
  refine ⟨hlen, fun hne => absurd rfl hne, fun k j hk hj => ?_, fun k j hk hj hr => ?_⟩
  · obtain hk | rfl := Nat.lt_succ_iff_lt_or_eq.1 hk
    · exact h.answered k j hk hj
    · exact hanswered j hj
  · show Memory.read u.mem _ = blockByte (crypt c s.sk s.work.ldir (s.taken.getD k 0#64)) j
    obtain hk | rfl := Nat.lt_succ_iff_lt_or_eq.1 hk
    · rw [← h.outputs k j hk hj hr]
      exact State.writeBytes_read_other hm hu fun i hi =>
        byteAddr_ne hj (mem_byteOrder.1 hi) (Nat.ne_of_lt hk)
    · rw [← h.output hp]
      exact (State.writeBytes_read hm (by decide) hu (mem_byteOrder.2 hj)).2
        (fun i hi => hanswered i (mem_byteOrder.1 hi)) hr

/-! ### The invariant under every step -/

theorem bufReadStep_inv {c : Config} {s t : State} (h : s.Inv c) (hp : s.phase = .bufRead)
    (ht : bufReadStep c s = .next t) : t.Inv c := by
  have hb : s.phase.isBuffer = true := by rw [hp]; rfl
  obtain ⟨v, -, rfl⟩ | ⟨-, rfl⟩ := bufReadStep_cases ht
  · exact h.advance hb rfl rfl rfl rfl rfl (h.buffer hb).block (h.buffer hb).done
      ((h.record hb).read hp v) h.memory
  · exact h.complete_of_same _ rfl rfl rfl

theorem bufRoundsStep_inv {c : Config} {s : State} (h : s.Inv c) (hp : s.phase = .bufRounds) :
    (bufRoundsStep c s).Inv c := by
  have hb : s.phase.isBuffer = true := by rw [hp]; rfl
  by_cases hr : s.work.rnd = 15
  · rw [bufRoundsStep_last hr]
    exact h.advance hb rfl rfl rfl rfl rfl (h.buffer hb).block (h.buffer hb).done
      ((h.record hb).round hp (.inr ⟨rfl, congrArg Fin.val hr⟩)) h.memory
  · rw [bufRoundsStep_more hr]
    exact h.advance hb hb rfl rfl rfl rfl (h.buffer hb).block (h.buffer hb).done
      ((h.record hb).round hp (.inl ⟨hp, rnd_succ_val hr⟩)) h.memory

/-- After the last block the command completes; after any other block the next one is to be read. -/
theorem State.Inv.blockWritten {c : Config} {s u : State} (h : s.Inv c)
    (hb : s.phase.isBuffer = true)
    (hu : u = { s with mem := u.mem, stale := u.stale, drawn := u.drawn })
    (hm : Memory.wf u.mem) (hrec : State.TakenOk c { u with
      blkdone := u.blkdone + 1#32
      work := { u.work with blk := u.work.blk + 1 }
      phase := .bufRead }) : u.blockWritten.Inv c := by
  have hsk : u.sk = s.sk := by rw [hu]
  have hstatus : u.status = s.status := by rw [hu]
  by_cases hlast : u.work.blk + 1 = u.work.lout.toNat / 8
  · rw [State.blockWritten_last hlast]
    exact .complete _ (hsk ▸ hstatus ▸ h.schedule) hm
  · rw [State.blockWritten_more hlast]
    obtain ⟨-, -, -, hblk, hdone, -⟩ := h.buffer hb
    have hrange := h.loutRange
    have hwork : u.work = s.work := by rw [hu]
    have hcount : u.blkdone = s.blkdone := by rw [hu]
    have hout : u.outlen = s.outlen := by rw [hu]
    rw [hwork] at hlast
    refine h.advance hb rfl hstatus hsk ?_ hout ?_ ?_ hrec hm
    · rw [hwork]
    · rw [hwork]
      exact Nat.lt_of_le_of_ne hblk hlast
    · rw [hwork, hcount, BitVec.toNat_add, hdone]
      exact Nat.mod_eq_of_lt (show s.work.blk + 1 < 2 ^ 32 by omega)

theorem bufWriteStep_inv {c : Config} {s t : State} (h : s.Inv c) (hp : s.phase = .bufWrite)
    (ht : bufWriteStep c s = .next t) : t.Inv c := by
  have hb : s.phase.isBuffer = true := by rw [hp]; rfl
  obtain ⟨u, ⟨hu, rfl⟩ | ⟨hu, rfl⟩⟩ := bufWriteStep_cases ht
  all_goals
    have hf := State.writeBytes_frame hu
    have hm := State.writeBytes_wf h.memory hu
  · exact h.blockWritten hb (by rw [hf]) hm ((h.record hb).written hp h.memory hu _ _)
  · exact .complete _ (by rw [hf]; exact h.schedule) hm

theorem coreStep_inv {c : Config} {s t : State} (h : s.Inv c) (ht : coreStep c s = .next t) :
    t.Inv c := by
  cases hp : s.phase
  case idle =>
    rw [coreStep_idle hp] at ht
    cases ht
    exact h
  case keygen =>
    rw [coreStep_keygen hp] at ht
    cases ht
    exact keygenStep_inv h
  case rounds =>
    rw [coreStep_rounds hp] at ht
    cases ht
    exact roundsStep_inv h hp
  case bufRead => exact bufReadStep_inv h hp (coreStep_bufRead hp ▸ ht)
  case bufRounds =>
    rw [coreStep_bufRounds hp] at ht
    cases ht
    exact bufRoundsStep_inv h hp
  case bufWrite => exact bufWriteStep_inv h hp (coreStep_bufWrite hp ▸ ht)

/-- The invariant does not speak of the outstanding events, the last reply or the values drawn. -/
theorem State.Inv.outside {c : Config} {s : State} (h : s.Inv c) (l : List Event) (q : Reply)
    (d : Nat) : State.Inv c { s with host := l, reply := q, drawn := d } :=
  h.congr rfl rfl rfl rfl rfl rfl rfl rfl rfl

theorem eventStep_inv {c : Config} {e : Event} {s t : State} (h : s.Inv c)
    (ht : eventStep c e s = .next t) : t.Inv c := by
  cases e
  case wr offset size w =>
    obtain ⟨-, -, ⟨-, hcmd⟩ | ⟨-, rfl⟩⟩ := busWrite_cases ht
    · exact command_inv h hcmd
    · exact h.writeReg _ w
  case rd offset size =>
    obtain ⟨-, -, rfl⟩ := busRead_cases ht
    exact h.outside _ _ _
  case poll offset mask value =>
    obtain ⟨-, ⟨-, rfl⟩ | ⟨-, hcore⟩⟩ := pollOnce_cases ht
    · exact h.outside _ _ _
    · exact coreStep_inv (h.outside _ _ _) hcore
  case core => exact coreStep_inv h ht
  case memWrite a v =>
    cases ht
    exact State.memWrite_inv h a v
  case memRead a =>
    cases ht
    exact h.outside _ _ _
  case masterWrite a v =>
    cases ht
    exact State.masterWrite_inv h a v
  case masterRead a =>
    cases ht
    exact h.outside _ _ _
  case clean a =>
    cases ht
    exact State.clean_inv h a
  case invalidate a =>
    cases ht
    exact State.invalidate_inv h a
  case reset =>
    cases ht
    exact h.resetEvent

theorem stepWith_inv {c : Config} {s t : State} (h : s.Inv c) (ht : stepWith c s = .next t) :
    t.Inv c := by
  cases hh : s.host with
  | nil => exact coreStep_inv h (stepWith_nil hh ▸ ht)
  | cons e rest => exact eventStep_inv (h.outside rest s.reply s.drawn) (stepWith_cons hh ▸ ht)

/-- Settles O54: each event and each core step keeps the invariant. -/
theorem everyStepKeepsTheInvariant : Obligations.EveryStepKeepsTheInvariant :=
  fun _ _ => stepWith_inv

end Sys2Proof.Machine

/-! PROOFS. 10_state.md: the register window, reads and writes of one register. -/

namespace Sys2Proof.Machine

/-! ### The offsets of the window -/

/-- From 0x3C on every offset is reserved (10_state.md rule R22). -/
theorem regAt_of_ge {offset : BitVec 8} (h : 0x3C ≤ offset.toNat) : regAt offset = .reserved := by
  unfold regAt
  split
  case h_16 => rfl
  all_goals omega

/-- A register stands at its own offset alone. -/
theorem offset_regAt {offset : BitVec 8} (h : regAt offset ≠ .reserved) :
    (regAt offset).offset = offset := by
  unfold regAt at h ⊢
  split at h
  case h_16 => exact absurd rfl h
  all_goals
    rename_i ho
    exact (BitVec.eq_of_toNat_eq ho).symm

/-- Two offsets of one register are the same, or reserved. -/
theorem regAt_inj {a b : BitVec 8} (h : regAt a = regAt b) : a = b ∨ regAt b = .reserved := by
  by_cases hr : regAt b = .reserved
  · exact .inr hr
  · left
    rw [← offset_regAt hr, ← h, offset_regAt (h ▸ hr)]

theorem regAt_ne_cmd {offset : BitVec 8} (h : offset ≠ 0x08#8) : regAt offset ≠ .cmd := fun hr =>
  h (by rw [← offset_regAt (hr ▸ nofun : regAt offset ≠ .reserved), hr]; rfl)

/-! ### The words of STATUS, CTRL and CAPS -/

/-- The bits of a STATUS read, field by field (10_state.md rule R28). -/
theorem Status.word_getLsbD (t : Status) (i : Nat) :
    t.word.getLsbD i =
      if i = 0 then t.busy else if i = 1 then t.done else if i = 2 then t.err
      else if i = 3 then t.keyValid else if i = 4 then t.ovr else if i < 8 then false
      else if i < 12 then t.errcode.getLsbD (i - 8) else if i < 16 then false
      else if i < 24 then t.lastop.getLsbD (i - 16) else false := by
  simp only [Status.word, BitVec.getLsbD_append, BitVec.getLsbD_ofBool, BitVec.getLsbD_zero]
  by_cases h : i < 24
  · interval_cases i <;> rfl
  · repeat rw [if_neg (by omega)]

theorem Status.word_reserved (t : Status) {i : Nat}
    (h : 5 ≤ i ∧ i < 8 ∨ 12 ≤ i ∧ i < 16 ∨ 24 ≤ i) : t.word.getLsbD i = false := by
  rw [Status.word_getLsbD]
  repeat rw [if_neg (by omega)]
  split
  · rfl
  · rw [if_neg (by omega)]
    split
    · rfl
    · rw [if_neg (by omega)]

/-- A field of the word is read off its bits. -/
theorem Status.word_field {t : Status} {start n : Nat} {f : BitVec n}
    (h : ∀ i, i < n → t.word.getLsbD (start + i) = f.getLsbD i) :
    t.word.extractLsb' start n = f := by
  apply BitVec.eq_of_getLsbD_eq
  intro i hi
  rw [BitVec.getLsbD_extractLsb', decide_eq_true hi, Bool.true_and, h i hi]

theorem Status.word_errcode (t : Status) : t.word.extractLsb' 8 4 = t.errcode :=
  Status.word_field fun i hi => by
    rw [Status.word_getLsbD]
    repeat rw [if_neg (by omega)]
    rw [if_pos (by omega), Nat.add_sub_cancel_left]

theorem Status.word_lastop (t : Status) : t.word.extractLsb' 16 8 = t.lastop :=
  Status.word_field fun i hi => by
    rw [Status.word_getLsbD]
    repeat rw [if_neg (by omega)]
    rw [if_pos (by omega), Nat.add_sub_cancel_left]

/-- A field of reserved bits alone reads 0. -/
theorem Status.word_reserved_field (t : Status) {start n : Nat}
    (h : ∀ i, i < n →
      5 ≤ start + i ∧ start + i < 8 ∨ 12 ≤ start + i ∧ start + i < 16 ∨ 24 ≤ start + i) :
    t.word.extractLsb' start n = 0#n :=
  Status.word_field fun i hi => by rw [t.word_reserved (h i hi), BitVec.getLsbD_zero]

/-- Settles O45: the flags are read off the bits of the word, and the fields bit by bit. -/
theorem statusFieldsStandAtTheirBits : Obligations.StatusFieldsStandAtTheirBits := fun t =>
  ⟨t.word_getLsbD 0, t.word_getLsbD 1, t.word_getLsbD 2, t.word_getLsbD 3, t.word_getLsbD 4,
    t.word_errcode, t.word_lastop, t.word_reserved_field (by omega),
    t.word_reserved_field (by omega), t.word_reserved_field (by omega)⟩

/-- The two bits that a write to STATUS clears (10_state.md rule R29). -/
theorem w1cMask_getLsbD : ∀ i : Fin 32, (0x00000012#32).getLsbD i = decide (i = 1 ∨ i = 4) := by
  decide

/-- A write to STATUS clears its W1C bits in the word and no other bit. -/
theorem Status.write_word (t : Status) (w : Word) :
    (t.write w).word = t.word &&& ~~~(w &&& 0x00000012#32) := by
  apply BitVec.eq_of_getLsbD_eq
  intro i hi
  have hmask := w1cMask_getLsbD ⟨i, hi⟩
  simp only [Fin.ext_iff] at hmask
  simp only [BitVec.getLsbD_and, BitVec.getLsbD_not, hi, decide_true, Bool.true_and, hmask,
    Status.word_getLsbD]
  by_cases h1 : i = 1
  · simp [h1]
  · by_cases h4 : i = 4
    · simp [h4]
    · simp [h1, h4]

theorem ctrlWord_getLsbD (b : Bool) (i : Nat) :
    (ctrlWord b).getLsbD i = (decide (i = 0) && b) := by
  simp only [ctrlWord, BitVec.getLsbD_append, BitVec.getLsbD_ofBool, BitVec.getLsbD_zero]
  split
  · rfl
  · rw [decide_eq_false (by omega), Bool.false_and]

/-- A write to CTRL keeps bit 0 (10_state.md rule R26). -/
theorem ctrlWord_bit_zero (w : Word) : ctrlWord (w.getLsbD 0) = w &&& 1#32 := by
  apply BitVec.eq_of_getLsbD_eq
  intro i hi
  rw [ctrlWord_getLsbD, BitVec.getLsbD_and, BitVec.getLsbD_one]
  by_cases h : i = 0
  · subst h; simp
  · simp [h]

theorem ctrlWord_eq (b : Bool) : ctrlWord b = if b then 1#32 else 0#32 := by cases b <;> rfl

theorem capsWord_eq : capsWord = 0x40300810#32 := by decide

/-- Settles O42: a read gives the constant, and the write has no effect. -/
theorem capsIsConstant : Obligations.CapsIsConstant := by
  intro s w
  have hread : s.readReg .caps = 0x40300810#32 := capsWord_eq
  rw [hread]
  exact ⟨rfl, rfl, by decide⟩

/-! ### One register after a write -/

/-- What a register reads after a write to it (10_state.md rules R23, R24, R26 and R29). -/
theorem State.readReg_writeReg_same (s : State) (r : Reg) (w : Word) :
    (s.writeReg r w).readReg r = readAfterWrite r w (s.readReg r) := by
  cases r
  case ctrl => exact ctrlWord_bit_zero w
  case status => exact s.status.write_word w
  all_goals rfl

theorem State.readReg_writeReg_other (s : State) {r q : Reg} (w : Word) (h : q ≠ r) :
    (s.writeReg r w).readReg q = s.readReg q := by
  cases r <;> cases q <;> simp [State.writeReg, State.readReg] at h ⊢

/-! ### A register access as a step -/

theorem busRead_aligned {offset : BitVec 8} (ho : offset.toNat % 4 = 0) (s : State) :
    busRead offset 4 s = .next { s with reply := .word (s.readReg (regAt offset)) } := by
  simp [busRead, ho]

theorem busRead_misaligned {offset : BitVec 8} (ho : offset.toNat % 4 ≠ 0) (s : State) :
    busRead offset 4 s = .refused .accessMisaligned := by simp [busRead, ho]

theorem busRead_size {size : Nat} (h : size ≠ 4) (offset : BitVec 8) (s : State) :
    busRead offset size s = .refused .accessSize := by simp [busRead, h]

theorem busWrite_aligned {offset : BitVec 8} (ho : offset.toNat % 4 = 0)
    (hr : regAt offset ≠ .cmd) (w : Word) (s : State) :
    busWrite offset 4 w s = .next (s.writeReg (regAt offset) w) := by
  simp only [busWrite, ho, if_true]

theorem busWrite_cmd {offset : BitVec 8} (ho : offset.toNat % 4 = 0)
    (hr : regAt offset = .cmd) (w : Word) (s : State) :
    busWrite offset 4 w s = command w s := by
  simp only [busWrite, ho, hr, if_true]

theorem busWrite_misaligned {offset : BitVec 8} (ho : offset.toNat % 4 ≠ 0) (w : Word) (s : State) :
    busWrite offset 4 w s = .refused .accessMisaligned := by simp [busWrite, ho]

theorem busWrite_size {size : Nat} (h : size ≠ 4) (offset : BitVec 8) (w : Word) (s : State) :
    busWrite offset size w s = .refused .accessSize := by simp [busWrite, h]

/-- Every write to CMD answers a next state (60_exceptions.md rule R208). -/
theorem command_eq_next (w : Word) (s : State) : ∃ t, command w s = .next t := by
  unfold command
  split
  · exact exec_eq_next _ s
  · exact ⟨_, rfl⟩

theorem command_of_decode {w : Word} {i : Instr} (h : decode w = .ok i) (s : State) :
    command w s = exec i s := by simp [command, h]

theorem stepWith_rd {c : Config} {s : State} {offset : BitVec 8} {size : Nat} {rest : List Event}
    (h : s.host = .rd offset size :: rest) :
    stepWith c s = busRead offset size { s with host := rest } := by
  rw [stepWith_cons h]
  rfl

theorem stepWith_wr {c : Config} {s : State} {offset : BitVec 8} {size : Nat} {w : Word}
    {rest : List Event} (h : s.host = .wr offset size w :: rest) :
    stepWith c s = busWrite offset size w { s with host := rest } := by
  rw [stepWith_cons h]
  rfl

/-- An aligned 32-bit read answers the register's value and changes nothing else. -/
theorem step_read {s : State} {offset : BitVec 8} {rest : List Event}
    (h : s.host = .rd offset 4 :: rest) (ho : offset.toNat % 4 = 0) :
    step s = .next { s with host := rest, reply := .word (s.readReg (regAt offset)) } := by
  have hread : State.readReg { s with host := rest } (regAt offset) = s.readReg (regAt offset) :=
    s.readReg_host rest s.reply _
  rw [step, stepWith_rd h, busRead_aligned ho, hread]

/-- An aligned 32-bit write to another register than CMD is that register's write. -/
theorem step_write {s : State} {offset : BitVec 8} {w : Word} {rest : List Event}
    (h : s.host = .wr offset 4 w :: rest) (ho : offset.toNat % 4 = 0) (hr : regAt offset ≠ .cmd) :
    step s = .next (State.writeReg (regAt offset) w { s with host := rest }) := by
  rw [step, stepWith_wr h, busWrite_aligned ho hr]

/-- Settles O40: the value is read off the register at the offset. -/
theorem registerReadHasNoSideEffect : Obligations.RegisterReadHasNoSideEffect := by
  intro s offset rest h ho
  refine ⟨_, step_read h ho, ?_, ?_, ?_, ?_, ?_, ?_, ?_, ?_, ?_, ?_, ?_, ?_, ?_, ?_, ?_,
    fun hge => ?_⟩
  case refine_16 =>
    rw [regAt_of_ge hge]
    rfl
  all_goals rintro rfl
  · exact capsWord_eq
  · exact ctrlWord_eq s.irqEn
  · rfl
  · rfl
  · exact (lo_join _ _).symm
  · exact (hi_join _ _).symm
  · exact (lo_join _ _).symm
  · exact (hi_join _ _).symm
  · exact (lo_join _ _).symm
  · exact (hi_join _ _).symm
  all_goals rfl

/-- Settles O41: the register written reads by its rule, and no two offsets but reserved ones are
one register. -/
theorem registerWriteChangesItsRegisterAlone :
    Obligations.RegisterWriteChangesItsRegisterAlone := by
  intro s offset w rest h ho hne
  obtain ⟨hsk, hwork, hphase, hmem, hhost, hreply, -⟩ :=
    State.writeReg_frame { s with host := rest } (regAt offset) w
  have hread (q : Reg) : State.readReg { s with host := rest } q = s.readReg q :=
    s.readReg_host rest s.reply q
  refine ⟨_, step_write h ho (regAt_ne_cmd hne), hhost, ⟨hsk, hwork, hphase, hmem⟩, hreply,
    fun other _ => ?_⟩
  by_cases hother : other = offset
  · rw [if_pos hother, hother, State.readReg_writeReg_same, hread]
  · rw [if_neg hother, ← hread]
    by_cases hreg : regAt other = regAt offset
    · have hres : regAt offset = .reserved := (regAt_inj hreg).resolve_left hother
      rw [hres]
      rfl
    · exact State.readReg_writeReg_other _ w hreg

/-- Settles O43: the reserved register, and the reserved bits of CTRL, STATUS and CMD. -/
theorem reservedSpaceReadsZeroAndIgnoresWrites :
    Obligations.ReservedSpaceReadsZeroAndIgnoresWrites := by
  refine ⟨fun s offset w rest hge ho => ⟨fun h => ?_, fun h => ?_⟩, fun s i hi => ?_,
    fun s v w h => ?_, fun s i => s.status.word_reserved, fun s w h1 h4 => ?_, fun w h i => ?_⟩
  · rw [step_read h ho, regAt_of_ge hge]
    rfl
  · rw [step_write h ho (regAt_of_ge hge ▸ nofun), regAt_of_ge hge]
    rfl
  · show (ctrlWord s.irqEn).getLsbD i = false
    rw [ctrlWord_getLsbD, decide_eq_false (by omega), Bool.false_and]
  · rw [State.writeReg, State.writeReg, h 0 (by omega)]
  · simp only [State.writeReg, Status.write, h1, h4, Bool.not_false, Bool.and_true]
  · simp [decode, rsvField, h]

/-- Settles O44: STATUS at 0x0C takes the write by its own rule. -/
theorem statusWriteClearsDoneAndOvr : Obligations.StatusWriteClearsDoneAndOvr := by
  intro s w rest h
  refine ⟨_, step_write h rfl nofun, rfl, ?_, ?_, rfl, rfl, rfl, rfl, rfl⟩
  · show (s.status.done && !w.getLsbD 1) = _
    cases w.getLsbD 1 <;> simp
  · show (s.status.ovr && !w.getLsbD 4) = _
    cases w.getLsbD 4 <;> simp

/-- Every aligned 32-bit write answers a next state. -/
theorem busWrite_aligned_next {offset : BitVec 8} (ho : offset.toNat % 4 = 0) (w : Word)
    (s : State) : ∃ t, busWrite offset 4 w s = .next t := by
  by_cases hr : regAt offset = .cmd
  · rw [busWrite_cmd ho hr]
    exact command_eq_next w s
  · exact ⟨_, busWrite_aligned ho hr w s⟩

/-- Settles O46: the size is checked before the alignment, and what passes both is served. -/
theorem onlyAlignedWordAccessesAreServed : Obligations.OnlyAlignedWordAccessesAreServed := by
  intro s offset size rest
  refine ⟨fun w h => ?_, fun h => ?_⟩
  · rw [step, stepWith_wr h]
    refine ⟨fun hs => busWrite_size hs _ _ _, ?_, ?_⟩ <;> rintro rfl ho
    · exact busWrite_misaligned ho _ _
    · exact busWrite_aligned_next ho _ _
  · rw [step, stepWith_rd h]
    refine ⟨fun hs => busRead_size hs _ _, ?_, ?_⟩ <;> rintro rfl ho
    · exact busRead_misaligned ho _
    · exact ⟨_, busRead_aligned ho _⟩

/-- Settles O3: the write to CMD runs the command that its word decodes to. -/
theorem stepRunsTheDecodedCommand : Obligations.StepRunsTheDecodedCommand := by
  intro s w i rest h hd
  rw [step, stepWith_cmd h, command_of_decode hd]

/-! ### The interrupt line and the state after reset -/

/-- Settles O47: the line is the conjunction of IRQ_EN and DONE after every change of either. -/
theorem irqFollowsEnableAndDone : Obligations.IrqFollowsEnableAndDone := by
  refine ⟨rfl, fun s => ?_, fun s code => ?_, fun s op => ?_, fun s w => rfl, fun s w => ?_⟩
  · exact Bool.and_eq_true_iff
  · exact Bool.and_true s.irqEn
  · exact Bool.and_false s.irqEn
  · exact (Bool.and_assoc _ _ _).symm

theorem State.reset_readReg {r : Reg} (h : r ≠ .caps) : State.reset.readReg r = 0#32 := by
  cases r
  case caps => exact absurd rfl h
  all_goals rfl

theorem regAt_eq_caps {offset : BitVec 8} (h : regAt offset = .caps) : offset = 0x00#8 := by
  rw [← offset_regAt (h ▸ nofun : regAt offset ≠ .reserved), h]
  rfl

/-- Settles O49: CAPS alone reads other than 0. -/
theorem resetStateIsAsTheSpecSays : Obligations.ResetStateIsAsTheSpecSays := by
  refine ⟨fun offset _ => ?_, rfl, rfl, rfl⟩
  by_cases h : offset = 0x00#8
  · rw [if_pos h, h]
    exact capsWord_eq
  · rw [if_neg h]
    exact State.reset_readReg fun hr => h (regAt_eq_caps hr)

end Sys2Proof.Machine

/-! PROOFS. 10_state.md: what a core step leaves unchanged, and what it does not read (rules R21 and
R39). -/

namespace Sys2Proof.Machine

/-! ### The frame of a core step -/

theorem State.blockWritten_sameHostRegisters (s : State) : SameHostRegisters s s.blockWritten := by
  unfold State.blockWritten
  dsimp only
  split <;> exact ⟨rfl, rfl, rfl, rfl, rfl, rfl, rfl, rfl⟩

/-- Settles O38, phase by phase. -/
theorem coreStepFrame : Obligations.CoreStepFrame := by
  intro c s t ht
  cases hp : s.phase
  case idle =>
    rw [coreStep_idle hp] at ht
    cases ht
    simp [SameHostRegisters, SameSchedule, SameDout, SameMemory]
  case keygen =>
    rw [coreStep_keygen hp] at ht
    cases ht
    simp [keygenStep, SameHostRegisters, SameDout, SameMemory]
  case rounds =>
    rw [coreStep_rounds hp] at ht
    cases ht
    by_cases hr : s.work.rnd = 15
    · simp [roundsStep_last hr, SameHostRegisters, SameSchedule, SameMemory]
    · simp [roundsStep_more hr, SameHostRegisters, SameSchedule, SameMemory]
  case bufRead =>
    obtain ⟨v, -, rfl⟩ | ⟨-, rfl⟩ := bufReadStep_cases (coreStep_bufRead hp ▸ ht)
    all_goals simp [SameHostRegisters, SameSchedule, SameDout, SameMemory]
  case bufRounds =>
    rw [coreStep_bufRounds hp] at ht
    cases ht
    by_cases hr : s.work.rnd = 15
    · simp [bufRoundsStep_last hr, SameHostRegisters, SameSchedule, SameDout, SameMemory]
    · simp [bufRoundsStep_more hr, SameHostRegisters, SameSchedule, SameDout, SameMemory]
  case bufWrite =>
    obtain ⟨u, ⟨hu, rfl⟩ | ⟨hu, rfl⟩⟩ := bufWriteStep_cases (coreStep_bufWrite hp ▸ ht)
    all_goals
      obtain ⟨m, l, rfl⟩ : ∃ m l, u = { s with mem := m, stale := l } :=
        ⟨_, _, State.writeBytes_frame hu⟩
    · obtain ⟨-, hsk, hkey, hlast, hovr, hlo, hhi, hout, hhost, hreply, hdirty, -⟩ :=
        State.blockWritten_frame { s with mem := m, stale := l, drawn := s.drawn + 8 }
      exact ⟨State.blockWritten_sameHostRegisters _, hout, hovr, hlast, hhost, hreply, hdirty,
        fun _ => ⟨hsk, hkey⟩, fun _ => ⟨hlo, hhi⟩, fun hne => absurd rfl hne⟩
    · simp [SameHostRegisters, SameSchedule, SameDout]

/-! ### The core does not read the registers of the host -/

/-- `s` with the registers that only the host writes taken from `x` (10_state.md rule R21). -/
def State.withHostRegisters (x s : State) : State :=
  { s with
    irqEn := x.irqEn
    keyLo := x.keyLo
    keyHi := x.keyHi
    dinLo := x.dinLo
    dinHi := x.dinHi
    src := x.src
    dst := x.dst
    len := x.len }

/-- A write to such a register puts the same values into every state that has the same registers. -/
theorem State.writeReg_eq_withHostRegisters {r : Reg} (hr : r ∈ hostWritable) (w : Word)
    {s t : State} (h : SameHostRegisters s t) :
    t.writeReg r w = State.withHostRegisters (s.writeReg r w) t := by
  obtain ⟨hirq, hkeyLo, hkeyHi, hdinLo, hdinHi, hsrc, hdst, hlen⟩ := h
  cases r
  case ctrl | keyLo | keyHi | dinLo | dinHi | src | dst | len =>
    simp [State.writeReg, State.withHostRegisters, ← hirq, ← hkeyLo, ← hkeyHi, ← hdinLo, ← hdinHi,
      ← hsrc, ← hdst, ← hlen]
  all_goals exact absurd hr (by decide)

theorem State.dmaWrite_withHostRegisters (c : Config) (a : Nat) (v : Byte) (n : Nat) (x s : State) :
    (x.withHostRegisters s).dmaWrite c a v n = (s.dmaWrite c a v n).map x.withHostRegisters := by
  unfold State.dmaWrite
  split
  · split <;> rfl
  · rfl

theorem State.writeBytes_cons_ok {c : Config} {o : Block} {j : Nat} {s t : State}
    (h : s.dmaWrite c (byteAddr s.work.ldst s.work.blk j) (blockByte o j) (s.drawn + j) = .ok t)
    (js : List Nat) : State.writeBytes c o (j :: js) s = State.writeBytes c o js t := by
  simp [State.writeBytes, h]

theorem State.writeBytes_cons_error {c : Config} {o : Block} {j : Nat} {s : State} {e : DmaFail}
    (h : s.dmaWrite c (byteAddr s.work.ldst s.work.blk j) (blockByte o j) (s.drawn + j) = .error e)
    (js : List Nat) : State.writeBytes c o (j :: js) s = (s, some e) := by
  simp [State.writeBytes, h]

theorem State.writeBytes_withHostRegisters (c : Config) (o : Block) (js : List Nat) (x s : State) :
    State.writeBytes c o js (x.withHostRegisters s)
      = (x.withHostRegisters (State.writeBytes c o js s).1, (State.writeBytes c o js s).2) := by
  induction js generalizing s with
  | nil => rfl
  | cons j js ih =>
    have hx := State.dmaWrite_withHostRegisters c (byteAddr s.work.ldst s.work.blk j)
      (blockByte o j) (s.drawn + j) x s
    cases hs : s.dmaWrite c (byteAddr s.work.ldst s.work.blk j) (blockByte o j) (s.drawn + j) with
    | ok t =>
      rw [hs] at hx
      rw [State.writeBytes_cons_ok hs, State.writeBytes_cons_ok (s := x.withHostRegisters s) hx, ih]
    | error e =>
      rw [hs] at hx
      rw [State.writeBytes_cons_error hs,
        State.writeBytes_cons_error (s := x.withHostRegisters s) hx]

theorem State.blockWritten_withHostRegisters (x s : State) :
    (x.withHostRegisters s).blockWritten = x.withHostRegisters s.blockWritten := by
  by_cases h : s.work.blk + 1 = s.work.lout.toNat / 8
  · rw [State.blockWritten_last h, State.blockWritten_last (s := x.withHostRegisters s) h]
    rfl
  · rw [State.blockWritten_more h, State.blockWritten_more (s := x.withHostRegisters s) h]
    rfl

/-- The core step does not read them: every operand is latched at acceptance (10_state.md rule
R43). -/
theorem coreStep_withHostRegisters (c : Config) (x s : State) :
    coreStep c (x.withHostRegisters s) = mapNext x.withHostRegisters (coreStep c s) := by
  cases hp : s.phase
  case idle => rw [coreStep_idle hp, coreStep_idle (s := x.withHostRegisters s) hp]; rfl
  case keygen => rw [coreStep_keygen hp, coreStep_keygen (s := x.withHostRegisters s) hp]; rfl
  case rounds =>
    rw [coreStep_rounds hp, coreStep_rounds (s := x.withHostRegisters s) hp]
    by_cases hr : s.work.rnd = 15
    · rw [roundsStep_last hr, roundsStep_last (s := x.withHostRegisters s) hr]
      rfl
    · rw [roundsStep_more hr, roundsStep_more (s := x.withHostRegisters s) hr]
      rfl
  case bufRead =>
    rw [coreStep_bufRead hp, coreStep_bufRead (s := x.withHostRegisters s) hp]
    have hread : (x.withHostRegisters s).readBlock c = s.readBlock c := rfl
    unfold bufReadStep
    rw [hread]
    split <;> rfl
  case bufRounds =>
    rw [coreStep_bufRounds hp, coreStep_bufRounds (s := x.withHostRegisters s) hp]
    by_cases hr : s.work.rnd = 15
    · rw [bufRoundsStep_last hr, bufRoundsStep_last (s := x.withHostRegisters s) hr]
      rfl
    · rw [bufRoundsStep_more hr, bufRoundsStep_more (s := x.withHostRegisters s) hr]
      rfl
  case bufWrite =>
    rw [coreStep_bufWrite hp, coreStep_bufWrite (s := x.withHostRegisters s) hp]
    have hwork : (x.withHostRegisters s).work = s.work := rfl
    unfold bufWriteStep
    rw [hwork, State.writeBytes_withHostRegisters]
    rcases State.writeBytes c (merge (s.work.wl, s.work.wr)) byteOrder s with ⟨t, _ | _ | _⟩
    · exact congrArg Host.Outcome.next
        (State.blockWritten_withHostRegisters x { t with drawn := t.drawn + 8 })
    · rfl
    · rfl

/-- Settles O39: such a write is a change of the host's registers, which the core step keeps and
does not read. -/
theorem registerWritesDoNotReachTheCommand : Obligations.RegisterWritesDoNotReachTheCommand := by
  intro c s r w hr
  refine ⟨?_, ?_⟩
  · rw [State.readReg_writeReg_same]
    cases r
    case ctrl | keyLo | keyHi | dinLo | dinHi | src | dst | len => rfl
    all_goals exact absurd hr (by decide)
  · rw [State.writeReg_eq_withHostRegisters hr w ⟨rfl, rfl, rfl, rfl, rfl, rfl, rfl, rfl⟩,
      coreStep_withHostRegisters]
    cases ht : coreStep c s with
    | next t =>
      obtain ⟨hregs, -⟩ := coreStepFrame c s t ht
      exact congrArg Host.Outcome.next (State.writeReg_eq_withHostRegisters hr w hregs).symm
    | fault f => rfl
    | refused f => rfl

end Sys2Proof.Machine

/-! PROOFS. 20_memory.md: the machine with nothing outstanding (rule R78), and the ranges the core
accesses (rule R66). -/

namespace Sys2Proof.Machine

/-! ### Runs with nothing outstanding -/

section Run

variable {M : Host.Core} {s : M.State}

theorem run_of_next {t : M.State} (h : M.step s = .next t) (n : Nat) :
    M.run (n + 1) s = M.run n t := by simp [Host.Core.run, h]

theorem run_of_fault {r : M.Fault} (h : M.step s = .fault r) (n : Nat) :
    M.run (n + 1) s = .fault r := by simp [Host.Core.run, h]

theorem run_of_refused {r : M.Refusal} (h : M.step s = .refused r) (n : Nat) :
    M.run (n + 1) s = .refused r := by simp [Host.Core.run, h]

end Run

theorem coreSteps_fault {c : Config} {s : State} {r : Fault} (h : coreStep c s = .fault r) (n : Nat) :
    coreSteps c (n + 1) s = .fault r := by simp [coreSteps, h]

theorem coreSteps_refused {c : Config} {s : State} {r : Refusal} (h : coreStep c s = .refused r)
    (n : Nat) : coreSteps c (n + 1) s = .refused r := by simp [coreSteps, h]

/-- Settles O5, by induction on the number of steps: with nothing outstanding the machine's step is the
core's, which places no event. -/
theorem runWithoutEventsIsCoreSteps : Obligations.RunWithoutEventsIsCoreSteps := by
  intro s n hhost
  induction n generalizing s with
  | zero => rfl
  | succ n ih =>
    have hstep : Sys2Proof.core.step s = coreStep Config.chip s := stepWith_nil hhost
    cases ht : coreStep Config.chip s with
    | next t =>
      obtain ⟨-, -, -, -, hkeep, -⟩ := coreStepFrame _ _ _ ht
      rw [coreSteps_succ ht, ← ih t (hkeep.trans hhost)]
      exact run_of_next (hstep.trans ht) n
    | fault r =>
      rw [coreSteps_fault ht]
      exact run_of_fault (hstep.trans ht) n
    | refused r =>
      rw [coreSteps_refused ht]
      exact run_of_refused (hstep.trans ht) n

/-! ### The ranges of a buffer command -/

theorem Work.inSource_iff {w : Work} {a : Nat} :
    w.inSource a = true ↔ w.lsrc.toNat ≤ a ∧ a < w.lsrc.toNat + w.llen.toNat := decide_eq_true_iff

theorem Work.inDestination_iff {w : Work} {a : Nat} :
    w.inDestination a = true ↔ w.ldst.toNat ≤ a ∧ a < w.ldst.toNat + w.lout.toNat :=
  decide_eq_true_iff

/-- A byte that is read from the source lies in its range, so what memory holds elsewhere does not matter
(43_block_chainer.md rule R162). -/
theorem State.sourceByte_congr_mem {c : Config} {s : State} {m : Memory}
    (h : ∀ a, s.work.inSource a = true → Memory.read m a = Memory.read s.mem a) (j : Nat) :
    State.sourceByte c { s with mem := m } j = s.sourceByte c j := by
  by_cases hj : 8 * s.work.blk + j < s.work.llen.toNat
  · have hread := h (byteAddr s.work.lsrc s.work.blk j)
      (Work.inSource_iff.2 (by unfold byteAddr; omega))
    simp only [State.sourceByte, State.dmaRead, State.dmaByte, hread]
  · simp only [State.sourceByte, if_neg hj]

/-- The bytes of block `BLK` lie in the destination range (43_block_chainer.md rule R163). -/
theorem State.BufferOk.inDestination {s : State} (h : s.BufferOk) {k j : Nat} (hk : k ≤ s.work.blk)
    (hj : j < 8) : s.work.inDestination (byteAddr s.work.ldst k j) = true := by
  have hblk := h.block
  exact Work.inDestination_iff.2 (by unfold byteAddr; omega)

/-- A BUF_WRITE step leaves the memory that the writing of the block leaves, whether the platform answers
all of it or not. -/
theorem bufWriteStep_mem {c : Config} {s t : State} (h : bufWriteStep c s = .next t) :
    ∃ u r, State.writeBytes c (merge (s.work.wl, s.work.wr)) byteOrder s = (u, r)
      ∧ t.mem = u.mem := by
  obtain ⟨u, ⟨hu, rfl⟩ | ⟨hu, rfl⟩⟩ := bufWriteStep_cases h
  · exact ⟨u, _, hu, (State.blockWritten_frame _).1⟩
  · exact ⟨u, _, hu, rfl⟩

/-- Settles O37: every address that is read is one of the source, and every address that is written is
one of block `BLK`, which the invariant places inside the destination. -/
theorem coreStaysInsideItsBuffers : Obligations.CoreStaysInsideItsBuffers := by
  refine ⟨fun c s m hsame => ?_, fun c s t a hinv ht hor => ?_⟩
  · unfold State.readBlock
    simp only [State.sourceByte_congr_mem hsame]
  · by_cases hp : s.phase = .bufWrite
    · have hout : s.work.inDestination a = false := hor.resolve_left (absurd hp)
      obtain ⟨u, r, hu, hmem⟩ := bufWriteStep_mem (coreStep_bufWrite hp ▸ ht)
      rw [hmem]
      refine State.writeBytes_read_other hinv.memory hu fun j hj heq => ?_
      have hin := (hinv.buffer (by rw [hp]; rfl)).inDestination (le_refl _) (mem_byteOrder.1 hj)
      rw [← heq, hout] at hin
      exact nomatch hin
    · obtain ⟨-, -, -, -, -, -, -, -, -, hkeep⟩ := coreStepFrame c s t ht
      exact (hkeep hp).2.1 a

end Sys2Proof.Machine

/-! PROOFS. 20_memory.md: performed writes and cache maintenance (rules R70 and R76). -/

namespace Sys2Proof.Machine

/-! ### What a byte reads as -/

theorem Memory.read_write_same {m : Memory} (h : Memory.wf m) (a : Nat) (v : Byte) :
    Memory.read (Memory.write m a v) a = v := by
  rw [Memory.read_write h.1, if_pos rfl]

/-- A DMA read of a byte that another master has written during the command is open (20_memory.md rule
R72 a). -/
theorem State.dmaByte_raced {s : State} {a : Nat} (h : s.racedSrc.contains a = true) (c : Config)
    (n : Nat) : s.dmaByte c a n = Config.free 8 n := by
  rw [State.dmaByte, h, Bool.true_or, if_pos rfl]

/-- So is one of a byte that waits in the host's caches (20_memory.md rule R76). -/
theorem State.dmaByte_dirty {c : Config} {s : State} {a : Nat} (hc : c.coherent = false)
    (h : s.dirty.contains a = true) (n : Nat) : s.dmaByte c a n = Config.free 8 n := by
  rw [State.dmaByte, hc, h]
  simp

/-- Any other DMA read finds what memory holds. -/
theorem State.dmaByte_memory {c : Config} {s : State} {a : Nat} (hr : s.racedSrc.contains a = false)
    (hd : c.coherent = true ∨ s.dirty.contains a = false) (n : Nat) :
    s.dmaByte c a n = Memory.read s.mem a := by
  have hheld : (s.dirty.contains a && !c.coherent) = false := by
    obtain h | h := hd
    · rw [h, Bool.not_true, Bool.and_false]
    · rw [h, Bool.false_and]
  rw [State.dmaByte, hr, hheld]
  rfl

theorem State.byteUnless_uncertain (a : Addr) (s : State) :
    s.byteUnless true a = Config.free 8 s.drawn := by simp [State.byteUnless]

/-- A read of the destination of a running buffer command is open to everyone (20_memory.md rule
R72 b). -/
theorem State.byteUnless_destination {s : State} {a : Addr} (hp : s.phase.isBuffer = true)
    (hd : s.work.inDestination a.toNat = true) (b : Bool) :
    s.byteUnless b a = Config.free 8 s.drawn := by simp [State.byteUnless, hp, hd]

/-- Outside a buffer command a certain byte is what memory holds. -/
theorem State.byteUnless_memory {s : State} (hp : s.phase.isBuffer = false) (a : Addr) :
    s.byteUnless false a = Memory.read s.mem a.toNat := by simp [State.byteUnless, hp]

theorem contains_filter_ne (l : List Nat) (a : Nat) :
    (l.filter fun b => decide (b ≠ a)).contains a = false := by simp

theorem contains_insert_self (l : List Nat) (a : Nat) : (l.insert a).contains a = true := by simp

/-! ### Writes and cache maintenance, at their own byte -/

/-- Where nothing is raced for, memory stays as it is. -/
theorem State.markRace_mem_quiet {c : Config} {b : Bool} {s : State}
    (h : (b && s.phase.isBuffer) = false) (n : Nat) : (s.markRace c b n).mem = s.mem := by
  rw [State.markRace_quiet h]

/-- A write of a byte that the core has not written already stays in memory for now (20_memory.md rules
R70 and R72 c). -/
theorem State.landWrite_read_self {s : State} (hm : Memory.wf s.mem) {a : Addr}
    (h : (s.phase.isBuffer && s.work.inDestination a.toNat && s.work.written a.toNat) = false)
    (c : Config) (v : Byte) : Memory.read (s.landWrite c a v).mem a.toNat = v := by
  simp only [State.landWrite, h, Bool.false_and, Bool.false_eq_true, if_false]
  exact Memory.read_write_same (State.markRace_wf (s := { s with drawn := s.drawn + 1 }) hm) _ v

/-- Outside a buffer command a host write replaces the older copy the host may have held. -/
theorem State.memWrite_not_stale {s : State} (hp : s.phase.isBuffer = false) (c : Config) (a : Addr)
    (v : Byte) : (s.memWrite c a v).stale.contains a.toNat = false := by
  simp only [State.memWrite, hp, Bool.false_and, Bool.false_eq_true, if_false, contains_filter_ne]

theorem State.clean_not_dirty (c : Config) (a : Addr) (s : State) :
    (s.clean c a).dirty.contains a.toNat = false := contains_filter_ne _ _

/-- A clean in time, of a byte that was not written in memory meanwhile, leaves memory as the write left
it (20_memory.md rule R76). -/
theorem State.clean_mem {s : State} {a : Addr} (hp : s.phase.isBuffer = false)
    (hs : s.stale.contains a.toNat = false) (c : Config) : (s.clean c a).mem = s.mem := by
  simp only [State.clean, hs, Bool.and_false, Bool.false_eq_true, if_false]
  exact State.markRace_mem_quiet (s := { s with drawn := s.drawn + 1 })
    (show (s.held c a && s.phase.isBuffer) = false by rw [hp, Bool.and_false]) _

/-- A clean of a byte that was written in memory meanwhile leaves any byte
(93_implementation_defined.md U9). -/
theorem State.clean_read_stale {c : Config} {s : State} {a : Addr} (hm : Memory.wf s.mem)
    (hh : s.held c a = true) (hs : s.stale.contains a.toNat = true) :
    Memory.read (s.clean c a).mem a.toNat = Config.free 8 s.drawn := by
  simp only [State.clean, hh, hs, Bool.and_self, if_true]
  exact Memory.read_write_same (State.markRace_wf (s := { s with drawn := s.drawn + 1 }) hm) _ _

theorem State.invalidate_mem {c : Config} {s : State} {a : Addr} (h : s.held c a = false) :
    (s.invalidate c a).mem = s.mem := by
  simp only [State.invalidate, h, Bool.false_eq_true, if_false]
  exact State.markRace_mem_quiet (s := { s with drawn := s.drawn + 1 }) rfl _

/-- Outside a buffer command an invalidate ends the mark (20_memory.md rule R76). -/
theorem State.invalidate_not_stale {s : State} (hp : s.phase.isBuffer = false) (c : Config)
    (a : Addr) : (s.invalidate c a).stale.contains a.toNat = false := by
  simp only [State.invalidate, hp, Bool.false_and, Bool.false_eq_true, if_false, contains_filter_ne]

/-! ### The start of a buffer command -/

/-- Where a buffer command is accepted, its DMA reads find memory wherever the host has no uncleaned
write (43_block_chainer.md rule R167). -/
theorem State.dmaByte_issue_startBuffer {c : Config} {s : State} {a : Nat} (hb : s.status.busy = false)
    (hk : s.status.keyValid = true) (hl : s.len ≠ 0#32)
    (hr : rangeError s.src s.dst s.len = false)
    (hd : c.coherent = true ∨ s.dirty.contains a = false) (op : BitVec 8) (d : Dir) (n : Nat) :
    (s.issue op (State.startBuffer d)).dmaByte c a n = Memory.read s.mem a := by
  have hl' : s.len.toNat ≠ 0 := fun h => hl (BitVec.eq_of_toNat_eq h)
  rw [State.issue_idle hb, State.startBuffer_ok (s := s.accept op) hk hr hl']
  refine State.dmaByte_memory ?_ ?_ n
  · rfl
  · exact hd

/-- ENCBUF and DECBUF are a CMD write that starts a buffer command (43_block_chainer.md rules R165 and
R166). -/
theorem exec_buffer {i : Instr} (h : i = .encbuf ∨ i = .decbuf) :
    ∃ op d, ∀ s, exec i s = .next (s.issue op (State.startBuffer d)) := by
  obtain rfl | rfl := h
  · exact ⟨0x04#8, .encode, fun _ => rfl⟩
  · exact ⟨0x05#8, .decode, fun _ => rfl⟩

/-- Settles O58: outside a buffer command the write is in memory at once, and the host's mark is no
obstacle on a coherent platform, is ended by the clean, or is not there. -/
theorem performedWriteIsSeenByTheCommand : Obligations.PerformedWriteIsSeenByTheCommand := by
  intro c s t a v i n hb hp hk hl hr hm hi ht
  obtain ⟨op, d, hexec⟩ := exec_buffer hi
  have hq : s.phase.isBuffer = false := by rw [hp]; rfl
  have hland : Memory.read (s.landWrite c a v).mem a.toNat = v :=
    State.landWrite_read_self hm (by simp [hq]) c v
  have hread : ∀ u : State, u.status = s.status → u.src = s.src → u.dst = s.dst → u.len = s.len →
      (c.coherent = true ∨ u.dirty.contains a.toNat = false) → exec i u = .next t →
      t.dmaByte c a.toNat n = Memory.read u.mem a.toNat := by
    intro u hstatus hsrc hdst hlen hd hu
    rw [hexec] at hu
    cases hu
    exact State.dmaByte_issue_startBuffer (by rwa [hstatus]) (by rwa [hstatus]) (by rwa [hlen])
      (by rwa [hsrc, hdst, hlen]) hd op d n
  obtain ⟨hc, ht⟩ | ht | ⟨ht, hd⟩ := ht
  · rw [hread (s.memWrite c a v) (by simp) (by simp) (by simp) (by simp) (.inl hc) ht]
    exact hland
  · rw [hread ((s.memWrite c a v).clean c a) (by simp) (by simp) (by simp) (by simp)
        (.inr (State.clean_not_dirty c a _)) ht,
      State.clean_mem (by simpa using hq) (State.memWrite_not_stale hq c a v)]
    exact hland
  · rw [hread (s.masterWrite c a v) (by simp) (by simp) (by simp) (by simp) (.inr hd) ht]
    exact hland

end Sys2Proof.Machine

/-! PROOFS. 20_memory.md: races with a running buffer command (rules R72 and R77). -/

namespace Sys2Proof.Machine

/-! ### One block taken anew -/

@[simp] theorem State.retake_taken (c : Config) (k : Nat) (v : Block) (s : State) :
    (s.retake c k v).taken = s.taken.set k v := by rw [State.retake_frame]
@[simp] theorem State.retake_sk (c : Config) (k : Nat) (v : Block) (s : State) :
    (s.retake c k v).sk = s.sk := by rw [State.retake_frame]
@[simp] theorem State.retake_work_lsrc (c : Config) (k : Nat) (v : Block) (s : State) :
    (s.retake c k v).work.lsrc = s.work.lsrc := by rw [State.retake_frame]
@[simp] theorem State.retake_work_ldst (c : Config) (k : Nat) (v : Block) (s : State) :
    (s.retake c k v).work.ldst = s.work.ldst := by rw [State.retake_frame]
@[simp] theorem State.retake_work_llen (c : Config) (k : Nat) (v : Block) (s : State) :
    (s.retake c k v).work.llen = s.work.llen := by rw [State.retake_frame]
@[simp] theorem State.retake_work_ldir (c : Config) (k : Nat) (v : Block) (s : State) :
    (s.retake c k v).work.ldir = s.work.ldir := by rw [State.retake_frame]
@[simp] theorem State.retake_work_blk (c : Config) (k : Nat) (v : Block) (s : State) :
    (s.retake c k v).work.blk = s.work.blk := by rw [State.retake_frame]

theorem getD_set_self {l : List Block} {k : Nat} (h : k < l.length) (v : Block) :
    (l.set k v).getD k 0#64 = v := by
  rw [List.getD_eq_getElem?_getD, List.getElem?_set_self h]
  rfl

theorem getD_set_ne {k i : Nat} (h : k ≠ i) (l : List Block) (v : Block) :
    (l.set k v).getD i 0#64 = l.getD i 0#64 := by
  rw [List.getD_eq_getElem?_getD, List.getElem?_set_ne h, ← List.getD_eq_getElem?_getD]

section Retake

variable {c : Config} {s : State} {k : Nat}

/-- Only the bytes of the block's own output block may change, and none of the block in progress. -/
theorem State.retake_read_other (hm : Memory.wf s.mem) (v : Block) {x : Nat}
    (hx : k ≠ s.work.blk → ∀ j, j < 8 → x ≠ byteAddr s.work.ldst k j) :
    Memory.read (s.retake c k v).mem x = Memory.read s.mem x := by
  by_cases h : k = s.work.blk
  · rw [State.retake_current h]
  · obtain ⟨u, r, hu, he⟩ := State.retake_written (c := c) h v
    rw [he]
    exact State.writeBytes_read_other
      (s := { s with taken := s.taken.set k v, work := { s.work with blk := k } })
      hm hu fun j hj => hx h j (mem_byteOrder.1 hj)

/-- A byte of its own output block stays or becomes that of the block's transform. -/
theorem State.retake_read_own (hm : Memory.wf s.mem) (v : Block) {j : Nat} (hj : j < 8) :
    Memory.read (s.retake c k v).mem (byteAddr s.work.ldst k j)
        = Memory.read s.mem (byteAddr s.work.ldst k j)
      ∨ Memory.read (s.retake c k v).mem (byteAddr s.work.ldst k j)
        = blockByte (crypt c s.sk s.work.ldir v) j := by
  by_cases h : k = s.work.blk
  · rw [State.retake_current h]
    exact .inl rfl
  · obtain ⟨u, r, hu, he⟩ := State.retake_written (c := c) h v
    rw [he]
    exact (State.writeBytes_read
      (s := { s with taken := s.taken.set k v, work := { s.work with blk := k } })
      hm (by decide) hu (mem_byteOrder.2 hj)).1

/-- Writing bytes ends no stale mark. -/
theorem State.writeBytes_stale {o : Block} {js : List Nat} {t : State} {r : Option DmaFail}
    (h : State.writeBytes c o js s = (t, r)) {x : Nat} (hx : x ∈ s.stale) : x ∈ t.stale := by
  induction js generalizing s with
  | nil =>
    cases h
    exact hx
  | cons j js ih =>
    cases hs : s.dmaWrite c (byteAddr s.work.ldst s.work.blk j) (blockByte o j) (s.drawn + j) with
    | ok u =>
      rw [State.writeBytes_cons_ok hs] at h
      obtain ⟨-, -, rfl⟩ := State.dmaWrite_ok hs
      exact ih h (List.mem_insert_of_mem hx)
    | error e =>
      rw [State.writeBytes_cons_error hs] at h
      cases h
      exact hx

theorem State.retake_stale (v : Block) {x : Nat} (hx : x ∈ s.stale) :
    x ∈ (s.retake c k v).stale := by
  by_cases h : k = s.work.blk
  · rw [State.retake_current h]
    exact hx
  · obtain ⟨u, r, hu, he⟩ := State.retake_written (c := c) h v
    rw [he]
    exact State.writeBytes_stale
      (s := { s with taken := s.taken.set k v, work := { s.work with blk := k } }) hu hx

end Retake

/-! ### The blocks that read a changed block, in rising order -/

/-- What holds from block to block, whether the block is taken anew or not, holds after the last one. -/
theorem State.retakeReaders_rising {c : Config} {P : Nat → State → Prop}
    (take : ∀ (m : Nat) (v : Block) (s : State) (d : Nat), m < s.taken.length → P m s →
      P (m + 1) (State.retake c m v { s with drawn := d }))
    (skip : ∀ m s, P m s → P (m + 1) s)
    (n m : Nat) (ks : List Nat) (s : State) (hn : m + n ≤ s.taken.length) (h : P m s) :
    P (m + n) (s.retakeReaders c n m ks) := by
  induction n generalizing m ks s with
  | zero => exact h
  | succ n ih =>
    rw [show m + (n + 1) = m + 1 + n by omega] at hn ⊢
    unfold State.retakeReaders
    dsimp only
    split
    · refine ih _ _ _ ?_ (take _ _ _ _ (by omega) h)
      rw [State.retake_taken, List.length_set]
      exact hn
    · exact ih _ _ _ hn (skip _ _ h)

/-- The blocks before the first reader stay in the record. -/
theorem State.retakeReaders_taken_before (c : Config) {n m : Nat} (ks : List Nat) {s : State}
    (hn : m + n ≤ s.taken.length) {i : Nat} (hi : i < m) :
    (s.retakeReaders c n m ks).taken.getD i 0#64 = s.taken.getD i 0#64 :=
  (State.retakeReaders_rising (c := c)
    (P := fun m t => i < m ∧ t.taken.getD i 0#64 = s.taken.getD i 0#64)
    (fun m v t d _ ⟨hi, ht⟩ => ⟨by omega, by
      rw [State.retake_taken, getD_set_ne (by omega)]
      exact ht⟩)
    (fun m t ⟨hi, ht⟩ => ⟨by omega, ht⟩) n m ks s hn ⟨hi, rfl⟩).2

/-- Unless the destination begins inside the source, no later block reads an output block (20_memory.md
rule R77). -/
theorem Work.inBlocks_later {w : Work}
    (ho : ¬ (w.lsrc.toNat < w.ldst.toNat ∧ w.ldst.toNat < w.lsrc.toNat + w.llen.toNat))
    {ks : List Nat} {m : Nat} (hks : ∀ k ∈ ks, k < m) {j : Nat}
    (hj : 8 * m + j < w.llen.toNat) : w.inBlocks ks (byteAddr w.lsrc m j) = false := by
  unfold Work.inBlocks byteAddr
  by_cases hd : w.ldst.toNat ≤ w.lsrc.toNat + 8 * m + j
  · have hc : ks.contains ((w.lsrc.toNat + 8 * m + j - w.ldst.toNat) / 8) = false := by
      rw [← Bool.not_eq_true, List.contains_iff_mem]
      intro hmem
      have := hks _ hmem
      omega
    rw [hc, Bool.and_false]
  · rw [decide_eq_false hd, Bool.false_and]

/-- So none is taken anew. -/
theorem State.retakeReaders_apart (c : Config) {s : State}
    (ho : ¬ (s.work.lsrc.toNat < s.work.ldst.toNat
      ∧ s.work.ldst.toNat < s.work.lsrc.toNat + s.work.llen.toNat))
    {ks : List Nat} (n : Nat) {m : Nat} (hks : ∀ k ∈ ks, k < m) : s.retakeReaders c n m ks = s := by
  induction n generalizing m with
  | zero => rfl
  | succ n ih =>
    unfold State.retakeReaders
    dsimp only
    rw [if_neg, ih fun k hk => Nat.lt_succ_of_lt (hks k hk)]
    rw [List.any_eq_true]
    rintro ⟨j, -, hj⟩
    rw [Bool.and_eq_true, decide_eq_true_eq] at hj
    rw [Work.inBlocks_later ho hks hj.1] at hj
    exact nomatch hj.2

/-! ### A source byte that is open after it was read -/

/-- Block `k` of the record with a free value at byte `j` (20_memory.md rule R72 a). -/
def State.openBlock (s : State) (k j : Nat) : Block :=
  ofBytes fun i => if i = j then Config.free 8 s.drawn else blockByte (s.taken.getD k 0#64) i

/-- A byte outside the source needs no redraw. -/
theorem State.redraw_outside {s : State} {n : Nat} (h : s.work.inSource n = false) (c : Config) :
    s.redraw c n = s := by simp [State.redraw, h]

/-- A source byte that the core has read: its block is taken anew, then the blocks that read its
output. -/
theorem State.redraw_read {s : State} {n k j : Nat} (hp : s.phase.isBuffer = true)
    (hs : s.work.inSource n = true) (hk : k < s.taken.length) (hj : j < 8)
    (hn : n = byteAddr s.work.lsrc k j) (c : Config) :
    s.redraw c n = State.retakeReaders c (s.taken.length - (k + 1)) (k + 1) [k]
      (State.retake c k (s.openBlock k j) { s with drawn := s.drawn + 1 }) := by
  have hdiv : (n - s.work.lsrc.toNat) / 8 = k := by unfold byteAddr at hn; omega
  have hmod : (n - s.work.lsrc.toNat) % 8 = j := by unfold byteAddr at hn; omega
  simp only [State.redraw, hdiv, hmod, hp, hs, hk, decide_true, Bool.and_self, if_true]
  rfl

section Redraw

variable {s : State} {n k j : Nat} (hp : s.phase.isBuffer = true) (hs : s.work.inSource n = true)
  (hk : k < s.taken.length) (hj : j < 8) (hn : n = byteAddr s.work.lsrc k j) (c : Config)
include hp hs hk hj hn

/-- The block is in the record with a free value at the byte. -/
theorem State.redraw_taken_self : (s.redraw c n).taken.getD k 0#64 = s.openBlock k j := by
  rw [State.redraw_read hp hs hk hj hn,
    State.retakeReaders_taken_before c [k] (by simp; omega) (by omega), State.retake_taken, getD_set_self hk]

/-- Earlier blocks stay in the record. -/
theorem State.redraw_taken_before {m : Nat} (hm : m < k) :
    (s.redraw c n).taken.getD m 0#64 = s.taken.getD m 0#64 := by
  rw [State.redraw_read hp hs hk hj hn,
    State.retakeReaders_taken_before c [k] (by simp; omega) (by omega), State.retake_taken, getD_set_ne (by omega)]

/-- So does every other one unless the destination begins inside the source. -/
theorem State.redraw_taken_other
    (ho : ¬ (s.work.lsrc.toNat < s.work.ldst.toNat
      ∧ s.work.ldst.toNat < s.work.lsrc.toNat + s.work.llen.toNat)) {m : Nat} (hm : m ≠ k) :
    (s.redraw c n).taken.getD m 0#64 = s.taken.getD m 0#64 := by
  rw [State.redraw_read hp hs hk hj hn, State.retakeReaders_apart c (by simpa using ho) _ (by simp),
    State.retake_taken, getD_set_ne (Ne.symm hm)]

end Redraw

/-! ### Memory after a redraw -/

/-- `t` is `s` with some of the blocks before `m` taken anew, each once. -/
structure State.Retaken (c : Config) (s : State) (m : Nat) (t : State) : Prop where
  sk : t.sk = s.sk
  ldir : t.work.ldir = s.work.ldir
  ldst : t.work.ldst = s.work.ldst
  blk : t.work.blk = s.work.blk
  length : t.taken.length = s.taken.length
  memory : Memory.wf t.mem
  /-- An output byte is as before, or that of the transform of the input block now in the record. -/
  outputs : ∀ k j, j < 8 →
    Memory.read t.mem (byteAddr s.work.ldst k j) = Memory.read s.mem (byteAddr s.work.ldst k j)
      ∨ k < m ∧ Memory.read t.mem (byteAddr s.work.ldst k j)
        = blockByte (crypt c s.sk s.work.ldir (t.taken.getD k 0#64)) j
  /-- Any byte that is not an output byte of a block read before the one in progress is as before. -/
  others : ∀ x,
    (∀ k j, k < s.taken.length → k ≠ s.work.blk → j < 8 → x ≠ byteAddr s.work.ldst k j) →
    Memory.read t.mem x = Memory.read s.mem x

theorem State.Retaken.refl (c : Config) {s : State} (hm : Memory.wf s.mem) (m : Nat) :
    s.Retaken c m s :=
  ⟨rfl, rfl, rfl, rfl, rfl, hm, fun _ _ _ => .inl rfl, fun _ _ => rfl⟩

theorem State.Retaken.mono {c : Config} {s t : State} {m : Nat} (h : s.Retaken c m t) :
    s.Retaken c (m + 1) t :=
  { h with outputs := fun k j hj => (h.outputs k j hj).imp_right fun ⟨hk, hb⟩ => ⟨by omega, hb⟩ }

theorem State.Retaken.drawn {c : Config} {s t : State} {m : Nat} (h : s.Retaken c m t) (d : Nat) :
    s.Retaken c m { t with drawn := d } :=
  ⟨h.sk, h.ldir, h.ldst, h.blk, h.length, h.memory, h.outputs, h.others⟩

/-- Block `m` taken anew: its own output block was as before, the others stay. -/
theorem State.Retaken.retake {c : Config} {s t : State} {m : Nat} (h : s.Retaken c m t)
    (hk : m < t.taken.length) (v : Block) : s.Retaken c (m + 1) (t.retake c m v) := by
  obtain ⟨hsk, hdir, hdst, hblk, hlen, hmem, hout, hoth⟩ := h
  have hother := fun {x : Nat} => State.retake_read_other (c := c) (k := m) (x := x) hmem v
  have hown := fun {j : Nat} => State.retake_read_own (c := c) (k := m) (j := j) hmem v
  simp only [hsk, hdir, hdst, hblk] at hother hown
  refine ⟨by simpa using hsk, by simpa using hdir, by simpa using hdst, by simpa using hblk,
    by simpa using hlen, State.retake_wf hmem, fun k j hj => ?_, fun x hx => ?_⟩
  · rw [State.retake_taken]
    by_cases hkm : k = m
    · subst hkm
      rw [getD_set_self hk]
      have hold := (hout k j hj).resolve_right fun ⟨hlt, _⟩ => absurd hlt (lt_irrefl k)
      rw [← hold]
      exact (hown hj).imp_right fun hb => ⟨by omega, hb⟩
    · rw [getD_set_ne (Ne.symm hkm), hother fun _ i hi => byteAddr_ne hj hi hkm]
      exact (hout k j hj).imp_right fun ⟨hlt, hb⟩ => ⟨by omega, hb⟩
  · rw [hother fun hne j hj => hx m j (hlen ▸ hk) hne hj]
    exact hoth x hx

/-- The ways a redraw can go. -/
theorem State.redraw_cases (c : Config) (n : Nat) (s : State) :
    s.redraw c n = s ∨ ∃ k v, k < s.taken.length
      ∧ s.redraw c n = State.retakeReaders c (s.taken.length - (k + 1)) (k + 1) [k]
        (State.retake c k v { s with drawn := s.drawn + 1 }) := by
  unfold State.redraw
  dsimp only
  split
  · rename_i hc
    simp only [Bool.and_eq_true, decide_eq_true_eq] at hc
    exact .inr ⟨_, _, hc.2, rfl⟩
  · exact .inl rfl

/-- A redraw takes some of the blocks anew, each once. -/
theorem State.Retaken.redraw (c : Config) {s : State} (hm : Memory.wf s.mem) (n : Nat) :
    ∃ m, s.Retaken c m (s.redraw c n) := by
  obtain he | ⟨k, v, hk, he⟩ := State.redraw_cases c n s
  · rw [he]
    exact ⟨0, .refl c hm 0⟩
  · have hfirst := ((State.Retaken.refl c hm k).drawn (s.drawn + 1)).retake hk v
    rw [he]
    exact ⟨_, State.retakeReaders_rising (P := s.Retaken c)
      (fun m v t d hk ht => (ht.drawn d).retake hk v) (fun m t ht => ht.mono) _ _ _ _
      (by rw [hfirst.length]; omega) hfirst⟩

/-! ### A write during a buffer command -/

/-- `s` with the byte at `n` marked as raced for (20_memory.md rule R72 a and c). -/
def State.withRace (n : Nat) (s : State) : State :=
  { s with
    drawn := s.drawn + 1
    racedSrc := if s.work.inSource n then s.racedSrc.insert n else s.racedSrc
    racedDst := if s.work.inDestination n then s.racedDst.insert n else s.racedDst }

section Running

variable {s : State} (hp : s.phase.isBuffer = true) (c : Config) (a : Addr) (v : Byte)
include hp

theorem State.markRace_running (n : Nat) :
    State.markRace c true n { s with drawn := s.drawn + 1 } = (s.withRace n).redraw c n :=
  State.markRace_races (s := { s with drawn := s.drawn + 1 }) (by simpa using hp) n

theorem State.landWrite_taken :
    (s.landWrite c a v).taken = ((s.withRace a.toNat).redraw c a.toNat).taken := by
  rw [← State.markRace_running hp]
  rfl

/-- The write is performed on the memory that the redraw leaves, or is lost to the core's. -/
theorem State.landWrite_mem :
    (s.landWrite c a v).mem = ((s.withRace a.toNat).redraw c a.toNat).mem
      ∨ (s.landWrite c a v).mem
        = Memory.write ((s.withRace a.toNat).redraw c a.toNat).mem a.toNat v := by
  rw [← State.markRace_running hp]
  unfold State.landWrite
  dsimp only
  split
  · exact .inl rfl
  · exact .inr rfl

end Running

/-- Every destination byte is a byte of one of the blocks (43_block_chainer.md rule R163). -/
theorem Work.exists_byteAddr {w : Work} {a : Nat} (h : w.inDestination a = true) :
    ∃ k j, j < 8 ∧ a = byteAddr w.ldst k j := by
  have hfrom := (Work.inDestination_iff.1 h).1
  exact ⟨(a - w.ldst.toNat) / 8, (a - w.ldst.toNat) % 8, Nat.mod_lt _ (by decide),
    by unfold byteAddr; omega⟩

/-- A byte of the destination after a write to it: the write stays, or the byte is as before, or it is
that of the transform of an input block that the write has opened (20_memory.md rules R72 and R77). -/
theorem State.landWrite_read_destination {s : State} (hp : s.phase.isBuffer = true)
    (hm : Memory.wf s.mem) {a : Addr} (hd : s.work.inDestination a.toNat = true) (c : Config)
    (v : Byte) :
    Memory.read (s.landWrite c a v).mem a.toNat = v
      ∨ Memory.read (s.landWrite c a v).mem a.toNat = Memory.read s.mem a.toNat
      ∨ (s.work.inSource a.toNat = true ∧ ∃ k j, j < 8 ∧ a.toNat = byteAddr s.work.ldst k j
        ∧ Memory.read (s.landWrite c a v).mem a.toNat
          = blockByte (crypt c s.sk s.work.ldir ((s.landWrite c a v).taken.getD k 0#64)) j) := by
  obtain hlost | hstays := State.landWrite_mem hp c a v
  · rw [hlost]
    refine .inr ?_
    cases hs : s.work.inSource a.toNat with
    | false =>
      rw [State.redraw_outside (s := s.withRace a.toNat) hs]
      exact .inl rfl
    | true =>
      obtain ⟨m, hre⟩ := State.Retaken.redraw c (s := s.withRace a.toNat) hm a.toNat
      obtain ⟨k, j, hj, haddr⟩ := Work.exists_byteAddr hd
      have hout := hre.outputs k j hj
      rw [← show a.toNat = byteAddr (s.withRace a.toNat).work.ldst k j from haddr] at hout
      rw [State.landWrite_taken hp]
      exact hout.imp id fun ⟨_, hbyte⟩ => ⟨rfl, k, j, hj, haddr, hbyte⟩
  · rw [hstays]
    exact .inl (Memory.read_write_same
      (State.redraw_wf (n := a.toNat) (s := s.withRace a.toNat) hm) _ v)

/-- Outside the destination only the byte written changes. -/
theorem State.landWrite_read_outside {c : Config} {s : State} (hp : s.phase.isBuffer = true)
    (h : s.Inv c) {a : Addr} {x : Nat} (hx : x ≠ a.toNat) (hd : s.work.inDestination x = false)
    (v : Byte) : Memory.read (s.landWrite c a v).mem x = Memory.read s.mem x := by
  obtain ⟨m, hre⟩ := State.Retaken.redraw c (s := s.withRace a.toNat) h.memory a.toNat
  have hblocks : Memory.read ((s.withRace a.toNat).redraw c a.toNat).mem x = Memory.read s.mem x :=
    hre.others x fun k j hk hne hj heq => by
      have hlen : s.taken.length ≤ s.work.blk + 1 := by
        rw [(h.record hp).length]
        split <;> omega
      have hk' : k ≤ s.work.blk := Nat.lt_succ_iff.1 (Nat.lt_of_lt_of_le hk hlen)
      have hin := (h.buffer hp).inDestination hk' hj
      rw [← show x = byteAddr s.work.ldst k j from heq, hd] at hin
      exact nomatch hin
  obtain hlost | hstays := State.landWrite_mem hp c a v
  · rw [hlost, hblocks]
  · rw [hstays, Memory.read_write hre.memory.1, if_neg hx, hblocks]

/-- A host write and another master's are the same write but for the marks of the host's caches
(20_memory.md rule R76). -/
theorem write_eq_landWrite {c : Config} {a : Addr} {v : Byte} {write : State → State}
    (h : write = State.memWrite c a v ∨ write = State.masterWrite c a v) (s : State) :
    ∃ dirty stale, write s = { s.landWrite c a v with dirty := dirty, stale := stale } := by
  obtain rfl | rfl := h
  · exact ⟨_, _, rfl⟩
  · exact ⟨_, _, rfl⟩

/-- A byte of the block that the core writes next, after its step: as before, or the core's. -/
theorem coreStep_bufWrite_read {c : Config} {s t : State} (hp : s.phase = .bufWrite)
    (hm : Memory.wf s.mem) (ht : coreStep c s = .next t) {j : Nat} (hj : j < 8) :
    Memory.read t.mem (byteAddr s.work.ldst s.work.blk j)
        = Memory.read s.mem (byteAddr s.work.ldst s.work.blk j)
      ∨ Memory.read t.mem (byteAddr s.work.ldst s.work.blk j)
        = blockByte (merge (s.work.wl, s.work.wr)) j := by
  obtain ⟨u, r, hu, hmem⟩ := bufWriteStep_mem (coreStep_bufWrite hp ▸ ht)
  rw [hmem]
  exact (State.writeBytes_read hm (by decide) hu (mem_byteOrder.2 hj)).1

/-- Settles O59: either write is `landWrite`, which redraws the record of the input blocks and what was
computed from it; the invariant holds of the result and says what that is. -/
theorem racingAccessesLeaveBytesOpen : Obligations.RacingAccessesLeaveBytesOpen := by
  intro c s a v write hwrite hp
  obtain ⟨dirty, stale, hw⟩ := write_eq_landWrite hwrite s
  have hinv : s.Inv c → (write s).Inv c := fun h => by
    obtain rfl | rfl := hwrite
    · exact State.memWrite_inv h a v
    · exact State.masterWrite_inv h a v
  have htaken : (write s).taken = ((s.withRace a.toNat).redraw c a.toNat).taken := by
    rw [hw]
    exact State.landWrite_taken hp c a v
  have hmem : (write s).mem = (s.landWrite c a v).mem := by rw [hw]
  refine ⟨fun hs n => ?_, fun hs k j hk hj ha => ⟨?_, fun m hm => ?_, fun ho m hm => ?_,
    fun h hblk => ?_, fun h hblk i hi hr => ?_⟩, fun hd => ?_, fun t j hph hm hd hj ha ht => ?_,
    fun hm _ hd => ?_, fun h x hx hd => ?_⟩
  · refine State.dmaByte_raced ?_ c n
    rw [hw]
    simp [hp, hs]
  · rw [htaken]
    exact State.redraw_taken_self (s := s.withRace a.toNat) hp hs hk hj ha c
  · rw [htaken]
    exact State.redraw_taken_before (s := s.withRace a.toNat) hp hs hk hj ha c hm
  · rw [htaken]
    exact State.redraw_taken_other (s := s.withRace a.toNat) hp hs hk hj ha c ho hm
  · have hread : s.phase ≠ .bufRead := fun hph => by
      have hlen := (h.record hp).length
      rw [if_pos hph] at hlen
      omega
    have hhalves := ((hinv h).record (by rw [hw]; exact hp)).halves (by rw [hw]; exact hread)
    rw [hhalves, hblk, hw]
    rfl
  · have hout := ((hinv h).record (by rw [hw]; exact hp)).outputs k i
    rw [hw] at hout hr ⊢
    exact hout hblk hi hr
  · exact ⟨congrArg Reply.byte (State.byteUnless_destination hp hd _),
      congrArg Reply.byte (State.byteUnless_destination hp hd _)⟩
  · have hfresh : s.work.written a.toNat = false :=
      decide_eq_false fun h => by unfold byteAddr at ha; omega
    have hland : Memory.read (s.landWrite c a v).mem a.toNat = v :=
      State.landWrite_read_self hm (by rw [hfresh, Bool.and_false]) c v
    have hstep := coreStep_bufWrite_read (by rw [hw]; exact hph)
      (by rw [hmem]; exact State.landWrite_wf hm c a v) ht hj
    have hbyte : byteAddr (write s).work.ldst (write s).work.blk j = a.toNat := by
      rw [ha, hw]
      rfl
    rw [hbyte, hmem, hland] at hstep
    exact hstep
  · have hbyte := State.landWrite_read_destination hp hm hd c v
    rw [hw]
    exact hbyte
  · rw [hmem]
    exact State.landWrite_read_outside hp h hx hd v

end Sys2Proof.Machine

/-! PROOFS. 20_memory.md: cache maintenance that is skipped, late or early (rules R72 and R76,
70_reset_and_hazards.md rule R255). -/

namespace Sys2Proof.Machine

/-! ### A race ends no stale mark -/

theorem State.redraw_stale {c : Config} {s : State} (n : Nat) {x : Nat} (hx : x ∈ s.stale) :
    x ∈ (s.redraw c n).stale :=
  State.redraw_induct (c := c) (P := fun t => x ∈ t.stale)
    (fun _ v t d _ ht => State.retake_stale (s := { t with drawn := d }) v ht) n s hx

theorem State.markRace_stale {c : Config} {b : Bool} {s : State} (n : Nat) {x : Nat}
    (hx : x ∈ s.stale) : x ∈ (s.markRace c b n).stale := by
  cases h : b && s.phase.isBuffer with
  | false => rwa [State.markRace_quiet h]
  | true =>
    rw [State.markRace_races h]
    exact State.redraw_stale n hx

/-- An invalidate of a destination byte before DONE = 1 is too early (70_reset_and_hazards.md rule
R255). -/
theorem State.invalidate_stale {s : State} {a : Addr} (hp : s.phase.isBuffer = true)
    (hd : s.work.inDestination a.toNat = true) (hs : s.stale.contains a.toNat = true) (c : Config) :
    (s.invalidate c a).stale.contains a.toNat = true := by
  rw [List.contains_iff_mem] at hs ⊢
  simp only [State.invalidate, hp, hd, Bool.and_self, if_true]
  exact State.markRace_stale (s := { s with drawn := s.drawn + 1 }) _ hs

/-! ### A clean that comes too late -/

theorem State.held_iff {c : Config} {a : Addr} {s : State} :
    s.held c a = true ↔ s.dirty.contains a.toNat = true ∧ c.coherent = false := by
  simp [State.held]

section Late

variable {c : Config} {s : State} {a : Addr} (hh : s.held c a = true) (hp : s.phase.isBuffer = true)
include hh hp

/-- It races for a source byte. -/
theorem State.clean_racedSrc_late (hs : s.work.inSource a.toNat = true) :
    (s.clean c a).racedSrc.contains a.toNat = true := by
  rw [State.clean_racedSrc, hh, hp, hs]
  exact contains_insert_self _ _

/-- It races for a destination byte. -/
theorem State.clean_racedDst_late (hd : s.work.inDestination a.toNat = true) :
    (s.clean c a).racedDst.contains a.toNat = true := by
  rw [State.clean_racedDst, hh, hp, hd]
  exact contains_insert_self _ _

end Late

/-- The core's write of a byte that was raced for stays or is lost by a free bit (20_memory.md rule
R72 c). -/
theorem State.dmaWrite_raced {c : Config} {s t : State} {a n : Nat} {v : Byte} (hm : Memory.wf s.mem)
    (hr : s.racedDst.contains a = true) (h : s.dmaWrite c a v n = .ok t) :
    Memory.read t.mem a = if freeBit n then v else Memory.read s.mem a := by
  obtain ⟨-, -, rfl⟩ := State.dmaWrite_ok h
  rw [hr]
  cases freeBit n with
  | false => rfl
  | true => exact Memory.read_write_same hm a v

/-- Settles O60: a byte with a mark is open; maintenance in time ends the mark and leaves memory alone,
maintenance during a buffer command is a race or ends nothing. -/
theorem skippedMaintenanceLeavesBytesOpen : Obligations.SkippedMaintenanceLeavesBytesOpen := by
  intro c s a n hc
  refine ⟨fun hd => State.dmaByte_dirty hc hd n, fun hs => ?_, fun hr hs hp => ?_, fun hp hd => ?_,
    fun hp hd => ?_, fun hp hd hs => State.invalidate_stale hp hd hs c⟩
  · rw [State.memByte, hs, hc]
    exact State.byteUnless_uncertain a s
  · rw [State.dmaByte_memory (by simpa [hp] using hr) (.inr (State.clean_not_dirty c a s)),
      State.clean_mem hp hs]
  · have hq : s.phase.isBuffer = false := by rw [hp]; rfl
    have hheld : s.held c a = false := by rw [State.held, hd, Bool.false_and]
    rw [State.memByte, State.invalidate_not_stale hq, Bool.false_and,
      State.byteUnless_memory (by simpa using hq), State.invalidate_mem hheld]
  · have hh : s.held c a = true := State.held_iff.2 ⟨hd, hc⟩
    exact ⟨fun hs => State.dmaByte_raced (State.clean_racedSrc_late hh hp hs) c n,
      fun hd _ t v ht hm => State.dmaWrite_raced (State.clean_wf hm c a)
        (State.clean_racedDst_late hh hp hd) ht,
      fun hs hm => State.clean_read_stale hm hh hs⟩

end Sys2Proof.Machine

/-! PROOFS. 30_encoding.md: the decoder against the opcode map (rules R83 to R85), the CMD write of a word
(rules R84 and R88), and the bus transactions (rule R87). -/

namespace Sys2Proof

/-! ### The two fields of a word -/

theorem rsvField_append_opcField (w : Word) : rsvField w ++ opcField w = w :=
  (BitVec.extractLsb'_append_extractLsb'_eq_extractLsb' rfl).trans BitVec.extractLsb'_eq_self

theorem rsvField_eq_zero_iff {w : Word} : rsvField w = 0#24 ↔ w.toNat < 2 ^ 8 := by
  have := w.isLt
  rw [← BitVec.toNat_inj, rsvField, BitVec.extractLsb'_toNat, Nat.shiftRight_eq_div_pow,
    BitVec.toNat_ofNat]
  omega

/-- The model's own round trip, for every command. -/
theorem roundTrip (i : Instr) : Laws.RoundTrip.Statement i := by
  cases i
  exacts [Laws.RoundTrip.setkey, Laws.RoundTrip.encb, Laws.RoundTrip.decb, Laws.RoundTrip.encbuf,
    Laws.RoundTrip.decbuf]

@[simp] theorem decode_encode (i : Instr) : decode (encode i) = .ok i := (roundTrip i).2.2

/-! ### The opcode map -/

theorem commandOf_eq_some_iff {opc : BitVec 8} {i : Instr} :
    commandOf opc = some i ↔ opc = opcodeOf i := by
  constructor
  · intro h
    unfold commandOf at h
    split_ifs at h <;> cases h <;> assumption
  · rintro rfl
    cases i <;> rfl

theorem decode_of_reserved {w : Word} (h : rsvField w ≠ 0#24) :
    decode w = .error .reservedBits := if_neg h

theorem decode_of_command {w : Word} {i : Instr} (h : rsvField w = 0#24)
    (hc : commandOf (opcField w) = some i) : decode w = .ok i := by simp [decode, h, hc]

theorem decode_of_unassigned {w : Word} (h : rsvField w = 0#24)
    (hc : commandOf (opcField w) = none) : decode w = .error .unassignedOpcode := by
  simp [decode, h, hc]

/-- A word whose fields are those of a command's word is that word (30_encoding.md rule R81). -/
theorem eq_encode_of_fields {w : Word} {i : Instr} (h : rsvField w = 0#24)
    (hc : commandOf (opcField w) = some i) : w = encode i := by
  rw [← rsvField_append_opcField w, h, commandOf_eq_some_iff.1 hc]
  rfl

/-- The ways the decoder can go (30_encoding.md rules R83 and R84). -/
theorem decode_cases (w : Word) :
    (∃ i, w = encode i ∧ decode w = .ok i)
      ∨ (w.toNat < 2 ^ 8 ∧ decode w = .error .unassignedOpcode)
      ∨ (¬ w.toNat < 2 ^ 8 ∧ decode w = .error .reservedBits) := by
  rw [← rsvField_eq_zero_iff]
  by_cases h : rsvField w = 0#24
  · cases hc : commandOf (opcField w) with
    | some i => exact .inl ⟨i, eq_encode_of_fields h hc, decode_of_command h hc⟩
    | none => exact .inr (.inl ⟨h, decode_of_unassigned h hc⟩)
  · exact .inr (.inr ⟨h, decode_of_reserved h⟩)

theorem decode_eq_ok_iff {w : Word} {i : Instr} : decode w = .ok i ↔ w = encode i := by
  constructor
  · intro h
    obtain ⟨j, rfl, hj⟩ | ⟨-, he⟩ | ⟨-, he⟩ := decode_cases w
    · exact congrArg encode (Except.ok.inj (hj.symm.trans h))
    · exact nomatch he.symm.trans h
    · exact nomatch he.symm.trans h
  · rintro rfl
    exact decode_encode i

theorem decode_of_not_encode {w : Word} (h : ∀ i, w ≠ encode i) :
    decode w = .error (if w.toNat < 2 ^ 8 then .unassignedOpcode else .reservedBits) := by
  obtain ⟨i, hi, -⟩ | ⟨hw, he⟩ | ⟨hw, he⟩ := decode_cases w
  · exact absurd hi (h i)
  · rw [he, if_pos hw]
  · rw [he, if_neg hw]

/-- Settles O2: the word is put together from its two fields, which the decoder and the encoder read off
one map. -/
theorem decodeAcceptsExactlyTheOpcodeMap : Obligations.DecodeAcceptsExactlyTheOpcodeMap :=
  ⟨⟨rfl, rfl, rfl, rfl, rfl⟩, fun _ _ => decode_eq_ok_iff, fun _ => decode_of_not_encode⟩

/-- Settles O1: the model's own tests of the five words, and for each of the other four the field that is
off. -/
theorem tableWordsDecode : Obligations.TableWordsDecode :=
  ⟨decode_setkey, decode_encb, decode_decb, decode_encbuf, decode_decbuf,
    decode_of_unassigned rfl rfl, decode_of_unassigned rfl rfl,
    decode_of_reserved (by decide), decode_of_reserved (by decide)⟩

end Sys2Proof

namespace Sys2Proof.Machine

/-! ### The CMD write -/

/-- What the decoder makes of a placed word of `n` bits, none of them lost. -/
theorem decodeTableWord_eq_some {n w : Nat} {i : Instr} (h : decodeTableWord n w = some i) :
    w < 2 ^ n ∧ decode (BitVec.ofNat 32 w) = .ok i := by
  unfold decodeTableWord at h
  split at h
  · rename_i hw
    split at h
    · rename_i hd
      exact ⟨hw.2, Option.some.inj h ▸ hd⟩
    · exact nomatch h
  · exact nomatch h

/-- Settles O4: the placed event is taken off again by the step that runs the command. -/
theorem placedCommandRunsNext : Obligations.PlacedCommandRunsNext := by
  intro s n w i h
  obtain ⟨hw, hd⟩ := decodeTableWord_eq_some h
  have hhost : (s.withFetchWord n w).host = .wr 0x08#8 4 (BitVec.ofNat 32 w) :: s.host := by
    rw [State.withFetchWord, Nat.mod_eq_of_lt hw]
  exact stepRunsTheDecodedCommand _ _ _ _ hhost hd

theorem command_of_not_encode {w : Word} (h : ∀ i, w ≠ encode i) (s : State) :
    command w s = .next (s.illegal w) := by simp [command, decode_of_not_encode h]

theorem State.illegal_idle {s : State} (h : s.status.busy = false) (w : Word) :
    s.illegal w = (s.accept (opcField w)).complete .illegalCmd := State.issue_idle h _ _

theorem State.illegal_busy {s : State} (h : s.status.busy = true) (w : Word) :
    s.illegal w = s.drop := State.issue_busy h _ _

/-- Settles O8: the idle core accepts the word and completes at once, the busy one drops it. -/
theorem illegalWordCompletesAtOnce : Obligations.IllegalWordCompletesAtOnce := by
  intro s w rest hhost hw
  have hstep : step s = .next (State.illegal w { s with host := rest }) := by
    rw [step, stepWith_cmd hhost, command_of_not_encode hw]
  refine ⟨fun hb => ⟨_, hstep, ?_⟩, fun hb => ?_⟩
  · rw [State.illegal_idle (s := { s with host := rest }) hb]
    exact ⟨⟨rfl, rfl, rfl, rfl, rfl, rfl, rfl⟩, rfl, ⟨rfl, rfl, rfl, rfl, rfl, rfl, rfl, rfl⟩,
      ⟨rfl, rfl⟩, ⟨rfl, rfl⟩, ⟨rfl, rfl⟩, fun _ => rfl, rfl⟩
  · rw [hstep, State.illegal_busy (s := { s with host := rest }) hb]
    rfl

/-! ### Bus transactions -/

theorem windowOffset_base_add (c : Config) (off : BitVec 8) :
    windowOffset c (c.regBase + off.toNat) = some off := by
  have := off.isLt
  rw [windowOffset, if_pos (by omega), Nat.add_sub_cancel_left, BitVec.ofNat_toNat,
    BitVec.setWidth_eq]

theorem windowOffset_outside {c : Config} {addr : Nat}
    (h : addr < c.regBase ∨ c.regBase + 256 ≤ addr) : windowOffset c addr = none :=
  if_neg (by omega)

@[simp] theorem regAt_offset (r : Reg) : regAt r.offset = r := by cases r <;> rfl

/-- Settles O48: a register's offset is recovered from its address, and lies in the window. -/
theorem transactionsReachTheirRegister : Obligations.TransactionsReachTheirRegister := by
  refine ⟨fun c r v => ⟨?_, ?_, regAt_offset r⟩, rfl, fun c addr size v h => ⟨?_, ?_⟩⟩
  · rw [Transaction.event, windowOffset_base_add]
    rfl
  · rw [Transaction.event, windowOffset_base_add]
    rfl
  · rw [Transaction.event, windowOffset_outside h]
    rfl
  · rw [Transaction.event, windowOffset_outside h]
    rfl

end Sys2Proof.Machine

/-! PROOFS. 30_encoding.md: the pseudo-instructions (rule R89), as runs of the machine. -/

namespace Sys2Proof.Machine

/-! ### Runs -/

/-- Some number of machine steps takes `s` to `t`. -/
def Reaches (s t : State) : Prop := ∃ n, Host.Core.run Sys2Proof.core n s = .next t

theorem Reaches.refl (s : State) : Reaches s s := ⟨0, rfl⟩

theorem Reaches.head {s t u : State} (h : step s = .next t) (hr : Reaches t u) : Reaches s u := by
  obtain ⟨n, hn⟩ := hr
  exact ⟨n + 1, (run_of_next (M := Sys2Proof.core) h n).trans hn⟩

theorem Reaches.trans {s t u : State} (h : Reaches s t) (hr : Reaches t u) : Reaches s u := by
  obtain ⟨n, hn⟩ := h
  induction n generalizing s with
  | zero =>
    cases hn
    exact hr
  | succ n ih =>
    cases hs : step s with
    | next v => exact .head hs (ih ((run_of_next (M := Sys2Proof.core) hs n).symm.trans hn))
    | fault r => exact nomatch (run_of_fault (M := Sys2Proof.core) hs n).symm.trans hn
    | refused r => exact nomatch (run_of_refused (M := Sys2Proof.core) hs n).symm.trans hn

/-! ### One event of the assembler -/

theorem Reg.offset_aligned (r : Reg) : r.offset.toNat % 4 = 0 := by cases r <;> rfl

/-- `WR` of another register than CMD. -/
theorem step_wr {s : State} {r : Reg} {v : Word} {rest : List Event} (h : s.host = wr r v :: rest)
    (hr : r ≠ .cmd) : step s = .next (State.writeReg r v { s with host := rest }) := by
  have hstep := step_write h r.offset_aligned (by rwa [regAt_offset])
  rwa [regAt_offset] at hstep

/-- `RD`. -/
theorem step_rd {s : State} {r : Reg} {rest : List Event} (h : s.host = rd r :: rest) :
    step s = .next { s with host := rest, reply := .word (s.readReg r) } := by
  have hstep := step_read h r.offset_aligned
  rwa [regAt_offset] at hstep

/-- A command mnemonic. -/
theorem step_cmd {s : State} {i : Instr} {rest : List Event} (h : s.host = cmd i :: rest) :
    step s = exec i { s with host := rest } :=
  stepRunsTheDecodedCommand s (encode i) i rest h (decode_encode i)

/-- The mask of `WAITDONE` finds its value exactly when DONE = 1 (10_state.md rule R28). -/
theorem Status.word_and_done_mask (t : Status) :
    t.word &&& 0x00000002#32 = 0x00000002#32 ↔ t.done = true := by
  have hbit : t.word.getLsbD 1 = t.done := t.word_getLsbD 1
  rw [show 0x00000002#32 = BitVec.twoPow 32 1 by decide, BitVec.and_twoPow, hbit]
  cases t.done <;> decide

/-- `WAITDONE` with DONE = 1 is over at once. -/
theorem step_waitDone_done {s : State} {rest : List Event} (h : s.host = waitDone :: rest)
    (hd : s.status.done = true) :
    step s = .next { s with host := rest, reply := .word s.status.word } :=
  (pollReadsUntilItFinds s _ _ _ rest h rfl).1 (s.status.word_and_done_mask.2 hd)

/-- `WAITDONE` with DONE = 0 lets the core take its next step. -/
theorem step_waitDone_busy {s : State} {rest : List Event} (h : s.host = waitDone :: rest)
    (hd : s.status.done = false) :
    step s = coreStep Config.chip { s with reply := .word s.status.word } :=
  (pollReadsUntilItFinds s _ _ _ rest h rfl).2
    (mt s.status.word_and_done_mask.1 (by simp [hd]))

/-! ### Waiting for a command that is no buffer command -/

/-- `s` with another answer to the host's last read. -/
def State.withReply (q : Reply) (s : State) : State := { s with reply := q }

/-- The core does not read that answer. -/
theorem coreStep_withReply {c : Config} {s : State} (hp : s.phase.isBuffer = false) (q : Reply) :
    coreStep c (s.withReply q) = mapNext (State.withReply q) (coreStep c s) := by
  cases h : s.phase
  case idle => rw [coreStep_idle h, coreStep_idle (s := s.withReply q) h]; rfl
  case keygen => rw [coreStep_keygen h, coreStep_keygen (s := s.withReply q) h]; rfl
  case rounds =>
    rw [coreStep_rounds h, coreStep_rounds (s := s.withReply q) h]
    by_cases hr : s.work.rnd = 15
    · rw [roundsStep_last hr, roundsStep_last (s := s.withReply q) hr]
      rfl
    · rw [roundsStep_more hr, roundsStep_more (s := s.withReply q) hr]
      rfl
  all_goals simp [h, Phase.isBuffer] at hp

/-- `WAITDONE` takes the core through the `n` steps to DONE = 1. -/
theorem reaches_waitDone {s u : State} {n : Nat} {rest : List Event} (h : s.host = waitDone :: rest)
    (hrun : ∀ m, m < n → ∃ v, coreSteps Config.chip m s = .next v ∧ v.phase.isBuffer = false
      ∧ v.status.done = false)
    (hend : coreSteps Config.chip n s = .next u) (hdone : u.status.done = true) (q : Reply) :
    Reaches (s.withReply q) { u with host := rest, reply := .word u.status.word } := by
  induction n generalizing s q with
  | zero =>
    cases hend
    exact .head (step_waitDone_done (s := u.withReply q) h hdone) (.refl _)
  | succ n ih =>
    obtain ⟨v, hv, hp, hd⟩ := hrun 0 (by omega)
    cases hv
    cases ht : coreStep Config.chip s with
    | next t =>
      obtain ⟨-, -, -, -, hhost, -⟩ := coreStepFrame _ _ _ ht
      have hstep : step (s.withReply q) = .next (t.withReply (.word s.status.word)) := by
        rw [step_waitDone_busy (s := s.withReply q) h hd]
        exact (coreStep_withReply hp _).trans (congrArg _ ht)
      refine .head hstep (ih (hhost.trans h) (fun m hm => ?_) ?_ _)
      · rw [← coreSteps_succ ht]
        exact hrun (m + 1) (by omega)
      · rw [← coreSteps_succ ht, hend]
    | fault r => exact nomatch (coreSteps_fault ht n).symm.trans hend
    | refused r => exact nomatch (coreSteps_refused ht n).symm.trans hend

/-! ### The core steps of SETKEY and of a block command -/

/-- The one step of SETKEY (40_subkey_schedule.md rule R103). -/
theorem coreStep_startKeygen (c : Config) (s : State) :
    coreStep c s.startKeygen = .next (State.complete .none
      { s with sk := sched c s.key, status := { s.status with keyValid := true } }) := rfl

/-- `n` rounds of a block command that do not end it (42_block_core.md rule R150). -/
theorem coreSteps_rounds {c : Config} {s : State} (hp : s.phase = .rounds) {n : Nat}
    (hn : s.work.rnd.val + n ≤ 15) :
    ∃ r : Fin 16, r.val = s.work.rnd.val + n ∧ coreSteps c n s = .next { s with
      work := { s.work with
        wl := (roundsFrom c s.sk s.work.ldir n s.work.rnd.val (s.work.wl, s.work.wr)).1
        wr := (roundsFrom c s.sk s.work.ldir n s.work.rnd.val (s.work.wl, s.work.wr)).2
        rnd := r } } := by
  induction n generalizing s with
  | zero => exact ⟨s.work.rnd, rfl, rfl⟩
  | succ n ih =>
    have hr : s.work.rnd ≠ 15 := fun h => by rw [h] at hn; simp at hn
    have hval := rnd_succ_val hr
    obtain ⟨r, hrv, hsteps⟩ := ih (s := { s with work := { s.work with
      wl := (s.roundOnce c).1, wr := (s.roundOnce c).2, rnd := s.work.rnd + 1 } }) hp
      (by simp only [hval]; omega)
    refine ⟨r, by simp only [hval] at hrv; omega, ?_⟩
    rw [coreSteps_succ (coreStep_rounds hp), roundsStep_more hr, hsteps,
      State.roundsFrom_roundOnce, ← hval]

section Block

variable (c : Config) {s : State} (hk : s.status.keyValid = true) (d : Dir)
include hk

/-- A block command before its last round (42_block_core.md rules R147 and R148). -/
theorem coreSteps_startBlock {m : Nat} (hm : m ≤ 15) :
    ∃ (r : Fin 16) (w : Work), r.val = m ∧ coreSteps c m (s.startBlock d)
      = .next { s with
        phase := .rounds
        work := { w with
          ldir := d
          wl := (roundsFrom c s.sk d m 0 (split s.din)).1
          wr := (roundsFrom c s.sk d m 0 (split s.din)).2
          rnd := r } } := by
  rw [State.startBlock_keyed hk]
  obtain ⟨r, hr, hsteps⟩ := coreSteps_rounds (c := c) (n := m) (s := { s with
    work := { s.work with lblk := s.din, ldir := d, wl := hi s.din, wr := lo s.din, rnd := 0 }
    phase := .rounds }) rfl (by simpa using hm)
  exact ⟨r, { s.work with lblk := s.din }, by simpa using hr, hsteps⟩

/-- A block command from its acceptance to its end (42_block_core.md rules R147 and R148). -/
theorem coreSteps_startBlock_end : coreSteps c 16 (s.startBlock d)
    = .next (State.complete .none (s.setDout (crypt c s.sk d s.din))) := by
  obtain ⟨r, w, hr, hsteps⟩ := coreSteps_startBlock c hk d (le_refl 15)
  obtain rfl : r = 15 := Fin.ext hr
  rw [show 16 = 15 + 1 from rfl, coreSteps_add hsteps, coreSteps_succ (coreStep_rounds rfl),
    roundsStep_last rfl, crypt, roundsFrom_last]
  rfl

end Block

/-! ### The pseudo-instructions -/

/-- The mnemonic of a command with the acceptance part `body`, on an idle core. -/
theorem step_cmd_idle {s : State} {i : Instr} {body : State → State} {rest : List Event}
    (hexec : ∀ t, exec i t = .next (t.issue (opcodeOf i) body)) (h : s.host = cmd i :: rest)
    (hb : s.status.busy = false) :
    step s = .next (body (State.accept (opcodeOf i) { s with host := rest })) := by
  rw [step_cmd h, hexec, State.issue_idle (s := { s with host := rest }) hb]

/-- `LOADKEY` from its first event to its last: `r` is the state with KEY written, `a` the one with SETKEY
accepted. -/
theorem loadKey_reaches {s : State} {x : Block} {rest : List Event} (hb : s.status.busy = false)
    (h : s.host = loadKey x ++ rest) :
    ∃ t, Reaches s t ∧ t.host = rest ∧ t.sk = sched Config.chip x ∧ t.status.keyValid = true
      ∧ t.key = x ∧ Completed .none 0x01#8 s t := by
  let r : State := { s with host := cmd .setkey :: waitDone :: rest, keyHi := hi x, keyLo := lo x }
  let a : State := State.accept 0x01#8 { r with host := waitDone :: rest }
  have hkey : a.key = x := join_hi_lo x
  have hwait := reaches_waitDone (s := a.startKeygen) (n := 1) rfl
    (fun m hm => ⟨a.startKeygen, by rw [Nat.lt_one_iff.1 hm]; rfl, rfl, rfl⟩)
    (coreSteps_succ (coreStep_startKeygen Config.chip a) 0) rfl s.reply
  have hrun := Reaches.head (step_cmd_idle (s := r) (fun _ => rfl) rfl hb) hwait
  exact ⟨_, .head (step_wr h nofun) (.head (step_wr rfl nofun) hrun), rfl,
    congrArg (sched Config.chip) hkey, rfl, hkey, rfl, rfl, rfl, rfl, rfl, rfl, rfl⟩

/-- The two reads of DOUT, its low half last. -/
theorem reaches_readDout {s : State} {rest : List Event}
    (h : s.host = rd .doutHi :: rd .doutLo :: rest) :
    Reaches s { s with host := rest, reply := .word s.doutLo } :=
  .head (step_rd h) (.head (step_rd rfl) (.refl _))

/-- The events of `ENC64` and `DEC64`, `i` being the command. -/
def block64 (i : Instr) (b : Block) : List Event :=
  [wr .dinHi (hi b), wr .dinLo (lo b), cmd i, waitDone, rd .doutHi, rd .doutLo]

theorem enc64_eq_block64 : enc64 = block64 .encb := rfl

theorem dec64_eq_block64 : dec64 = block64 .decb := rfl

/-- `ENC64` or `DEC64` from its first event to its last: `r` is the state with DIN written, `a` the one
with the command accepted. -/
theorem block64_reaches {s : State} {x : Block} {rest : List Event} {i : Instr} {d : Dir}
    (hexec : ∀ t, exec i t = .next (t.issue (opcodeOf i) (State.startBlock d)))
    (hb : s.status.busy = false) (hk : s.status.keyValid = true)
    (h : s.host = block64 i x ++ rest) :
    ∃ t, Reaches s t ∧ t.host = rest ∧ t.dout = crypt Config.chip s.sk d x
      ∧ t.reply = .word (lo t.dout) ∧ Completed .none (opcodeOf i) s t := by
  let l : List Event := waitDone :: rd .doutHi :: rd .doutLo :: rest
  let r : State := { s with host := cmd i :: l, dinHi := hi x, dinLo := lo x }
  let a : State := State.accept (opcodeOf i) { r with host := l }
  have hdin : a.din = x := join_hi_lo x
  obtain ⟨hhost, hreply⟩ : (a.startBlock d).host = a.host ∧ (a.startBlock d).reply = s.reply := by
    rw [State.startBlock_keyed (s := a) hk]
    exact ⟨rfl, rfl⟩
  have hwait := reaches_waitDone (s := a.startBlock d) (n := 16) hhost
    (fun m hm => by
      obtain ⟨r, w, -, hsteps⟩ :=
        coreSteps_startBlock Config.chip (s := a) hk d (Nat.le_of_lt_succ hm)
      exact ⟨_, hsteps, rfl, rfl⟩)
    (coreSteps_startBlock_end Config.chip (s := a) hk d) rfl s.reply
  rw [hdin, ← hreply] at hwait
  have hrun := Reaches.head (step_cmd_idle (s := r) hexec rfl hb)
    (hwait.trans (reaches_readDout rfl))
  have hdout := join_hi_lo (crypt Config.chip s.sk d x)
  exact ⟨_, .head (step_wr h nofun) (.head (step_wr rfl nofun) hrun), rfl, hdout,
    (congrArg (fun b => Reply.word (lo b)) hdout).symm, rfl, rfl, rfl, rfl, rfl, rfl, rfl⟩

/-- Settles O57: each expansion is run event by event, the wait by the core steps of its command. -/
theorem pseudoInstructionsReachTheirResult : Obligations.PseudoInstructionsReachTheirResult := by
  intro s x rest hb _
  refine ⟨fun h => ?_, fun hk h => ?_, fun hk h => ?_⟩
  · obtain ⟨t, ⟨n, hn⟩, hres⟩ := loadKey_reaches hb h
    exact ⟨n, t, hn, hres⟩
  · rw [enc64_eq_block64] at h
    obtain ⟨t, ⟨n, hn⟩, hres⟩ := block64_reaches (fun _ => rfl) hb hk h
    exact ⟨n, t, hn, hres⟩
  · rw [dec64_eq_block64] at h
    obtain ⟨t, ⟨n, hn⟩, hres⟩ := block64_reaches (fun _ => rfl) hb hk h
    exact ⟨n, t, hn, hres⟩

end Sys2Proof.Machine

/-! PROOFS. 40_subkey_schedule.md: how SETKEY makes the schedule (rules R102 and R103), and what a
write to KEY leaves alone (rule R104). -/

namespace Sys2Proof.Machine

/-! ### What SETKEY makes -/

/-- A write of KEY between the acceptance of SETKEY and its KEYGEN step, or of any other register
that only the host writes, gives the same schedule (40_subkey_schedule.md rule R103). -/
theorem coreStep_startKeygen_writeReg (c : Config) (s : State) {r : Reg} (hr : r ∈ hostWritable)
    (w : Word) : ∃ u, coreStep c (s.startKeygen.writeReg r w) = .next u ∧ u.sk = sched c s.key := by
  obtain ⟨-, hcore⟩ := registerWritesDoNotReachTheCommand c s.startKeygen r w hr
  rw [coreStep_startKeygen] at hcore
  exact ⟨_, hcore, (State.writeReg_frame _ r w).1⟩

/-- An entry of the schedule on the reference configuration (40_subkey_schedule.md rule R103). -/
theorem sched_refConfig (b : Nat) (ok : Addr → AccessKind → Bool) (coh : Bool) (k : Block) (i : Nat)
    (h : i < 16) : (sched (refConfig b ok coh) k)[i] = refSubkey ⟨i, h⟩ k :=
  sched_getElem _ k i h

/-- A command runs once it is accepted, its own acceptance part leaving STATUS and LOP so. -/
theorem Running.of_accept {op : BitVec 8} {s t : State} (hs : t.status = s.status.accept op)
    (hl : t.work.lop = op) : Running op s t := by
  rw [Running, hs]
  exact ⟨rfl, rfl, rfl, rfl, rfl, rfl, hl⟩

/-- A completion completes the command whose opcode LASTOP holds. -/
theorem Completed.of_complete (code : ErrCode) {op : BitVec 8} {s t : State}
    (hl : t.status.lastop = op) (ho : t.status.ovr = s.status.ovr) :
    Completed code op s (t.complete code) :=
  ⟨rfl, rfl, rfl, rfl, rfl, hl, ho⟩

/-- Settles O14: the state `a` is the acceptance that every command shares, and the KEYGEN step from
`a.startKeygen` completes. -/
theorem setkeyLoadsTheSchedule : Obligations.SetkeyLoadsTheSchedule := by
  refine ⟨fun c s hb => ?_, fun b ok coh => ?_⟩
  · let a : State := s.accept 0x01#8
    have hexec : exec .setkey s = .next a.startKeygen :=
      congrArg Host.Outcome.next (State.issue_idle hb 0x01#8 State.startKeygen)
    have hkeygen : coreStep c a.startKeygen = .next (keygenStep c a.startKeygen) :=
      coreStep_keygen rfl
    obtain ⟨hregs, hout, -, -, -, -, -, -, hdout, hmem⟩ := coreStepFrame c _ _ hkeygen
    obtain ⟨hblk, hmem, -⟩ := hmem nofun
    refine ⟨a.startKeygen, _, hexec, .of_accept rfl rfl, rfl, rfl, ⟨rfl, rfl⟩, hkeygen,
      fun i => sched_getElem c s.key i i.isLt, rfl, .of_complete .none rfl rfl, hregs, hdout nofun,
      ⟨hout, hblk⟩, hmem, fun r w hr => ?_⟩
    exact coreStep_startKeygen_writeReg c a (by rcases hr with rfl | rfl <;> decide) w
  · simp only [sched_refConfig]
    decide

/-! ### No command's acceptance writes the schedule -/

theorem SameSchedule.refl (s : State) : SameSchedule s s := ⟨rfl, rfl⟩

/-- A CMD write keeps the schedule if the command's own acceptance part does. -/
theorem State.issue_sameSchedule {body : State → State} (hbody : ∀ t, SameSchedule t (body t))
    (op : BitVec 8) (s : State) : SameSchedule s (s.issue op body) := by
  cases hb : s.status.busy
  · rw [State.issue_idle hb]
    exact hbody (s.accept op)
  · rw [State.issue_busy hb]
    exact .refl s

theorem State.startBlock_sameSchedule (d : Dir) (s : State) : SameSchedule s (s.startBlock d) := by
  cases hk : s.status.keyValid
  · rw [State.startBlock_noKey hk]
    exact .refl s
  · rw [State.startBlock_keyed hk]
    exact .refl s

theorem State.startBuffer_sameSchedule (d : Dir) (s : State) :
    SameSchedule s (s.startBuffer d) := by
  cases hk : s.status.keyValid
  · rw [State.startBuffer_noKey hk]
    exact .refl s
  cases hr : rangeError s.src s.dst s.len
  case true =>
    rw [State.startBuffer_range hk hr]
    exact .refl s
  by_cases hl : s.len.toNat = 0
  · rw [State.startBuffer_empty hk hr hl]
    exact .refl s
  · rw [State.startBuffer_ok hk hr hl]
    exact .refl s

theorem exec_sameSchedule {i : Instr} {s t : State} (h : exec i s = .next t) :
    SameSchedule s t := by
  cases i <;> cases h
  case setkey => exact State.issue_sameSchedule (body := State.startKeygen) SameSchedule.refl _ s
  case encb | decb => exact State.issue_sameSchedule (State.startBlock_sameSchedule _) _ s
  case encbuf | decbuf => exact State.issue_sameSchedule (State.startBuffer_sameSchedule _) _ s

theorem command_sameSchedule {w : Word} {s t : State} (h : command w s = .next t) :
    SameSchedule s t := by
  obtain ⟨i, -, hi⟩ | rfl := command_cases h
  · exact exec_sameSchedule hi
  · exact State.issue_sameSchedule (body := State.complete .illegalCmd) SameSchedule.refl _ s

theorem State.writeReg_sameSchedule (s : State) (r : Reg) (w : Word) :
    SameSchedule s (s.writeReg r w) := by
  obtain ⟨hsk, -, -, -, -, -, -, -, -, -, -, hkey⟩ := s.writeReg_frame r w
  exact ⟨hsk, hkey⟩

/-! ### The one step that writes it -/

/-- From `s` to `t` a KEYGEN step has put the whole schedule of LKEY in SK (40_subkey_schedule.md
rule R102). -/
def LoadsSchedule (c : Config) (s t : State) : Prop :=
  s.phase = .keygen ∧ t.phase = .idle ∧ t.status.keyValid = true
    ∧ ∀ i : Fin 16, t.sk[i] = c.subkey i s.work.lkey

theorem keygenStep_loadsSchedule {c : Config} {s : State} (hp : s.phase = .keygen) :
    LoadsSchedule c s (keygenStep c s) :=
  ⟨hp, rfl, rfl, fun i => sched_getElem c s.work.lkey i i.isLt⟩

theorem coreStep_schedule {c : Config} {s t : State} (h : coreStep c s = .next t) :
    SameSchedule s t ∨ LoadsSchedule c s t := by
  by_cases hp : s.phase = .keygen
  · rw [coreStep_keygen hp] at h
    cases h
    exact .inr (keygenStep_loadsSchedule hp)
  · obtain ⟨-, -, -, -, -, -, -, hsame, -⟩ := coreStepFrame c s t h
    exact .inl (hsame hp)

theorem eventStep_schedule {c : Config} {e : Event} {s t : State} (he : e ≠ .reset)
    (h : eventStep c e s = .next t) : SameSchedule s t ∨ LoadsSchedule c s t := by
  cases e
  case wr offset size w =>
    obtain ⟨-, -, ⟨-, hcmd⟩ | ⟨-, rfl⟩⟩ := busWrite_cases h
    · exact .inl (command_sameSchedule hcmd)
    · exact .inl (s.writeReg_sameSchedule _ w)
  case rd offset size =>
    obtain ⟨-, -, rfl⟩ := busRead_cases h
    exact .inl (.refl s)
  case poll offset mask value =>
    obtain ⟨-, ⟨-, rfl⟩ | ⟨-, hcore⟩⟩ := pollOnce_cases h
    · exact .inl (.refl s)
    · have hstep := coreStep_schedule hcore
      exact hstep
  case core => exact coreStep_schedule h
  case memWrite | memRead | masterWrite | masterRead | clean | invalidate =>
    cases h
    exact .inl (.refl s)
  case reset => exact absurd rfl he

/-- Settles O15: of the events but the reset only a core step writes SK, and only in KEYGEN. -/
theorem scheduleIsWrittenAllAtOnce : Obligations.ScheduleIsWrittenAllAtOnce := by
  intro s t h hreset
  cases hh : s.host with
  | nil => exact coreStep_schedule ((stepWith_nil hh).symm.trans h)
  | cons e rest =>
    have hne : e ≠ .reset := fun he => hreset rest (he ▸ hh)
    exact eventStep_schedule (s := { s with host := rest }) hne ((stepWith_cons hh).symm.trans h)

/-! ### Writes of KEY -/

/-- `s` with each half of KEY changed by a function of its own. -/
def State.mapKey (f g : Word → Word) (s : State) : State :=
  { s with keyHi := f s.keyHi, keyLo := g s.keyLo }

theorem State.writeReg_eq_mapKey {r : Reg} (hr : r = .keyLo ∨ r = .keyHi) (w : Word) :
    ∃ f g, State.writeReg r w = State.mapKey f g := by
  rcases hr with rfl | rfl
  · exact ⟨id, fun _ => w, rfl⟩
  · exact ⟨fun _ => w, id, rfl⟩

section MapKey

variable (f g : Word → Word) (s : State)

/-- A change of KEY commutes with a CMD write if it does with the command's own acceptance part. -/
theorem State.issue_mapKey {body : State → State}
    (hbody : ∀ t, body (State.mapKey f g t) = State.mapKey f g (body t)) (op : BitVec 8) :
    (s.mapKey f g).issue op body = (s.issue op body).mapKey f g := by
  cases hb : s.status.busy
  · rw [State.issue_idle hb, State.issue_idle (s := s.mapKey f g) hb]
    exact hbody (s.accept op)
  · rw [State.issue_busy hb, State.issue_busy (s := s.mapKey f g) hb]
    rfl

theorem State.startBlock_mapKey (d : Dir) :
    (s.mapKey f g).startBlock d = (s.startBlock d).mapKey f g := by
  cases hk : s.status.keyValid
  · rw [State.startBlock_noKey hk, State.startBlock_noKey (s := s.mapKey f g) hk]
    rfl
  · rw [State.startBlock_keyed hk, State.startBlock_keyed (s := s.mapKey f g) hk]
    rfl

theorem State.startBuffer_mapKey (d : Dir) :
    (s.mapKey f g).startBuffer d = (s.startBuffer d).mapKey f g := by
  cases hk : s.status.keyValid
  · rw [State.startBuffer_noKey hk, State.startBuffer_noKey (s := s.mapKey f g) hk]
    rfl
  cases hr : rangeError s.src s.dst s.len
  case true =>
    rw [State.startBuffer_range hk hr, State.startBuffer_range (s := s.mapKey f g) hk hr]
    rfl
  by_cases hl : s.len.toNat = 0
  · rw [State.startBuffer_empty hk hr hl, State.startBuffer_empty (s := s.mapKey f g) hk hr hl]
    rfl
  · rw [State.startBuffer_ok hk hr hl, State.startBuffer_ok (s := s.mapKey f g) hk hr hl]
    rfl

/-- No command but SETKEY reads KEY at its acceptance (40_subkey_schedule.md rule R104). -/
theorem exec_mapKey {i : Instr} (hi : i ≠ .setkey) :
    exec i (s.mapKey f g) = mapNext (State.mapKey f g) (exec i s) := by
  cases i
  case setkey => exact absurd rfl hi
  case encb | decb =>
    exact congrArg Host.Outcome.next
      (State.issue_mapKey f g s (fun t => State.startBlock_mapKey f g t _) _)
  case encbuf | decbuf =>
    exact congrArg Host.Outcome.next
      (State.issue_mapKey f g s (fun t => State.startBuffer_mapKey f g t _) _)

end MapKey

/-- Settles O16: a write of either half of KEY is a change of KEY, which no command but SETKEY reads
at its acceptance. -/
theorem keyWritesLeaveTheSchedule : Obligations.KeyWritesLeaveTheSchedule := by
  intro s r w hr
  refine ⟨s.writeReg_sameSchedule r w, fun i hi => ?_⟩
  obtain ⟨f, g, hfg⟩ := State.writeReg_eq_mapKey hr w
  rw [hfg]
  exact exec_mapKey f g s hi

end Sys2Proof.Machine

/-! PROOFS. 41_round_function.md: what expand, substitute and permute put where (rules R120 to R125), and
the corner cases and examples of the round function (rule R126). -/

namespace Sys2Proof.Machine

/-! ### Selections of positions

expand and permute are of one kind: each output position takes one input position, both counted from the
most significant bit. -/

/-- The word whose position `i` is position `src i` of `x`, positions counted from the most significant
bit. -/
def selectBits {m n : Nat} (src : Fin m → Fin n) (x : BitVec n) : BitVec m :=
  BitVec.ofFnBE fun i => x.getMsbD (src i)

section SelectBits

variable {m n : Nat}

theorem getMsbD_fin (x : BitVec n) (p : Fin n) : x.getMsbD p = x.getLsbD (n - (p.val + 1)) := by
  rw [BitVec.getMsbD_eq_getLsbD, decide_eq_true p.isLt, Bool.true_and, Nat.sub_sub, Nat.add_comm]

@[simp] theorem selectBits_getMsbD (src : Fin m → Fin n) (x : BitVec n) (i : Fin m) :
    (selectBits src x).getMsbD i = x.getMsbD (src i) := by
  rw [selectBits, BitVec.getMsbD_ofFnBE, dif_pos i.isLt]

/-- The same with indices from the least significant bit, and input positions from 1, as the rules write
them. -/
theorem selectBits_getLsbD (src : Fin m → Fin n) (x : BitVec n) (i : Fin m) :
    (selectBits src x).getLsbD (m - 1 - i) = x.getLsbD (n - ((src i).val + 1)) := by
  rw [Nat.sub_sub, Nat.add_comm 1, ← getMsbD_fin, selectBits_getMsbD, getMsbD_fin]

theorem selectBits_zero (src : Fin m → Fin n) : selectBits src 0#n = 0#m := by
  apply BitVec.eq_of_getMsbD_eq
  intro i hi
  rw [selectBits_getMsbD src _ ⟨i, hi⟩, BitVec.getMsbD_zero, BitVec.getMsbD_zero]

theorem selectBits_allOnes (src : Fin m → Fin n) :
    selectBits src (BitVec.allOnes n) = BitVec.allOnes m := by
  apply BitVec.eq_of_getMsbD_eq
  intro i hi
  rw [selectBits_getMsbD src _ ⟨i, hi⟩]
  simp [hi]

/-- Every input position can be read off the output when each one is selected somewhere. -/
theorem selectBits_injective {src : Fin m → Fin n} (h : Function.Surjective src) :
    Function.Injective (selectBits src) := by
  intro x y hxy
  apply BitVec.eq_of_getMsbD_eq
  intro p hp
  obtain ⟨i, hi⟩ := h ⟨p, hp⟩
  have hbit : (selectBits src x).getMsbD i = (selectBits src y).getMsbD i := by rw [hxy]
  simpa only [selectBits_getMsbD, hi] using hbit

theorem selectBits_bijective (σ : Equiv.Perm (Fin n)) : Function.Bijective (selectBits σ) :=
  Finite.injective_iff_bijective.1 (selectBits_injective σ.surjective)

/-- A count over all positions does not see their order. -/
theorem countP_finRange_perm (σ : Equiv.Perm (Fin n)) (p : Fin n → Bool) :
    (List.finRange n).countP (p ∘ σ) = (List.finRange n).countP p := by
  rw [← List.countP_map, σ.map_finRange_perm.countP_eq]

/-- The number of one bits, counted from the most significant bit. -/
theorem countP_getLsbD (x : BitVec n) :
    (List.range n).countP (fun i => x.getLsbD i)
      = (List.finRange n).countP fun p : Fin n => x.getMsbD p := by
  have hrev : (fun p : Fin n => x.getMsbD p) ∘ Fin.revPerm = fun p : Fin n => x.getLsbD p := by
    funext p
    rw [Function.comp_apply, getMsbD_fin, ← Fin.val_rev, Fin.revPerm_apply, Fin.rev_rev]
  rw [← List.map_coe_finRange_eq_range, List.countP_map,
    ← countP_finRange_perm Fin.revPerm (x.getMsbD ·), hrev]
  rfl

theorem selectBits_countP (σ : Equiv.Perm (Fin n)) (x : BitVec n) :
    (List.range n).countP (fun i => (selectBits σ x).getLsbD i)
      = (List.range n).countP fun i => x.getLsbD i := by
  rw [countP_getLsbD, countP_getLsbD, ← countP_finRange_perm σ (x.getMsbD ·)]
  simp only [Function.comp_def, selectBits_getMsbD]

end SelectBits

/-! ### expand -/

/-- REFCFG on some platform, to run the rules' examples on: the three transforms do not read the
platform's parameters. -/
def exampleConfig : Config := refConfig 0 (fun _ _ => true) true

/-- Position `i + 1` of the output takes position `ETABLE[i]` (41_round_function.md rule R120). -/
theorem expand_eq_selectBits (c : Config) : expand c = selectBits fun i => c.etable[i] := by
  funext x
  simp only [expand, selectBits, getMsbD_fin, Config.eEntry]

theorem expand_zero (c : Config) : expand c 0#32 = 0#48 := by
  rw [expand_eq_selectBits, selectBits_zero]

theorem expand_allOnes (c : Config) : expand c 0xFFFFFFFF#32 = 0xFFFFFFFFFFFF#48 := by
  rw [expand_eq_selectBits]
  exact selectBits_allOnes _

/-- expand reads ETABLE alone (41_round_function.md rule R127). -/
theorem expand_tables {c d : Config} (he : c.etable = d.etable) : expand c = expand d := by
  rw [expand_eq_selectBits, expand_eq_selectBits, he]

/-- Settles O17: expand is the selection ETABLE gives. -/
theorem expandPlacesTheTableEntries : Obligations.ExpandPlacesTheTableEntries := by
  refine ⟨fun c x i => ⟨?_, Nat.succ_pos _, c.etable[i].isLt⟩,
    fun c => ⟨expand_zero c, expand_allOnes c⟩, fun b ok coh => ?_⟩
  · rw [expand_eq_selectBits]
    exact selectBits_getLsbD _ x i
  · rw [expand_tables (c := refConfig b ok coh) (d := exampleConfig) rfl]
    decide +kernel

/-! ### substitute -/

theorem extractLsb'_one {w : Nat} (x : BitVec w) (i : Nat) :
    x.extractLsb' i 1 = BitVec.ofBool (x.getLsbD i) := by
  apply BitVec.eq_of_getLsbD_eq
  intro j hj
  obtain rfl : j = 0 := by omega
  simp

/-- Bits of a group are bits of the expansion (41_round_function.md rule R121). -/
theorem extractLsb'_group (y : Subkey) (j : Nat) {i n : Nat} (h : i + n ≤ 6) :
    (group y j).extractLsb' i n = y.extractLsb' (42 - 6 * j + i) n := by
  apply BitVec.eq_of_getLsbD_eq
  intro k hk
  simp only [group, BitVec.getLsbD_extractLsb', Nat.add_assoc, decide_eq_true hk,
    decide_eq_true (by omega : i + k < 6), Bool.true_and]

/-- The row and the column of group `j` in bits of the expansion (41_round_function.md rule R124). -/
theorem nibble_eq_sboxEntry (c : Config) (y : Subkey) {j : Nat} (hj : j < 8) :
    nibble c y j
      = c.sboxEntry (BitVec.ofBool (y.getLsbD (47 - 6 * j)) ++ BitVec.ofBool (y.getLsbD (42 - 6 * j)))
          (y.extractLsb' (43 - 6 * j) 4) := by
  rw [nibble, groupRow, groupCol, extractLsb'_group y j (by omega), extractLsb'_group y j (by omega),
    extractLsb'_group y j (by omega), extractLsb'_one, extractLsb'_one,
    show 42 - 6 * j + 5 = 47 - 6 * j by omega, show 42 - 6 * j + 1 = 43 - 6 * j by omega]
  rfl

/-- Group `j` gives nibble `j` of the output (41_round_function.md rule R123). -/
theorem substitute_extractLsb' (c : Config) (y : Subkey) {j : Nat} (hj : j < 8) :
    (substitute c y).extractLsb' (28 - 4 * j) 4 = nibble c y j := by
  apply BitVec.eq_of_getLsbD_eq
  intro i hi
  simp only [substitute, BitVec.getLsbD_extractLsb', BitVec.getLsbD_append, hi, decide_true,
    Bool.true_and]
  interval_cases j <;>
  · simp (disch := omega) only [if_pos, if_neg]
    congr 1
    omega

/-- Settles O18: the nibble of a group, with the group's bits read off the expansion. -/
theorem substituteLooksUpEightGroups : Obligations.SubstituteLooksUpEightGroups := by
  intro c y j hj
  rw [substitute_extractLsb' c y hj, nibble_eq_sboxEntry c y hj]

/-! ### permute -/

/-- Position `i + 1` of the output takes position `PTABLE[i]` (41_round_function.md rule R125). -/
theorem permute_eq_selectBits (c : Config) : permute c = selectBits c.ptable := by
  funext x
  simp only [permute, selectBits, getMsbD_fin, Config.pEntry]

/-- permute reads PTABLE alone (41_round_function.md rule R127). -/
theorem permute_tables {c d : Config} (hp : c.ptable = d.ptable) : permute c = permute d := by
  rw [permute_eq_selectBits, permute_eq_selectBits, hp]

/-- Settles O19: permute is the selection the bijection PTABLE gives. -/
theorem permuteIsABitPermutation : Obligations.PermuteIsABitPermutation := by
  refine ⟨fun c z i => ?_, fun c => ?_, fun c z => ?_, fun c => ?_, fun b ok coh => ?_⟩
  · rw [permute_eq_selectBits]
    exact selectBits_getLsbD c.ptable z i
  · rw [permute_eq_selectBits]
    exact selectBits_bijective c.ptable
  · rw [permute_eq_selectBits]
    exact selectBits_countP c.ptable z
  · rw [permute_eq_selectBits]
    exact ⟨selectBits_zero c.ptable, selectBits_allOnes c.ptable⟩
  · rw [permute_tables (c := refConfig b ok coh) (d := exampleConfig) rfl]
    decide +kernel

/-! ### feistel -/

/-- Settles O20: the composition by definition; in the corner cases the expansion of all ones is all
ones, so the XOR is the same on both sides. -/
theorem feistelComposesTheThreeTransforms : Obligations.FeistelComposesTheThreeTransforms := by
  refine ⟨fun c r k => rfl, fun c => ⟨?_, ?_, ?_⟩, fun b ok coh => ?_⟩
  · rw [feistel, expand_zero, BitVec.xor_self]
  · rw [feistel, feistel, expand_allOnes, expand_zero, BitVec.xor_self, BitVec.xor_self]
  · rw [feistel, feistel, expand_allOnes, expand_zero, BitVec.xor_zero, BitVec.zero_xor]
  · rw [feistel_tables (c := refConfig b ok coh) (d := exampleConfig) rfl rfl rfl]
    decide +kernel

end Sys2Proof.Machine

/-! PROOFS. 42_block_core.md: the block transform (rules R144 to R146 and R151). -/

namespace Sys2Proof.Machine

/-! ### Decode is encode with the rounds in reverse -/

/-- The other direction. -/
def Dir.flip : Dir → Dir
  | .encode => .decode
  | .decode => .encode

/-- Encode and decode take the subkeys in opposite orders (42_block_core.md rules R144 and R145). -/
theorem subkeyAt_flip (sk : Schedule) (d : Dir) (n : Fin 16) :
    subkeyAt sk d.flip n = subkeyAt sk d n.rev := by
  cases d
  · rfl
  · exact congrArg (fun i : Fin 16 => sk[i]) n.rev_rev.symm

/-- A round undoes itself when the halves are swapped before and after it: the half that `feistel` reads
is kept, and XOR with the same value twice is none. -/
theorem oneRound_swap_oneRound (c : Config) (k : Subkey) (p : Half × Half) :
    oneRound c k (oneRound c k p).swap = p.swap := by
  simp [oneRound, Prod.swap]

/-- The last `m` rounds of the other direction undo the first `m` rounds of a direction, the halves
swapped. -/
theorem roundsFrom_flip_swap (c : Config) (sk : Schedule) (d : Dir) {m : Nat} (hm : m ≤ 16)
    (p : Half × Half) :
    roundsFrom c sk d.flip m (16 - m) (roundsFrom c sk d m 0 p).swap = p.swap := by
  induction m with
  | zero => rfl
  | succ m ih =>
    have hkey : subkeyAt sk d.flip (Fin.ofNat 16 (16 - (m + 1)))
        = subkeyAt sk d (Fin.ofNat 16 (0 + m)) := by
      rw [subkeyAt_flip]
      congr 1
      simp only [Fin.ext_iff, Fin.val_rev, Fin.val_ofNat]
      omega
    rw [roundsFrom_succ, roundsFrom_last, hkey, oneRound_swap_oneRound,
      show 16 - (m + 1) + 1 = 16 - m by omega]
    exact ih (by omega)

theorem split_merge (p : Half × Half) : split (merge p) = p.swap := by
  rw [split, hi_merge, lo_merge, Prod.swap]

theorem merge_swap_split (b : Block) : merge (split b).swap = b := join_hi_lo b

/-- The merge and the split between the two transforms swap the halves (42_block_core.md rule R146). -/
theorem crypt_flip_crypt (c : Config) (sk : Schedule) (d : Dir) (b : Block) :
    crypt c sk d.flip (crypt c sk d b) = b := by
  rw [crypt, crypt, split_merge]
  exact (congrArg merge (roundsFrom_flip_swap c sk d (le_refl 16) (split b))).trans
    (merge_swap_split b)

/-- Settles O23: either direction is the flip of the other. -/
theorem encodeDecodeRoundTrip : Obligations.EncodeDecodeRoundTrip := fun c sk b =>
  ⟨crypt_flip_crypt c sk .encode b, crypt_flip_crypt c sk .decode b⟩

/-! ### The rounds as an iteration -/

/-- The rounds iterate over their numbers. -/
theorem roundsFrom_eq_foldl (c : Config) (sk : Schedule) (d : Dir) (m n : Nat) (p : Half × Half) :
    roundsFrom c sk d m n p
      = (List.range' n m).foldl (fun h i => oneRound c (subkeyAt sk d (Fin.ofNat 16 i)) h) p := by
  induction m generalizing n p with
  | zero => rfl
  | succ m ih => rw [roundsFrom_succ, ih, List.range'_succ, List.foldl_cons]

/-- The transform runs the 16 rounds between the split and the merge (42_block_core.md rules R144 and
R145). -/
theorem crypt_eq_foldl (c : Config) (sk : Schedule) (d : Dir) (b : Block) :
    crypt c sk d b
      = merge ((List.finRange 16).foldl (fun h n => oneRound c (subkeyAt sk d n) h) (split b)) := by
  rw [crypt, roundsFrom_eq_foldl, ← List.range_eq_range', ← List.map_coe_finRange_eq_range,
    List.foldl_map]
  simp only [Fin.ofNat_val_eq_self]

/-- The subkey of round step `n` of a decode (42_block_core.md rule R145). -/
theorem subkeyAt_decode (sk : Schedule) (n : Fin 16) : subkeyAt sk .decode n = sk[15 - n] :=
  congrArg (fun i : Fin 16 => sk[i]) (Fin.last_sub n).symm

/-- Settles O22: the round step and its subkey are spelled out. -/
theorem blockTransformIteratesTheRounds : Obligations.BlockTransformIteratesTheRounds := by
  intro c sk b
  refine ⟨crypt_eq_foldl c sk .encode b, ?_⟩
  rw [crypt_eq_foldl]
  simp only [subkeyAt_decode]
  rfl

/-- The transform sees of schedule and direction only the subkey of each round. -/
theorem crypt_congr {c : Config} {sk : Schedule} {d e : Dir}
    (h : ∀ n, subkeyAt sk d n = subkeyAt sk e n) (b : Block) : crypt c sk d b = crypt c sk e b := by
  simp only [crypt_eq_foldl, h]

/-- Settles O24: each round has the same subkey in both directions, and shifts of 0 are 0. -/
theorem palindromicScheduleEncodesAsItDecodes :
    Obligations.PalindromicScheduleEncodesAsItDecodes := by
  refine ⟨fun c sk hsk b => crypt_congr (d := .encode) (e := .decode) hsk b,
    fun b ok coh i => ?_⟩
  have hzero : ∀ j : Fin 16, refSubkey j 0#64 = 0#48 := by decide
  exact (sched_refConfig b ok coh 0#64 i i.isLt).trans (hzero i)

end Sys2Proof.Machine

/-! PROOFS. 42_block_core.md: the round step, ENCB and DECB, and DOUT (rules R147 to R150). -/

namespace Sys2Proof.Machine

/-! ### One round step -/

@[simp] theorem State.setDout_dout (v : Block) (s : State) : (s.setDout v).dout = v := join_hi_lo v

@[simp] theorem State.complete_dout (code : ErrCode) (s : State) :
    (s.complete code).dout = s.dout := rfl

/-- Settles O25: both forms of the step put the same round in place. -/
theorem roundStepComputesOneRound : Obligations.RoundStepComputesOneRound := by
  intro c s hp
  refine ⟨roundsStep c s, coreStep_rounds hp, fun k f hk hf => ?_⟩
  have hkey : k = subkeyAt s.sk s.work.ldir s.work.rnd := by
    rw [hk]
    cases s.work.ldir
    · rfl
    · exact (subkeyAt_decode s.sk s.work.rnd).symm
  have hround : s.roundOnce c = (s.work.wr, f) := by
    rw [hf, hkey]
    rfl
  refine ⟨fun hr => ?_, fun hr => ?_⟩
  · rw [roundsStep_last hr, hround]
    exact ⟨by simp [merge], .of_complete .none rfl rfl⟩
  · rw [roundsStep_more hr, hround]
    exact ⟨rfl, rfl, rnd_succ_val hr, hp, ⟨rfl, rfl⟩, rfl⟩

/-! ### ENCB and DECB -/

/-- A write to a register that only the host writes comes out the same before and after any number of core
steps (10_state.md rule R39). -/
theorem coreSteps_writeReg (c : Config) {r : Reg} (hr : r ∈ hostWritable) (w : Word) (n : Nat)
    (s : State) :
    coreSteps c n (s.writeReg r w) = mapNext (State.writeReg r w) (coreSteps c n s) := by
  induction n generalizing s with
  | zero => rfl
  | succ n ih =>
    obtain ⟨-, hcore⟩ := registerWritesDoNotReachTheCommand c s r w hr
    cases ht : coreStep c s with
    | next t =>
      rw [ht] at hcore
      rw [coreSteps_succ ht, coreSteps_succ hcore, ih]
    | fault f =>
      rw [ht] at hcore
      rw [coreSteps_fault ht, coreSteps_fault hcore]
      rfl
    | refused f =>
      rw [ht] at hcore
      rw [coreSteps_refused ht, coreSteps_refused hcore]
      rfl

theorem SameDout.dout_eq {s t : State} (h : SameDout s t) : t.dout = s.dout := by
  obtain ⟨hlo, hhi⟩ := h
  rw [State.dout, State.dout, hlo, hhi]

theorem State.writeReg_sameDout (s : State) (r : Reg) (w : Word) : SameDout s (s.writeReg r w) := by
  obtain ⟨-, -, -, -, -, -, -, hlo, hhi, -⟩ := s.writeReg_frame r w
  exact ⟨hlo, hhi⟩

/-- Where `n` core steps lead to `u` and the first `m` of them to `v`, a write of DIN in between changes
nothing of the final DOUT (42_block_core.md rules R147 and R148). -/
theorem coreSteps_writeDin {c : Config} {s u v : State} {m n : Nat} (hmn : m ≤ n)
    (hv : coreSteps c m s = .next v) (hu : coreSteps c n s = .next u) {r : Reg}
    (hr : r = .dinLo ∨ r = .dinHi) (w : Word) :
    ∃ u', coreSteps c (n - m) (v.writeReg r w) = .next u' ∧ u'.dout = u.dout := by
  have hhost : r ∈ hostWritable := by rcases hr with rfl | rfl <;> decide
  refine ⟨u.writeReg r w, ?_, (u.writeReg_sameDout r w).dout_eq⟩
  rw [coreSteps_writeReg c hhost, ← coreSteps_add hv, Nat.add_sub_of_le hmn, hu]
  rfl

section BlockCommand

variable {i : Instr} {d : Dir}
  (hexec : ∀ t, exec i t = .next (t.issue (opcodeOf i) (State.startBlock d)))
  {s : State} (hb : s.status.busy = false)
include hexec hb

/-- A block command with a loaded schedule: `a` is the acceptance that every command shares, from which
the 16 round steps run to the completion with DOUT written. -/
theorem blockCommandRuns (c : Config) (hk : s.status.keyValid = true) :
    BlockCommandRuns c i d s := by
  let a : State := s.accept (opcodeOf i)
  let u : State := State.complete .none (a.setDout (crypt c s.sk d s.din))
  have hstart := State.startBlock_keyed (s := a) hk d
  have hend : coreSteps c 16 (a.startBlock d) = .next u := coreSteps_startBlock_end c (s := a) hk d
  have hdout : u.dout = crypt c s.sk d s.din := State.setDout_dout _ a
  refine ⟨a.startBlock d, u, by rw [hexec, State.issue_idle hb], ?_⟩
  rw [hstart] at hend ⊢
  refine ⟨.of_accept rfl rfl, rfl, rfl, rfl, rfl, rfl, rfl, fun n hn => ?_, hend, hdout,
    .of_complete .none rfl rfl, ⟨rfl, rfl, rfl, rfl, rfl, rfl, rfl, rfl⟩, ⟨rfl, rfl⟩, ⟨rfl, rfl⟩,
    fun _ => rfl⟩
  obtain ⟨r, w, -, hv⟩ := coreSteps_startBlock c (s := a) hk d (Nat.le_of_lt_succ hn)
  rw [hstart] at hv
  refine ⟨_, hv, rfl, rfl, ⟨rfl, rfl⟩, fun q x hq => ?_⟩
  obtain ⟨u', hu', heq⟩ := coreSteps_writeDin (Nat.le_of_lt hn) hv hend hq x
  exact ⟨u', hu', heq.trans hdout⟩

/-- A block command without a schedule completes at its acceptance. -/
theorem blockCommandNeedsKey (hk : s.status.keyValid = false) : BlockCommandNeedsKey i s := by
  refine ⟨State.complete .noKey (s.accept (opcodeOf i)), ?_, .of_complete .noKey rfl rfl,
    ⟨rfl, rfl, rfl, rfl, rfl, rfl, rfl, rfl⟩, ⟨rfl, rfl⟩, ⟨rfl, rfl⟩, ⟨rfl, rfl⟩, fun _ => rfl⟩
  rw [hexec, State.issue_idle hb, State.startBlock_noKey (s := s.accept _) hk]

end BlockCommand

/-- The rules' examples do not depend on the platform. -/
theorem crypt_refConfig (b : Nat) (ok : Addr → AccessKind → Bool) (coh : Bool) (k : Block) :
    crypt (refConfig b ok coh) (sched (refConfig b ok coh) k)
      = crypt exampleConfig (sched exampleConfig k) := by
  rw [crypt_tables (c := refConfig b ok coh) (d := exampleConfig) rfl rfl rfl,
    sched_subkey (c := refConfig b ok coh) (d := exampleConfig) rfl]

/-- Settles O26: ENCB is the block command with direction encode. -/
theorem encbEncodesTheBlock : Obligations.EncbEncodesTheBlock := by
  refine ⟨fun c s hb hk => blockCommandRuns (fun _ => rfl) hb c hk,
    fun s hb hk => blockCommandNeedsKey (fun _ => rfl) hb hk, fun b ok coh => ?_⟩
  rw [crypt_refConfig]
  decide +kernel

/-- Settles O27: DECB is the block command with direction decode. -/
theorem decbDecodesTheBlock : Obligations.DecbDecodesTheBlock := by
  refine ⟨fun c s hb hk => blockCommandRuns (fun _ => rfl) hb c hk,
    fun s hb hk => blockCommandNeedsKey (fun _ => rfl) hb hk, fun b ok coh => ?_⟩
  rw [crypt_refConfig]
  decide +kernel

/-! ### What a CMD write leaves alone -/

/-- From `s` to `t` no more has changed than STATUS, OUTLEN, BLKDONE, the internal state and the model's
record of a running command. -/
def CommandFrame (s t : State) : Prop :=
  t = { s with
    status := t.status
    outlen := t.outlen
    blkdone := t.blkdone
    work := t.work
    phase := t.phase
    drawn := t.drawn
    taken := t.taken
    racedSrc := t.racedSrc
    racedDst := t.racedDst }

/-- A CMD write keeps to the frame if the command's own acceptance part does. -/
theorem State.issue_frame {body : State → State} (hbody : ∀ a, CommandFrame a (body a))
    (op : BitVec 8) (s : State) : CommandFrame s (s.issue op body) := by
  cases hb : s.status.busy
  · rw [State.issue_idle hb]
    exact hbody (s.accept op)
  · rw [State.issue_busy hb]
    rfl

theorem State.startBlock_frame (d : Dir) (s : State) : CommandFrame s (s.startBlock d) := by
  cases hk : s.status.keyValid
  · rw [State.startBlock_noKey hk]
    rfl
  · rw [State.startBlock_keyed hk]
    rfl

theorem State.startBuffer_frame (d : Dir) (s : State) : CommandFrame s (s.startBuffer d) := by
  cases hk : s.status.keyValid
  · rw [State.startBuffer_noKey hk]
    rfl
  cases hr : rangeError s.src s.dst s.len
  case true =>
    rw [State.startBuffer_range hk hr]
    rfl
  by_cases hl : s.len.toNat = 0
  · rw [State.startBuffer_empty hk hr hl]
    rfl
  · rw [State.startBuffer_ok hk hr hl]
    rfl

theorem exec_frame {i : Instr} {s t : State} (h : exec i s = .next t) : CommandFrame s t := by
  cases i <;> cases h
  case setkey => exact State.issue_frame (body := State.startKeygen) (fun _ => rfl) _ s
  case encb | decb => exact State.issue_frame (State.startBlock_frame _) _ s
  case encbuf | decbuf => exact State.issue_frame (State.startBuffer_frame _) _ s

theorem command_frame {w : Word} {s t : State} (h : command w s = .next t) : CommandFrame s t := by
  obtain ⟨i, -, hi⟩ | rfl := command_cases h
  · exact exec_frame hi
  · exact State.issue_frame (body := State.complete .illegalCmd) (fun _ => rfl) _ s

/-! ### The one step that writes DOUT -/

theorem SameDout.refl (s : State) : SameDout s s := ⟨rfl, rfl⟩

theorem CommandFrame.sameDout {s t : State} (h : CommandFrame s t) : SameDout s t := by
  rw [h]
  exact .refl s

/-- From `s` to `t` the last round step of a block command has written DOUT (42_block_core.md rule
R150). -/
def WritesDout (c : Config) (s t : State) : Prop :=
  s.phase = .rounds ∧ s.work.rnd = 15 ∧ t.phase = .idle ∧ t.status.done = true
    ∧ t.dout = merge (s.roundOnce c)

theorem coreStep_dout {c : Config} {s t : State} (h : coreStep c s = .next t) :
    SameDout s t ∨ WritesDout c s t := by
  by_cases hp : s.phase = .rounds
  · rw [coreStep_rounds hp] at h
    cases h
    by_cases hr : s.work.rnd = 15
    · rw [roundsStep_last hr]
      exact .inr ⟨hp, hr, rfl, rfl, by simp⟩
    · rw [roundsStep_more hr]
      exact .inl (.refl s)
  · obtain ⟨-, -, -, -, -, -, -, -, hsame, -⟩ := coreStepFrame c s t h
    exact .inl (hsame hp)

theorem eventStep_dout {c : Config} {e : Event} {s t : State} (he : e ≠ .reset)
    (h : eventStep c e s = .next t) : SameDout s t ∨ WritesDout c s t := by
  cases e
  case wr offset size w =>
    obtain ⟨-, -, ⟨-, hcmd⟩ | ⟨-, rfl⟩⟩ := busWrite_cases h
    · exact .inl (command_frame hcmd).sameDout
    · exact .inl (s.writeReg_sameDout _ w)
  case rd offset size =>
    obtain ⟨-, -, rfl⟩ := busRead_cases h
    exact .inl (.refl s)
  case poll offset mask value =>
    obtain ⟨-, ⟨-, rfl⟩ | ⟨-, hcore⟩⟩ := pollOnce_cases h
    · exact .inl (.refl s)
    · have hstep := coreStep_dout hcore
      exact hstep
  case core => exact coreStep_dout h
  case memWrite | memRead | masterWrite | masterRead | clean | invalidate =>
    cases h
    exact .inl (.refl s)
  case reset => exact absurd rfl he

/-- Settles O28: of the events but the reset only a core step writes DOUT, and only in the last
round. -/
theorem doutIsWrittenOnlyByTheLastRound : Obligations.DoutIsWrittenOnlyByTheLastRound := by
  intro s t h hreset
  cases hh : s.host with
  | nil => exact coreStep_dout ((stepWith_nil hh).symm.trans h)
  | cons e rest =>
    have hne : e ≠ .reset := fun he => hreset rest (he ▸ hh)
    exact eventStep_dout (s := { s with host := rest }) hne ((stepWith_cons hh).symm.trans h)

end Sys2Proof.Machine

/-! PROOFS. 43_block_chainer.md: padded lengths and the acceptance of a buffer command (rules R160, R167
and R169). -/

namespace Sys2Proof.Machine

/-! ### Padded lengths -/

theorem dvd_paddedLength (n : Nat) : 8 ∣ paddedLength n := ⟨_, rfl⟩

/-- No smaller multiple of 8 reaches the length. -/
theorem paddedLength_le_of_dvd {n m : Nat} (hm : 8 ∣ m) (h : n ≤ m) : paddedLength n ≤ m := by
  obtain ⟨q, rfl⟩ := hm
  unfold paddedLength
  omega

theorem paddedLength_of_dvd {n : Nat} (h : 8 ∣ n) : paddedLength n = n := by
  obtain ⟨q, rfl⟩ := h
  exact paddedLength_of_multiple q

theorem State.paddedByte_padding {s : State} {i : Nat} (h : s.len.toNat ≤ i) :
    s.paddedByte i = 0x00#8 := if_neg (Nat.not_lt.2 h)

theorem State.paddedByte_source {s : State} {i : Nat} (h : i < s.len.toNat) :
    s.paddedByte i = Memory.read s.mem (s.src.toNat + i) := if_pos h

/-- Past the length the core takes a zero byte and makes no access (43_block_chainer.md rule R162). -/
theorem State.sourceByte_padding {s : State} {j : Nat} (h : s.work.llen.toNat ≤ 8 * s.work.blk + j)
    (c : Config) : s.sourceByte c j = .ok 0x00#8 := if_neg (Nat.not_lt.2 h)

/-- Below the length it reads the byte. -/
theorem State.sourceByte_read {s : State} {j : Nat} (h : 8 * s.work.blk + j < s.work.llen.toNat)
    (c : Config) :
    s.sourceByte c j = s.dmaRead c (byteAddr s.work.lsrc s.work.blk j) (s.drawn + j) := if_pos h

/-- Settles O29: the padded length is a multiple of 8 between the length and every multiple above
it. -/
theorem paddedLengthIsTheLeastMultiple : Obligations.PaddedLengthIsTheLeastMultiple := by
  refine ⟨fun n => ⟨dvd_paddedLength n, le_paddedLength n, ?_, fun _ => paddedLength_le_of_dvd,
    paddedLength_of_dvd⟩, rfl, rfl, rfl, rfl, rfl,
    fun s i => ⟨State.paddedByte_padding, State.paddedByte_source⟩, fun d s => lout_toNat s.len,
    fun c s j => ⟨fun h => State.sourceByte_padding h c, fun h => ⟨_, State.sourceByte_read h c⟩⟩⟩
  have := paddedLength_lt n
  omega

/-! ### Acceptance -/

/-- ENCBUF and DECBUF on an idle core start a buffer command in their direction (43_block_chainer.md
rules R165 and R166). -/
theorem exec_bufferCommand {p : Instr × Dir} (hp : p ∈ bufferCommands) {s : State}
    (hb : s.status.busy = false) :
    exec p.1 s = .next (State.startBuffer p.2 (s.accept (opcodeOf p.1))) := by
  simp only [bufferCommands, List.mem_cons, List.not_mem_nil, or_false] at hp
  obtain rfl | rfl := hp
  · exact congrArg Host.Outcome.next (State.issue_idle hb 0x04#8 (State.startBuffer .encode))
  · exact congrArg Host.Outcome.next (State.issue_idle hb 0x05#8 (State.startBuffer .decode))

theorem rangeError_eq_true {src dst len : Word} :
    rangeError src dst len = true ↔
      paddedLength len.toNat > 2 ^ 32 - 8 ∨ src.toNat + len.toNat > 2 ^ 32
        ∨ dst.toNat + paddedLength len.toNat > 2 ^ 32 := by
  simp only [rangeError, Bool.or_eq_true, decide_eq_true_iff, or_assoc]

/-- OUTLEN, 32 bits wide, holds every padded length that passes the RANGE check (10_state.md rule
R36). -/
theorem outlen_toNat {n : Nat} (h : paddedLength n ≤ 2 ^ 32 - 8) :
    (BitVec.ofNat 32 (paddedLength n)).toNat = paddedLength n := by
  rw [BitVec.toNat_ofNat]
  exact Nat.mod_eq_of_lt (by omega)

/-- Settles O30: each clause is one way that the acceptance part goes. -/
theorem bufferAcceptanceChecksInOrder : Obligations.BufferAcceptanceChecksInOrder := by
  intro p hp s hb
  rw [exec_bufferCommand hp hb]
  refine ⟨fun hk => ⟨_, rfl, ?_⟩, fun hk hr => ⟨_, rfl, ?_⟩, fun hk hl => ⟨_, rfl, ?_⟩,
    fun hk hl hlen hsrc hdst => ⟨_, rfl, ?_⟩⟩
  · rw [State.startBuffer_noKey (s := s.accept _) hk]
    exact ⟨.of_complete .noKey rfl rfl, rfl, rfl, fun _ => rfl⟩
  · rw [State.startBuffer_range (s := s.accept _) hk (rangeError_eq_true.2 hr)]
    exact ⟨.of_complete .range rfl rfl, rfl, rfl, fun _ => rfl⟩
  · have hr : rangeError s.src s.dst s.len = false := by
      rw [hl, rangeError_eq_false]
      exact ⟨by decide, Nat.le_of_lt s.src.isLt, Nat.le_of_lt s.dst.isLt⟩
    rw [State.startBuffer_empty (s := s.accept _) hk hr (congrArg BitVec.toNat hl)]
    exact ⟨.of_complete .none rfl rfl, rfl, rfl, fun _ => rfl⟩
  · have hl' : s.len.toNat ≠ 0 := fun h => hl (BitVec.eq_of_toNat_eq h)
    rw [State.startBuffer_ok (s := s.accept _) hk (rangeError_eq_false.2 ⟨hlen, hsrc, hdst⟩) hl']
    exact ⟨.of_accept rfl rfl, rfl, rfl, rfl, rfl, rfl, lout_toNat s.len, rfl, outlen_toNat hlen, rfl,
      fun _ => rfl⟩

end Sys2Proof.Machine

/-! PROOFS. 43_block_chainer.md: the core steps of a buffer command (rules R162, R163, R168 and R173). -/

namespace Sys2Proof.Machine

/-! ### Reading a block -/

/-- Every source byte of block `BLK` reads as memory holds it: in range, answered by the platform, not
raced for and in no cache (20_memory.md rules R60, R72 and R76). -/
def State.BlockReadable (c : Config) (s : State) : Prop :=
  ∀ j, j < 8 → 8 * s.work.blk + j < s.work.llen.toNat →
    byteAddr s.work.lsrc s.work.blk j < 2 ^ 32
      ∧ c.memOk (BitVec.ofNat 32 (byteAddr s.work.lsrc s.work.blk j)) .read = true
      ∧ s.racedSrc.contains (byteAddr s.work.lsrc s.work.blk j) = false
      ∧ (c.coherent = true ∨ s.dirty.contains (byteAddr s.work.lsrc s.work.blk j) = false)

/-- Block `BLK` of the padded source of the running command, as memory holds it (43_block_chainer.md
rule R162). -/
def State.sourceBlock (s : State) : Block :=
  ofBytes fun j => if 8 * s.work.blk + j < s.work.llen.toNat
    then Memory.read s.mem (byteAddr s.work.lsrc s.work.blk j) else 0x00#8

theorem State.readBlock_readable {c : Config} {s : State} (h : s.BlockReadable c) :
    s.readBlock c = .ok s.sourceBlock := by
  refine State.readBlock_of_ok fun j hj => ?_
  by_cases hlen : 8 * s.work.blk + j < s.work.llen.toNat
  · obtain ⟨hlt, hok, hraced, hclean⟩ := h j hj hlen
    rw [State.sourceByte_read hlen, State.dmaRead_of_ok hlt hok hraced hclean, if_pos hlen]
  · rw [State.sourceByte_padding (Nat.not_lt.1 hlen), if_neg hlen]

theorem coreStep_read {c : Config} {s : State} (hp : s.phase = .bufRead) (h : s.BlockReadable c) :
    coreStep c s = .next { s with
      work := { s.work with wl := hi s.sourceBlock, wr := lo s.sourceBlock, rnd := 0 }
      phase := .bufRounds
      taken := s.taken ++ [s.sourceBlock]
      drawn := s.drawn + 8 } := by
  rw [coreStep_bufRead hp, bufReadStep, State.readBlock_readable h]

/-- A DMA read that the platform answers gives some byte. -/
theorem State.dmaRead_answered {c : Config} {a : Nat} (ha : a < 2 ^ 32)
    (hm : c.memOk (BitVec.ofNat 32 a) .read = true) (s : State) (n : Nat) :
    s.dmaRead c a n = .ok (s.dmaByte c a n) := by
  rw [State.dmaRead, if_pos ha, if_pos hm]

theorem State.dmaRead_refused {c : Config} {a : Nat} (ha : a < 2 ^ 32)
    (hm : c.memOk (BitVec.ofNat 32 a) .read = false) (s : State) (n : Nat) :
    s.dmaRead c a n = .error .busErr := by
  rw [State.dmaRead, if_pos ha, hm]
  rfl

/-- The first byte that fails ends the reading of a block, whatever comes after it (43_block_chainer.md
rule R162). -/
theorem State.readBlock_of_first_error {c : Config} {s : State} {j : Nat} {e : DmaFail} (hj : j < 8)
    (hbefore : ∀ i, i < j → ∃ b, s.sourceByte c i = .ok b) (he : s.sourceByte c j = .error e) :
    s.readBlock c = .error e := by
  choose f hf using hbefore
  unfold State.readBlock
  interval_cases j <;> simp only [hf, he, Nat.reduceLT] <;> rfl

/-! ### The rounds of a block -/

/-- The rounds that are left of a block, up to BUF_WRITE (43_block_chainer.md rule R173). -/
theorem coreSteps_bufRounds {c : Config} {s : State} (hp : s.phase = .bufRounds) {m : Nat}
    (hm : s.work.rnd.val + m = 15) :
    coreSteps c (m + 1) s = .next { s with
      work := { s.work with
        wl := (roundsFrom c s.sk s.work.ldir (m + 1) s.work.rnd.val (s.work.wl, s.work.wr)).1
        wr := (roundsFrom c s.sk s.work.ldir (m + 1) s.work.rnd.val (s.work.wl, s.work.wr)).2
        rnd := 15 }
      phase := .bufWrite } := by
  induction m generalizing s with
  | zero =>
    have hr : s.work.rnd = 15 := Fin.ext hm
    rw [coreSteps_succ (coreStep_bufRounds hp), bufRoundsStep_last hr, State.roundsFrom_roundOnce,
      ← hr]
    rfl
  | succ m ih =>
    have hr : s.work.rnd ≠ 15 := fun h => by rw [h] at hm; simp at hm
    have hval := rnd_succ_val hr
    rw [coreSteps_succ (coreStep_bufRounds hp), bufRoundsStep_more hr,
      ih (s := { s with work := { s.work with
        wl := (s.roundOnce c).1, wr := (s.roundOnce c).2, rnd := s.work.rnd + 1 } }) hp
        (by simp only [hval]; omega),
      State.roundsFrom_roundOnce c s (m + 1), ← hval]

/-! ### Writing a block -/

/-- The bytes `js` of the block `o` written to the memory `m` at block `k` of `base`. -/
def writeBytesIn (m : Memory) (base : Addr) (k : Nat) (o : Block) (js : List Nat) : Memory :=
  js.foldl (fun n j => Memory.write n (byteAddr base k j) (blockByte o j)) m

theorem writeBytesIn_byteOrder (m : Memory) (base : Addr) (k : Nat) (o : Block) :
    writeBytesIn m base k o byteOrder = writeBlockIn m base k o := rfl

section WriteBytesIn

variable {m : Memory} (hm : m.Pairwise fun e f => e.1 < f.1) (base : Addr) (k : Nat) (o : Block)
include hm

theorem writeBytesIn_pairwise (js : List Nat) :
    (writeBytesIn m base k o js).Pairwise fun e f => e.1 < f.1 := by
  induction js generalizing m with
  | nil => exact hm
  | cons j js ih => exact ih (Memory.pairwise_write hm _ _)

theorem writeBytesIn_read_other {js : List Nat} {a : Nat} (ha : ∀ j ∈ js, a ≠ byteAddr base k j) :
    Memory.read (writeBytesIn m base k o js) a = Memory.read m a := by
  induction js generalizing m with
  | nil => rfl
  | cons j js ih =>
    have htail := ih (Memory.pairwise_write hm (byteAddr base k j) (blockByte o j))
      fun i hi => ha i (List.mem_cons_of_mem j hi)
    exact htail.trans (by rw [Memory.read_write hm, if_neg (ha j List.mem_cons_self)])

theorem writeBytesIn_read_own {js : List Nat} {j : Nat} (hj : j ∈ js) :
    Memory.read (writeBytesIn m base k o js) (byteAddr base k j) = blockByte o j := by
  induction js generalizing m with
  | nil => exact absurd hj List.not_mem_nil
  | cons i js ih =>
    have hm' := Memory.pairwise_write hm (byteAddr base k i) (blockByte o i)
    by_cases hjs : j ∈ js
    · exact ih hm' hjs
    · obtain rfl : j = i := (List.mem_cons.1 hj).resolve_right hjs
      have hapart : ∀ i ∈ js, byteAddr base k j ≠ byteAddr base k i := fun i hi heq =>
        hjs (Nat.add_left_cancel heq ▸ hi)
      exact (writeBytesIn_read_other hm' base k o hapart).trans
        (by rw [Memory.read_write hm, if_pos rfl])

end WriteBytesIn

/-- The bytes `js` of block `BLK` lie in the DMA space and the platform answers their writes (20_memory.md
rule R60). -/
def State.BytesWritable (c : Config) (s : State) (js : List Nat) : Prop :=
  ∀ j ∈ js, byteAddr s.work.ldst s.work.blk j < 2 ^ 32
    ∧ c.memOk (BitVec.ofNat 32 (byteAddr s.work.ldst s.work.blk j)) .write = true

/-- Bytes that no one races for and the platform answers are all written, in front of the rest: the
memory they leave. -/
theorem State.writeBytes_writable {c : Config} {s : State} {js : List Nat} (hr : s.racedDst = [])
    (h : s.BytesWritable c js) (o : Block) (rest : List Nat) :
    ∃ u : State, State.writeBytes c o (js ++ rest) s = State.writeBytes c o rest u ∧ u = { s with
      mem := writeBytesIn s.mem s.work.ldst s.work.blk o js, stale := u.stale } := by
  induction js generalizing s with
  | nil => exact ⟨s, rfl, rfl⟩
  | cons j js ih =>
    obtain ⟨hlt, hok⟩ := h j List.mem_cons_self
    have hnot : s.racedDst.contains (byteAddr s.work.ldst s.work.blk j) = false := by rw [hr]; rfl
    have hj := State.dmaWrite_of_ok hlt hok (blockByte o j) (s.drawn + j) s
    rw [hnot] at hj
    rw [List.cons_append, State.writeBytes_cons_ok hj]
    exact ih (s := { s with
      mem := Memory.write s.mem (byteAddr s.work.ldst s.work.blk j) (blockByte o j)
      stale := s.stale.insert (byteAddr s.work.ldst s.work.blk j) }) hr
      fun i hi => h i (List.mem_cons_of_mem j hi)

theorem State.blockWritten_blkdone (s : State) : s.blockWritten.blkdone = s.blkdone + 1#32 := by
  unfold State.blockWritten
  dsimp only
  split <;> rfl

/-- A BUF_WRITE step that writes the whole block (43_block_chainer.md rule R163). -/
theorem coreStep_write {c : Config} {s : State} (hp : s.phase = .bufWrite) (hr : s.racedDst = [])
    (h : s.BytesWritable c byteOrder) :
    ∃ u : State, coreStep c s = .next u.blockWritten ∧ u = { s with
      mem := writeBlockIn s.mem s.work.ldst s.work.blk (merge (s.work.wl, s.work.wr))
      stale := u.stale
      drawn := u.drawn } := by
  obtain ⟨u, hu, hframe⟩ := State.writeBytes_writable hr h (merge (s.work.wl, s.work.wr)) []
  rw [List.append_nil] at hu
  refine ⟨{ u with drawn := u.drawn + 8 }, ?_, by rw [hframe, writeBytesIn_byteOrder]⟩
  rw [coreStep_bufWrite hp, bufWriteStep, hu]
  rfl

/-- The bytes of a block in front of byte `j`, byte `j`, and those after it. -/
theorem byteOrder_split {j : Nat} (hj : j < 8) :
    ∃ rest, byteOrder = List.range j ++ j :: rest := by
  interval_cases j <;> exact ⟨_, rfl⟩

theorem State.dmaWrite_refused {c : Config} {a : Nat} (ha : a < 2 ^ 32)
    (hm : c.memOk (BitVec.ofNat 32 a) .write = false) (v : Byte) (n : Nat) (s : State) :
    s.dmaWrite c a v n = .error .busErr := by
  rw [State.dmaWrite, if_pos ha, hm]
  rfl

/-- A BUF_WRITE step whose first refused byte is byte `j` (43_block_chainer.md rule R168). -/
theorem coreStep_write_refused {c : Config} {s : State} {j : Nat} (hp : s.phase = .bufWrite)
    (hr : s.racedDst = []) (hj : j < 8) (h : s.BytesWritable c (List.range j))
    (hlt : byteAddr s.work.ldst s.work.blk j < 2 ^ 32)
    (hbad : c.memOk (BitVec.ofNat 32 (byteAddr s.work.ldst s.work.blk j)) .write = false) :
    ∃ u, coreStep c s = .next (State.complete .bus u) ∧ u = { s with
      mem := writeBytesIn s.mem s.work.ldst s.work.blk (merge (s.work.wl, s.work.wr)) (List.range j)
      stale := u.stale
      drawn := u.drawn } := by
  obtain ⟨rest, hsplit⟩ := byteOrder_split hj
  obtain ⟨u, hu, hframe⟩ :=
    State.writeBytes_writable hr h (merge (s.work.wl, s.work.wr)) (j :: rest)
  have hwork : u.work = s.work := by rw [hframe]
  rw [← hwork] at hlt hbad
  rw [← hsplit, State.writeBytes_cons_error (State.dmaWrite_refused hlt hbad _ _ _)] at hu
  refine ⟨{ u with drawn := u.drawn + 8 }, ?_, by rw [hframe]⟩
  rw [coreStep_bufWrite hp, bufWriteStep, hu]

/-- Settles O31: the step of each phase, put together from what it reads, computes and writes. -/
theorem bufferStepsFollowTheirPhases : Obligations.BufferStepsFollowTheirPhases := by
  refine ⟨fun c s hp h => ?_, fun c s hp => ?_, fun c s hp hm hr h => ?_⟩
  · refine ⟨_, coreStep_read hp h, rfl, rfl, rfl, rfl, fun j hj => ?_⟩
    rw [join_hi_lo, State.sourceBlock, blockByte_ofBytes _ hj]
  · have hround : s.roundOnce c = (s.work.wr, s.work.wl ^^^ feistel c s.work.wr
        (match s.work.ldir with
          | .encode => s.sk[s.work.rnd]
          | .decode => s.sk[15 - s.work.rnd])) := by
      rw [State.roundOnce]
      cases s.work.ldir
      · rfl
      · rw [subkeyAt_decode]
        rfl
    refine ⟨_, coreStep_bufRounds hp, ?_⟩
    by_cases hlast : s.work.rnd = 15
    · rw [bufRoundsStep_last hlast, hround]
      exact ⟨rfl, rfl, ⟨rfl, rfl⟩, rfl, rfl, fun _ => rfl, fun hne => absurd hlast hne⟩
    · rw [bufRoundsStep_more hlast, hround]
      exact ⟨rfl, rfl, ⟨rfl, rfl⟩, rfl, rfl, fun heq => absurd heq hlast,
        fun _ => ⟨hp, rnd_succ_val hlast⟩⟩
  · obtain ⟨u, hu, hframe⟩ := coreStep_write hp hr fun j hj => h j (mem_byteOrder.1 hj)
    obtain ⟨hmem, -⟩ := u.blockWritten_frame
    refine ⟨_, hu, ?_, fun j hj => ?_, fun a ha => ?_, fun hlast => ?_, fun hmore => ?_⟩
    · rw [u.blockWritten_blkdone, hframe]
    · rw [hmem, hframe]
      exact writeBytesIn_read_own hm.1 _ _ _ (mem_byteOrder.2 hj)
    · rw [hmem, hframe]
      exact writeBytesIn_read_other hm.1 _ _ _ fun j hj => ha j (mem_byteOrder.1 hj)
    · rw [State.blockWritten_last (s := u) (by rw [hframe]; exact hlast), hframe]
      exact .of_complete .none rfl rfl
    · rw [State.blockWritten_more (s := u) (by rw [hframe]; exact hmore), hframe]
      exact ⟨rfl, rfl, rfl⟩

/-- Settles O36: the first byte that fails ends the block, and the completion follows. -/
theorem busErrorEndsTheCommand : Obligations.BusErrorEndsTheCommand := by
  refine ⟨fun c s j hp hj hbefore hlen hlt hbad => ?_, fun c s j hp hm hr hj hbefore hlt hbad => ?_⟩
  · have hread : s.readBlock c = .error .busErr := by
      refine State.readBlock_of_first_error hj (fun i hi => ?_)
        ((State.sourceByte_read hlen c).trans (State.dmaRead_refused hlt hbad s _))
      have hleni : 8 * s.work.blk + i < s.work.llen.toNat := by omega
      obtain ⟨hlti, hoki⟩ := hbefore i hi hleni
      exact ⟨_, (State.sourceByte_read hleni c).trans (State.dmaRead_answered hlti hoki s _)⟩
    refine ⟨State.complete .bus { s with drawn := s.drawn + 8 }, ?_, .of_complete .bus rfl rfl, rfl,
      rfl, rfl, rfl⟩
    rw [coreStep_bufRead hp, bufReadStep, hread]
  · obtain ⟨u, hu, hframe⟩ := coreStep_write_refused hp hr hj
      (fun i hi => hbefore i (List.mem_range.1 hi)) hlt hbad
    refine ⟨_, hu, ?_⟩
    rw [hframe]
    exact ⟨.of_complete .bus rfl rfl, rfl,
      fun i hi => writeBytesIn_read_own hm.1 _ _ _ (List.mem_range.2 hi),
      fun a ha => writeBytesIn_read_other hm.1 _ _ _ fun i hi => ha i (List.mem_range.1 hi),
      rfl, rfl⟩

end Sys2Proof.Machine

/-! PROOFS. 43_block_chainer.md: a buffer command from its acceptance to its end (rules R164 to R166 and
R171). -/

namespace Sys2Proof.Machine

/-! ### One block -/

/-- A block read and transformed, up to BUF_WRITE (43_block_chainer.md rules R162 and R173). -/
theorem coreSteps_readBlock {c : Config} {s : State} (hp : s.phase = .bufRead)
    (hr : s.BlockReadable c) :
    ∃ u : State, coreSteps c 17 s = .next u ∧ u.phase = .bufWrite
      ∧ merge (u.work.wl, u.work.wr) = crypt c s.sk s.work.ldir s.sourceBlock ∧ u = { s with
        work := { s.work with wl := u.work.wl, wr := u.work.wr, rnd := u.work.rnd }
        phase := u.phase
        taken := u.taken
        drawn := u.drawn } :=
  ⟨_, (coreSteps_succ (coreStep_read hp hr) 16).trans (coreSteps_bufRounds (m := 15) rfl rfl), rfl, rfl,
    rfl⟩

/-- One block of a running buffer command: 18 core steps read it, transform it and write it
(43_block_chainer.md rule R173). -/
theorem coreSteps_block {c : Config} {s : State} (hp : s.phase = .bufRead) (hr : s.BlockReadable c)
    (hraced : s.racedDst = []) (hw : s.BytesWritable c byteOrder) :
    ∃ u : State, coreSteps c 18 s = .next u.blockWritten ∧ u = { s with
      mem := writeBlockIn s.mem s.work.ldst s.work.blk (crypt c s.sk s.work.ldir s.sourceBlock)
      work := { s.work with wl := u.work.wl, wr := u.work.wr, rnd := u.work.rnd }
      phase := u.phase
      taken := u.taken
      stale := u.stale
      drawn := u.drawn } := by
  obtain ⟨v, hv, hphase, hcrypt, hframe⟩ := coreSteps_readBlock hp hr
  obtain ⟨u, hu, hwritten⟩ := coreStep_write (s := v) hphase (by rw [hframe]; exact hraced)
    (by rw [hframe]; exact hw)
  refine ⟨u, by rw [coreSteps_add hv 1, coreSteps_succ hu, coreSteps_zero], ?_⟩
  rw [hcrypt, hframe] at hwritten
  rw [hwritten]

/-! ### The loop over the blocks -/

/-- `t` is the running command of an acceptance in `s`, with the opcode bits `op`, in front of block `k`:
the blocks before it are done, and no byte has been raced for (43_block_chainer.md rules R165 to
R167). -/
def AtBlock (c : Config) (op : BitVec 8) (d : Dir) (s : State) (k : Nat) (t : State) : Prop :=
  ∃ (w : Work) (n : Nat) (bs : List Block) (l : List Nat), t = { s with
    status := s.status.accept op
    blkdone := BitVec.ofNat 32 k
    outlen := BitVec.ofNat 32 (paddedLength s.len.toNat)
    work := { w with
      lop := op
      lsrc := s.src
      ldst := s.dst
      llen := s.len
      ldir := d
      lout := BitVec.ofNat 33 (paddedLength s.len.toNat)
      blk := k }
    phase := .bufRead
    mem := s.netMemory c d k
    drawn := n
    taken := bs
    racedSrc := []
    racedDst := []
    stale := l }

section Loop

variable {c : Config} {op : BitVec 8} {d : Dir} {s t : State} {k : Nat}

theorem State.BufferAccepted.startBuffer (h : s.BufferAccepted c) (op : BitVec 8) (d : Dir) :
    AtBlock c op d s 0 (State.startBuffer d (s.accept op)) := by
  have hrange : rangeError s.src s.dst s.len = false :=
    rangeError_eq_false.2 ⟨h.length, h.source, h.destination⟩
  rw [State.startBuffer_ok (s := s.accept op) h.keyed hrange h.nonempty]
  exact ⟨s.work, s.drawn, [], s.stale, rfl⟩

/-- What the command reads as its block `k` is the block of the padded source in the memory that the
blocks before have left (20_memory.md rule R77). -/
theorem AtBlock.sourceBlock (h : AtBlock c op d s k t) :
    t.sourceBlock = s.blockIn (s.netMemory c d k) k := by
  obtain ⟨w, n, bs, l, rfl⟩ := h
  rw [State.sourceBlock, State.blockIn, State.paddedBlock]
  refine ofBytes_congr fun j _ => ?_
  rw [State.paddedByte, byteAddr, Nat.add_assoc]

theorem AtBlock.readable (h : AtBlock c op d s k t) (hs : s.BufferAccepted c) : t.BlockReadable c := by
  obtain ⟨w, n, bs, l, rfl⟩ := h
  intro j _ hlen
  obtain ⟨hok, hclean⟩ := hs.readable (8 * k + j) hlen
  have haddr : byteAddr s.src k j = s.src.toNat + (8 * k + j) := Nat.add_assoc _ _ _
  have hlt : byteAddr s.src k j < 2 ^ 32 :=
    haddr ▸ Nat.lt_of_lt_of_le (Nat.add_lt_add_left hlen _) hs.source
  rw [← haddr] at hok hclean
  exact ⟨hlt, hok, rfl, hclean⟩

/-- Every byte of a block of the buffer is below the padded length (43_block_chainer.md rule R161). -/
theorem State.lt_paddedLength (hk : k < s.blockCount) {j : Nat} (hj : j < 8) :
    8 * k + j < paddedLength s.len.toNat := by
  unfold State.blockCount at hk
  omega

theorem AtBlock.writable (h : AtBlock c op d s k t) (hs : s.BufferAccepted c)
    (hk : k < s.blockCount) : t.BytesWritable c byteOrder := by
  obtain ⟨w, n, bs, l, rfl⟩ := h
  intro j hj
  have hlen := State.lt_paddedLength hk (mem_byteOrder.1 hj)
  have hok := hs.writable (8 * k + j) hlen
  have haddr : byteAddr s.dst k j = s.dst.toNat + (8 * k + j) := Nat.add_assoc _ _ _
  have hlt : byteAddr s.dst k j < 2 ^ 32 :=
    haddr ▸ Nat.lt_of_lt_of_le (Nat.add_lt_add_left hlen _) hs.destination
  rw [← haddr] at hok
  exact ⟨hlt, hok⟩

/-- The 18 steps of block `k` end in front of the next block, or in the completion after the last one
(43_block_chainer.md rule R170). -/
theorem AtBlock.next (h : AtBlock c op d s k t) (hs : s.BufferAccepted c) (hk : k < s.blockCount) :
    ∃ u, AtBlock c op d s (k + 1) u ∧ coreSteps c 18 t
      = .next (if k + 1 = s.blockCount then State.complete .none u else u) := by
  have hread := h.readable hs
  have hwrite := h.writable hs hk
  have hblock := h.sourceBlock
  obtain ⟨w, n, bs, l, rfl⟩ := h
  obtain ⟨u, hu, hframe⟩ := coreSteps_block rfl hread rfl hwrite
  rw [hblock] at hframe
  have hlout : u.work.lout.toNat = paddedLength s.len.toNat := by
    rw [hframe]
    exact lout_toNat s.len
  have hblk : u.work.blk = k := by rw [hframe]
  refine ⟨{ u with
    blkdone := u.blkdone + 1#32
    work := { u.work with blk := u.work.blk + 1 }
    phase := .bufRead }, ⟨u.work, u.drawn, u.taken, u.stale, ?_⟩, ?_⟩
  · have hcount : BitVec.ofNat 32 k + 1#32 = BitVec.ofNat 32 (k + 1) := (BitVec.ofNat_add k 1).symm
    rw [hframe, ← hcount]
    rfl
  · rw [hu, State.blockCount]
    split
    next hlast =>
      rw [State.blockWritten_last (s := u) (by rw [hblk, hlout, hlast])]
      rfl
    next hmore => rw [State.blockWritten_more (s := u) (by rwa [hblk, hlout])]

/-- The loop up to block `k` (43_block_chainer.md rules R165 and R166). -/
theorem AtBlock.reach (h : AtBlock c op d s 0 t) (hs : s.BufferAccepted c) (hk : k < s.blockCount) :
    ∃ u, AtBlock c op d s k u ∧ coreSteps c (18 * k) t = .next u := by
  induction k with
  | zero => exact ⟨t, h, rfl⟩
  | succ k ih =>
    obtain ⟨u, hu, hsteps⟩ := ih (Nat.lt_of_succ_lt hk)
    obtain ⟨v, hv, hnext⟩ := hu.next hs (Nat.lt_of_succ_lt hk)
    rw [if_neg (Nat.ne_of_lt hk)] at hnext
    exact ⟨v, hv, by rw [Nat.mul_succ, coreSteps_add hsteps, hnext]⟩

/-- The whole loop: the command completes after the last block. -/
theorem AtBlock.run (h : AtBlock c op d s 0 t) (hs : s.BufferAccepted c) :
    ∃ u, AtBlock c op d s s.blockCount u
      ∧ coreSteps c (18 * s.blockCount) t = .next (State.complete .none u) := by
  obtain ⟨k, hk⟩ : ∃ k, s.blockCount = k + 1 := by
    have := hs.nonempty
    have := le_paddedLength s.len.toNat
    have := paddedLength_eq_blocks s.len.toNat
    exact ⟨s.blockCount - 1, by unfold State.blockCount; omega⟩
  obtain ⟨u, hu, hsteps⟩ := h.reach hs (k := k) (by omega)
  obtain ⟨v, hv, hnext⟩ := hu.next hs (by omega)
  rw [if_pos hk.symm] at hnext
  exact ⟨v, hk ▸ hv, by rw [hk, Nat.mul_succ, coreSteps_add hsteps, hnext]⟩

theorem AtBlock.running (h : AtBlock c op d s k t) : Running op s t := by
  obtain ⟨w, n, bs, l, rfl⟩ := h
  exact .of_accept rfl rfl

/-- BLKDONE, 32 bits wide, counts every block of a buffer in range (10_state.md rule R37). -/
theorem State.BufferAccepted.blkdone_toNat (h : s.BufferAccepted c) :
    (BitVec.ofNat 32 s.blockCount).toNat = s.blockCount := by
  have hlen := h.length
  rw [BitVec.toNat_ofNat]
  exact Nat.mod_eq_of_lt (by unfold State.blockCount; omega)

end Loop

/-- Settles O32: block by block the command leaves the memory of the loop. -/
theorem bufferCommandsHaveTheirNetEffect : Obligations.BufferCommandsHaveTheirNetEffect := by
  intro p hp c s h
  have hstart := h.startBuffer (opcodeOf p.1) p.2
  obtain ⟨u, hu, hsteps⟩ := hstart.run h
  refine ⟨_, _, exec_bufferCommand hp h.idle, hstart.running, hsteps, ?_⟩
  obtain ⟨w, n, bs, l, rfl⟩ := hu
  exact ⟨.of_complete .none rfl rfl, fun _ => rfl, h.blkdone_toNat, outlen_toNat h.length⟩

/-! ### The memory that the loop leaves -/

section NetMemory

variable {s : State} (hm : Memory.wf s.mem) (c : Config) (d : Dir) {k : Nat}
include hm

theorem State.netMemory_pairwise (k : Nat) :
    (s.netMemory c d k).Pairwise fun e f => e.1 < f.1 := by
  induction k with
  | zero => exact hm.1
  | succ k ih => exact writeBytesIn_pairwise ih s.dst k _ byteOrder

/-- The blocks before `k` are the only bytes that may have changed. -/
theorem State.netMemory_read_other {a : Nat}
    (ha : ¬ (s.dst.toNat ≤ a ∧ a < s.dst.toNat + 8 * k)) :
    Memory.read (s.netMemory c d k) a = Memory.read s.mem a := by
  induction k with
  | zero => rfl
  | succ k ih =>
    have hapart : ∀ j ∈ byteOrder, a ≠ byteAddr s.dst k j := fun j hj heq => by
      have := mem_byteOrder.1 hj
      unfold byteAddr at heq
      omega
    exact (writeBytesIn_read_other (s.netMemory_pairwise hm c d k) s.dst k _ hapart).trans
      (ih (by omega))

/-- Output block `i` is the transform of the block that the loop has read as block `i`. -/
theorem State.netMemory_read_block {i j : Nat} (hi : i < k) (hj : j < 8) :
    Memory.read (s.netMemory c d k) (byteAddr s.dst i j)
      = blockByte (crypt c s.sk d (s.blockIn (s.netMemory c d i) i)) j := by
  induction k with
  | zero => exact absurd hi (Nat.not_lt_zero i)
  | succ k ih =>
    have hk := s.netMemory_pairwise hm c d k
    obtain hi | rfl := Nat.lt_succ_iff_lt_or_eq.1 hi
    · exact (writeBytesIn_read_other hk s.dst k _ fun i' hi' =>
        byteAddr_ne hj (mem_byteOrder.1 hi') (Nat.ne_of_lt hi)).trans (ih hi)
    · exact writeBytesIn_read_own hk s.dst i _ (mem_byteOrder.2 hj)

/-- Where the destination does not run ahead of the source into it, the blocks written before lie apart
from every source byte still to be read (20_memory.md rule R77). -/
theorem State.blockIn_netMemory (ho : s.NoForwardOverlap) (k : Nat) :
    s.blockIn (s.netMemory c d k) k = s.paddedBlock k := by
  rw [State.blockIn, State.paddedBlock, State.paddedBlock]
  refine ofBytes_congr fun j _ => ?_
  by_cases hlen : 8 * k + j < s.len.toNat
  · have hapart : ¬ (s.dst.toNat ≤ s.src.toNat + (8 * k + j)
        ∧ s.src.toNat + (8 * k + j) < s.dst.toNat + 8 * k) := by
      unfold State.NoForwardOverlap at ho
      omega
    rw [State.paddedByte_source (s := { s with mem := s.netMemory c d k }) hlen,
      State.paddedByte_source hlen]
    exact s.netMemory_read_other hm c d hapart
  · rw [State.paddedByte_padding (Nat.not_lt.1 hlen),
      State.paddedByte_padding (s := { s with mem := s.netMemory c d k }) (Nat.not_lt.1 hlen)]

end NetMemory

/-- A buffer command that reads no byte after its own write runs as rule R164 says. -/
theorem State.BufferReady.runs {c : Config} {s : State} (h : s.BufferReady c) {p : Instr × Dir}
    (hp : p ∈ bufferCommands) : BufferCommandRuns c p.1 p.2 s := by
  have hacc := h.toBufferAccepted
  have hstart := hacc.startBuffer (opcodeOf p.1) p.2
  obtain ⟨u, hu, hsteps⟩ := hstart.run hacc
  refine ⟨_, _, exec_bufferCommand hp hacc.idle, hstart.running, hsteps, ?_⟩
  obtain ⟨w, n, bs, l, rfl⟩ := hu
  refine ⟨.of_complete .none rfl rfl, fun k j hk hj => ?_, fun a ha => ?_, hacc.blkdone_toNat,
    outlen_toNat hacc.length, ⟨rfl, rfl, rfl, rfl, rfl, rfl, rfl, rfl⟩, ⟨rfl, rfl⟩, ⟨rfl, rfl⟩⟩
  · rw [← s.blockIn_netMemory hacc.memory c p.2 h.overlap]
    exact s.netMemory_read_block hacc.memory c p.2 hk hj
  · rw [paddedLength_eq_blocks] at ha
    exact s.netMemory_read_other hacc.memory c p.2 ha

/-- Settles O33: either command from its acceptance on. -/
theorem bufferCommandsTransformEveryBlock : Obligations.BufferCommandsTransformEveryBlock :=
  fun _ hp _ _ h => h.runs hp

/-! ### There and back -/

theorem State.blockByte_paddedBlock (s : State) (k : Nat) {j : Nat} (hj : j < 8) :
    blockByte (s.paddedBlock k) j = s.paddedByte (8 * k + j) := blockByte_ofBytes _ hj

/-- A source without padding whose bytes of block `k` are those of a block is that block. -/
theorem State.paddedBlock_eq {s : State} {k : Nat} {b : Block} (hlen : 8 * k + 8 ≤ s.len.toNat)
    (h : ∀ j, j < 8 → Memory.read s.mem (byteAddr s.src k j) = blockByte b j) :
    s.paddedBlock k = b := by
  rw [← ofBytes_blockByte b]
  refine ofBytes_congr fun j hj => ?_
  rw [State.paddedByte_source (by omega), ← Nat.add_assoc]
  exact h j hj

/-- Settles O35: DECBUF reads as its block `k` the transform that ENCBUF wrote there, and decodes it. -/
theorem bufferRoundTrip : Obligations.BufferRoundTrip := by
  intro c s t u v hs ht hu hv hsk hsrc hlen hmem
  obtain ⟨t', u', ht', -, hu', -, hout, -⟩ := hs.runs (p := (.encbuf, .encode)) (by decide)
  obtain rfl : t' = t := Host.Outcome.next.inj (ht'.symm.trans ht)
  obtain rfl : u' = u := Host.Outcome.next.inj (hu'.symm.trans hu)
  obtain ⟨x, y, hx, -, hy, hdone, hback, -⟩ := hv.runs (p := (.decbuf, .decode)) (by decide)
  refine ⟨x, y, hx, hy, hdone, fun i hi => ?_⟩
  have hj : i % 8 < 8 := Nat.mod_lt i (by decide)
  have hblocks : paddedLength s.len.toNat = 8 * s.blockCount := paddedLength_eq_blocks _
  have hk : i / 8 < s.blockCount := by omega
  have hkv : i / 8 < v.blockCount := by
    rw [State.blockCount, hlen, hblocks, paddedLength_of_multiple]
    omega
  have hsource : v.paddedBlock (i / 8) = crypt c s.sk .encode (s.paddedBlock (i / 8)) := by
    refine State.paddedBlock_eq (by omega) fun j hj => ?_
    rw [hsrc, ← hout _ _ hk hj, byteAddr, Nat.add_assoc]
    exact hmem _ (by omega)
  calc Memory.read y.mem (v.dst.toNat + i)
      = Memory.read y.mem (byteAddr v.dst (i / 8) (i % 8)) := by
        rw [byteAddr, Nat.add_assoc, Nat.div_add_mod]
    _ = blockByte (s.paddedBlock (i / 8)) (i % 8) := by
        rw [hback _ _ hkv hj, hsource, hsk]
        exact congrArg (blockByte · _) (crypt_flip_crypt c s.sk .encode _)
    _ = s.paddedByte i := by rw [State.blockByte_paddedBlock s _ hj, Nat.div_add_mod]

end Sys2Proof.Machine

/-! PROOFS. 60_exceptions.md: a step of the machine has no trap (rule R208), and which accesses are
refused (10_state.md rule R23). -/

namespace Sys2Proof.Machine

/-! ### The core's step answers -/

/-- An accepted buffer lies in the DMA space, and so does every byte that is read of it
(43_block_chainer.md rule R167). -/
theorem State.Inv.bufReadStep_next {c : Config} {s : State} (h : s.Inv c) (hp : s.phase = .bufRead) :
    ∃ t, bufReadStep c s = .next t := by
  have hok := h.buffer (by rw [hp]; rfl)
  unfold bufReadStep
  split
  · exact ⟨_, rfl⟩
  · exact ⟨_, rfl⟩
  next hread =>
    obtain ⟨j, -, hj⟩ := State.readBlock_error hread
    obtain ⟨hlen, haddr⟩ := State.sourceByte_outside hj
    have hsource := hok.source
    unfold byteAddr at haddr
    omega

/-- So does every byte that is written. -/
theorem State.Inv.bufWriteStep_next {c : Config} {s : State} (h : s.Inv c)
    (hp : s.phase = .bufWrite) : ∃ t, bufWriteStep c s = .next t := by
  have hok := h.buffer (by rw [hp]; rfl)
  unfold bufWriteStep
  split
  · exact ⟨_, rfl⟩
  · exact ⟨_, rfl⟩
  next hwrite =>
    obtain ⟨j, hj, u, hu⟩ := State.writeBytes_fail hwrite
    have haddr := State.dmaWrite_outside hu
    have hin := Work.inDestination_iff.1 (hok.inDestination (le_refl _) (mem_byteOrder.1 hj))
    have hdest := hok.destination
    omega

/-- The core's step answers a next state in every state with the invariant (60_exceptions.md rule
R208). -/
theorem State.Inv.coreStep_next {c : Config} {s : State} (h : s.Inv c) :
    ∃ t, coreStep c s = .next t := by
  cases hp : s.phase
  case idle => exact ⟨_, coreStep_idle hp⟩
  case keygen => exact ⟨_, coreStep_keygen hp⟩
  case rounds => exact ⟨_, coreStep_rounds hp⟩
  case bufRead => exact coreStep_bufRead hp ▸ h.bufReadStep_next hp
  case bufRounds => exact ⟨_, coreStep_bufRounds hp⟩
  case bufWrite => exact coreStep_bufWrite hp ▸ h.bufWriteStep_next hp

/-! ### The machine's step -/

/-- A register access that is not an aligned 32-bit one (10_state.md rule R23). -/
def Event.Undefined : Event → Prop
  | .wr offset size _ => size ≠ 4 ∨ offset.toNat % 4 ≠ 0
  | .rd offset size => size ≠ 4 ∨ offset.toNat % 4 ≠ 0
  | .poll offset _ _ => offset.toNat % 4 ≠ 0
  | _ => False

/-- Every other event answers a next state. -/
theorem State.Inv.eventStep_next {c : Config} {s : State} (h : s.Inv c) {e : Event}
    (he : ¬ e.Undefined) : ∃ t, eventStep c e s = .next t := by
  cases e
  case wr offset size w =>
    obtain ⟨rfl, ho⟩ : size = 4 ∧ offset.toNat % 4 = 0 := by simpa [Event.Undefined] using he
    exact busWrite_aligned_next ho w s
  case rd offset size =>
    obtain ⟨rfl, ho⟩ : size = 4 ∧ offset.toNat % 4 = 0 := by simpa [Event.Undefined] using he
    exact ⟨_, busRead_aligned ho s⟩
  case poll offset mask value =>
    have ho : offset.toNat % 4 = 0 := not_not.1 he
    by_cases hd : s.readReg (regAt offset) &&& mask = value
    · exact ⟨_, pollOnce_found ho hd⟩
    · obtain ⟨t, ht⟩ := (h.outside (.poll offset mask value :: s.host)
        (.word (s.readReg (regAt offset))) s.drawn).coreStep_next
      exact ⟨t, (pollOnce_not_found ho hd).trans ht⟩
  case core => exact h.coreStep_next
  all_goals exact ⟨_, rfl⟩

/-- Such an access is refused, and nothing faults. -/
theorem eventStep_undefined {e : Event} (he : e.Undefined) (c : Config) (s : State) :
    ∃ r, eventStep c e s = .refused r := by
  cases e
  case wr offset size w =>
    by_cases hs : size = 4
    · exact ⟨_, hs ▸ busWrite_misaligned (he.resolve_left (not_not.2 hs)) w s⟩
    · exact ⟨_, busWrite_size hs offset w s⟩
  case rd offset size =>
    by_cases hs : size = 4
    · exact ⟨_, hs ▸ busRead_misaligned (he.resolve_left (not_not.2 hs)) s⟩
    · exact ⟨_, busRead_size hs offset s⟩
  case poll offset mask value => exact ⟨_, if_neg he⟩
  all_goals exact he.elim

/-- A step of the machine answers a next state, or its event is an undefined access and is refused. -/
theorem State.Inv.stepWith_answers {c : Config} {s : State} (h : s.Inv c) :
    (∃ t, stepWith c s = .next t)
      ∨ ∃ e rest r, s.host = e :: rest ∧ e.Undefined ∧ stepWith c s = .refused r := by
  cases hhost : s.host with
  | nil => exact .inl (stepWith_nil hhost ▸ h.coreStep_next)
  | cons e rest =>
    by_cases he : e.Undefined
    · obtain ⟨r, hr⟩ := eventStep_undefined he c { s with host := rest }
      exact .inr ⟨e, rest, r, rfl, he, (stepWith_cons hhost).trans hr⟩
    · obtain ⟨t, ht⟩ := (h.outside rest s.reply s.drawn).eventStep_next he
      exact .inl ⟨t, (stepWith_cons hhost).trans ht⟩

/-- Settles O55: a step that answers no next state has an undefined access as its event. -/
theorem noStepFaultsUnderTheInvariant : Obligations.NoStepFaultsUnderTheInvariant := by
  intro s hinv
  obtain ⟨t, ht⟩ | ⟨e, rest, q, hhost, he, hq⟩ := hinv.stepWith_answers
  · exact ⟨fun r hr => (nomatch ht.symm.trans hr), fun r hr => (nomatch ht.symm.trans hr)⟩
  refine ⟨fun r hr => (nomatch hq.symm.trans hr), fun r _ => ?_⟩
  cases e
  case wr offset size w => exact ⟨offset, rest, .inl ⟨size, w, hhost, he⟩⟩
  case rd offset size => exact ⟨offset, rest, .inr (.inl ⟨size, hhost, he⟩)⟩
  case poll offset mask value => exact ⟨offset, rest, .inr (.inr ⟨mask, value, hhost, he⟩)⟩
  all_goals exact he.elim

end Sys2Proof.Machine

/-! PROOFS. 43_block_chainer.md: what a buffer command leaves alone at every moment (rule R172). -/

namespace Sys2Proof.Machine

/-! ### The latched destination -/

/-- The core is idle, or a buffer command runs whose destination is the `n` bytes at `a`. -/
def State.WritesOnly (a : Addr) (n : Nat) (s : State) : Prop :=
  s.phase = .idle ∨ s.phase.isBuffer = true ∧ s.work.ldst = a ∧ s.work.lout.toNat = n

theorem State.blockWritten_writesOnly {a : Addr} {n : Nat} {s : State} (ha : s.work.ldst = a)
    (hn : s.work.lout.toNat = n) : s.blockWritten.WritesOnly a n := by
  by_cases hlast : s.work.blk + 1 = s.work.lout.toNat / 8
  · rw [State.blockWritten_last hlast]
    exact .inl rfl
  · rw [State.blockWritten_more hlast]
    exact .inr ⟨rfl, ha, hn⟩

/-- A buffer command keeps its latches until it completes (10_state.md rule R43). -/
theorem coreStep_writesOnly {c : Config} {a : Addr} {n : Nat} {s t : State} (h : s.WritesOnly a n)
    (ht : coreStep c s = .next t) : t.WritesOnly a n := by
  obtain hp | ⟨hp, ha, hn⟩ := h
  · rw [coreStep_idle hp] at ht
    cases ht
    exact .inl hp
  cases hph : s.phase
  case bufRead =>
    obtain ⟨v, -, rfl⟩ | ⟨-, rfl⟩ := bufReadStep_cases (coreStep_bufRead hph ▸ ht)
    · exact .inr ⟨rfl, ha, hn⟩
    · exact .inl rfl
  case bufRounds =>
    rw [coreStep_bufRounds hph] at ht
    cases ht
    by_cases hr : s.work.rnd = 15
    · rw [bufRoundsStep_last hr]
      exact .inr ⟨rfl, ha, hn⟩
    · rw [bufRoundsStep_more hr]
      exact .inr ⟨hp, ha, hn⟩
  case bufWrite =>
    obtain ⟨u, ⟨hu, rfl⟩ | ⟨-, rfl⟩⟩ := bufWriteStep_cases (coreStep_bufWrite hph ▸ ht)
    · have hwork : u.work = s.work := by rw [State.writeBytes_frame hu]
      exact State.blockWritten_writesOnly (s := { u with drawn := u.drawn + 8 })
        (hwork.symm ▸ ha) (hwork.symm ▸ hn)
    · exact .inl rfl
  all_goals simp [hph, Phase.isBuffer] at hp

theorem State.startBuffer_writesOnly (d : Dir) (s : State) :
    (s.startBuffer d).WritesOnly s.dst (paddedLength s.len.toNat) := by
  cases hk : s.status.keyValid
  · rw [State.startBuffer_noKey hk]
    exact .inl rfl
  cases hr : rangeError s.src s.dst s.len
  case true =>
    rw [State.startBuffer_range hk hr]
    exact .inl rfl
  by_cases hl : s.len.toNat = 0
  · rw [State.startBuffer_empty hk hr hl]
    exact .inl rfl
  · rw [State.startBuffer_ok hk hr hl]
    exact .inr ⟨rfl, rfl, lout_toNat s.len⟩

/-! ### The frame of a buffer command -/

/-- From `s` to `t` DOUT, the schedule, the host's registers and every byte outside the `n` bytes at `a`
keep their values. -/
structure BufferFrame (a : Addr) (n : Nat) (s t : State) : Prop where
  dout : SameDout s t
  schedule : SameSchedule s t
  registers : SameHostRegisters s t
  outside : ∀ x, ¬ (a.toNat ≤ x ∧ x < a.toNat + n) → Memory.read t.mem x = Memory.read s.mem x

theorem SameHostRegisters.trans {s t u : State} (h : SameHostRegisters s t)
    (h' : SameHostRegisters t u) : SameHostRegisters s u := by
  simp_all only [SameHostRegisters, and_self]

theorem BufferFrame.trans {a : Addr} {n : Nat} {s t u : State} (h : BufferFrame a n s t)
    (h' : BufferFrame a n t u) : BufferFrame a n s u where
  dout := ⟨h'.dout.1.trans h.dout.1, h'.dout.2.trans h.dout.2⟩
  schedule := ⟨h'.schedule.1.trans h.schedule.1, h'.schedule.2.trans h.schedule.2⟩
  registers := h.registers.trans h'.registers
  outside x hx := (h'.outside x hx).trans (h.outside x hx)

theorem coreStep_bufferFrame {c : Config} {a : Addr} {n : Nat} {s t : State} (hinv : s.Inv c)
    (h : s.WritesOnly a n) (ht : coreStep c s = .next t) : BufferFrame a n s t := by
  obtain ⟨hregs, -, -, -, -, -, -, hsched, hdout, -⟩ := coreStepFrame c s t ht
  have hkeygen : s.phase ≠ .keygen := fun hp => by simp [State.WritesOnly, hp, Phase.isBuffer] at h
  have hrounds : s.phase ≠ .rounds := fun hp => by simp [State.WritesOnly, hp, Phase.isBuffer] at h
  refine ⟨hdout hrounds, hsched hkeygen, hregs, fun x hx => ?_⟩
  obtain ⟨-, hmem⟩ := coreStaysInsideItsBuffers
  refine hmem c s t x hinv ht ?_
  obtain hp | ⟨-, rfl, rfl⟩ := h
  · exact .inl (hp ▸ nofun)
  · exact .inr (decide_eq_false hx)

theorem BufferFrame.refl (a : Addr) (n : Nat) (s : State) : BufferFrame a n s s :=
  ⟨.refl s, .refl s, ⟨rfl, rfl, rfl, rfl, rfl, rfl, rfl, rfl⟩, fun _ _ => rfl⟩

theorem coreSteps_bufferFrame {c : Config} {a : Addr} {n k : Nat} {s t : State} (hinv : s.Inv c)
    (h : s.WritesOnly a n) (ht : coreSteps c k s = .next t) : BufferFrame a n s t := by
  induction k generalizing s with
  | zero =>
    cases ht
    exact .refl a n t
  | succ k ih =>
    obtain ⟨u, hu⟩ := hinv.coreStep_next
    rw [coreSteps_succ hu] at ht
    exact (coreStep_bufferFrame hinv h hu).trans
      (ih (coreStep_inv hinv hu) (coreStep_writesOnly h hu) ht)

theorem exec_bufferFrame {i : Instr} {s t : State} (h : exec i s = .next t) (a : Addr) (n : Nat) :
    BufferFrame a n s t := by
  have hframe := exec_frame h
  refine ⟨hframe.sameDout, exec_sameSchedule h, ?_, fun x _ => ?_⟩
  · rw [hframe]
    exact ⟨rfl, rfl, rfl, rfl, rfl, rfl, rfl, rfl⟩
  · rw [hframe]

/-! ### DIN -/

/-- The acceptance part of a buffer command does not read DIN (43_block_chainer.md rule R172). -/
theorem State.startBuffer_writeDin {r : Reg} (hr : r = .dinLo ∨ r = .dinHi) (w : Word) (d : Dir)
    (s : State) : (s.writeReg r w).startBuffer d = (s.startBuffer d).writeReg r w := by
  obtain rfl | rfl := hr <;> simp only [State.startBuffer, apply_ite (State.writeReg _ w)] <;> rfl

theorem exec_bufferCommand_writeDin {p : Instr × Dir} (hp : p ∈ bufferCommands) {s t : State}
    (hb : s.status.busy = false) (h : exec p.1 s = .next t) {r : Reg}
    (hr : r = .dinLo ∨ r = .dinHi) (w : Word) :
    exec p.1 (s.writeReg r w) = .next (t.writeReg r w) := by
  have hbusy : (s.writeReg r w).status.busy = false := by
    obtain rfl | rfl := hr <;> exact hb
  have haccept : State.accept (opcodeOf p.1) (s.writeReg r w)
      = (s.accept (opcodeOf p.1)).writeReg r w := by
    obtain rfl | rfl := hr <;> rfl
  obtain rfl := Host.Outcome.next.inj ((exec_bufferCommand hp hb).symm.trans h)
  rw [exec_bufferCommand hp hbusy, haccept, State.startBuffer_writeDin hr]

/-- Settles O34: the acceptance and each core step keep the frame, the destination being as latched. -/
theorem bufferCommandsTouchTheirOutputsAlone : Obligations.BufferCommandsTouchTheirOutputsAlone := by
  intro p hp c s t u n hinv hb ht hu
  have hdest : t.WritesOnly s.dst (paddedLength s.len.toNat) := by
    obtain rfl := Host.Outcome.next.inj ((exec_bufferCommand hp hb).symm.trans ht)
    exact State.startBuffer_writesOnly p.2 (s.accept (opcodeOf p.1))
  have hframe := (exec_bufferFrame ht s.dst (paddedLength s.len.toNat)).trans
    (coreSteps_bufferFrame (exec_inv hinv ht) hdest hu)
  refine ⟨hframe.dout, hframe.schedule, hframe.registers, hframe.outside, fun r w hr =>
    ⟨exec_bufferCommand_writeDin hp hb ht hr w, ?_⟩⟩
  have hhost : r ∈ hostWritable := by obtain rfl | rfl := hr <;> decide
  rw [coreSteps_writeReg c hhost, hu]
  rfl

end Sys2Proof.Machine

/-! PROOFS. 60_exceptions.md: a running command completes (rules R202 and R204), an idle core waits
(rule R216). -/

namespace Sys2Proof.Machine

/-! ### Completion -/

/-- Codes 5 to 15 are never raised (60_exceptions.md rule R205). -/
theorem ErrCode.bits_le (code : ErrCode) : code.bits.toNat ≤ 4 := by cases code <;> decide

/-- Code 0 is the completion without an error (60_exceptions.md rule R204). -/
theorem ErrCode.ne_none_iff (code : ErrCode) : code ≠ .none ↔ code.bits ≠ 0#4 := by
  cases code <;> decide

/-- Settles O11: ERR and ERRCODE tell of one code, and the other fields are `complete`'s own. -/
theorem completionSetsStatus : Obligations.CompletionSetsStatus := by
  intro s code
  have herr : (s.complete code).status.err = true ↔ code.bits ≠ 0#4 :=
    decide_eq_true_iff.trans code.ne_none_iff
  exact ⟨_, rfl, code.bits_le, rfl, rfl, herr, rfl, rfl, rfl, rfl, rfl, ⟨rfl, rfl⟩, ⟨rfl, rfl⟩,
    ⟨rfl, rfl, rfl, rfl, rfl, rfl, rfl, rfl⟩, rfl, rfl, rfl, rfl⟩

/-! ### An idle core -/

theorem coreSteps_idle {c : Config} {s : State} (h : s.phase = .idle) (n : Nat) :
    coreSteps c n s = .next s := by
  induction n with
  | zero => rfl
  | succ n ih => rw [coreSteps_succ (coreStep_idle h), ih]

/-- Settles O6: the run is one of core steps, none of which does anything. -/
theorem idleCoreKeepsItsState : Obligations.IdleCoreKeepsItsState := fun s n hp hhost =>
  (runWithoutEventsIsCoreSteps s n hhost).trans (coreSteps_idle hp n)

/-! ### The steps a running command still takes -/

theorem State.stepsLeft_keygen {s : State} (h : s.phase = .keygen) : s.stepsLeft = 1 := by
  rw [State.stepsLeft, h]

theorem State.stepsLeft_rounds {s : State} (h : s.phase = .rounds) :
    s.stepsLeft = 16 - s.work.rnd.val := by rw [State.stepsLeft, h]

theorem State.stepsLeft_bufRead {s : State} (h : s.phase = .bufRead) :
    s.stepsLeft = 18 * (s.work.lout.toNat / 8 - s.work.blk) := by rw [State.stepsLeft, h]

theorem State.stepsLeft_bufRounds {s : State} (h : s.phase = .bufRounds) :
    s.stepsLeft
      = 18 * (s.work.lout.toNat / 8 - s.work.blk - 1) + (16 - s.work.rnd.val) + 1 := by
  rw [State.stepsLeft, h]

theorem State.stepsLeft_bufWrite {s : State} (h : s.phase = .bufWrite) :
    s.stepsLeft = 18 * (s.work.lout.toNat / 8 - s.work.blk - 1) + 1 := by rw [State.stepsLeft, h]

theorem State.Inv.stepsLeft_pos {c : Config} {s : State} (h : s.Inv c) (hp : s.phase ≠ .idle) :
    0 < s.stepsLeft := by
  cases hph : s.phase
  case idle => exact absurd hph hp
  case keygen => rw [State.stepsLeft_keygen hph]; omega
  case rounds => rw [State.stepsLeft_rounds hph]; omega
  case bufRead =>
    have hblk := (h.buffer (by rw [hph]; rfl)).block
    rw [State.stepsLeft_bufRead hph]
    omega
  case bufRounds => rw [State.stepsLeft_bufRounds hph]; omega
  case bufWrite => rw [State.stepsLeft_bufWrite hph]; omega

/-- The core is idle after a completion, whatever the code (60_exceptions.md rule R204). -/
def State.Ended (s : State) : Prop :=
  s.phase = .idle ∧ s.status.done = true ∧ s.status.busy = false

theorem State.complete_ended (code : ErrCode) (s : State) : (s.complete code).Ended :=
  ⟨rfl, rfl, rfl⟩

/-- From `s` to `t` a running command has completed, or runs on with one step less to take. -/
def Progress (s t : State) : Prop := t.Ended ∨ t.phase ≠ .idle ∧ t.stepsLeft + 1 = s.stepsLeft

theorem Progress.of_complete (code : ErrCode) (s t : State) : Progress s (t.complete code) :=
  .inl (t.complete_ended code)

theorem roundsStep_progress (c : Config) {s : State} (hp : s.phase = .rounds) :
    Progress s (roundsStep c s) := by
  by_cases hr : s.work.rnd = 15
  · rw [roundsStep_last hr]
    exact .of_complete ..
  · rw [roundsStep_more hr]
    refine .inr ⟨hp ▸ nofun, ?_⟩
    rw [State.stepsLeft_rounds (by exact hp), State.stepsLeft_rounds hp]
    have hrnd := rnd_succ_val hr
    dsimp only
    omega

/-- Reading a block takes 1 of its 18 steps. -/
theorem bufReadStep_progress {c : Config} {s t : State} (hp : s.phase = .bufRead)
    (hblk : s.work.blk < s.work.lout.toNat / 8) (ht : bufReadStep c s = .next t) : Progress s t := by
  obtain ⟨v, -, rfl⟩ | ⟨-, rfl⟩ := bufReadStep_cases ht
  · refine .inr ⟨nofun, ?_⟩
    rw [State.stepsLeft_bufRounds rfl, State.stepsLeft_bufRead hp]
    dsimp only [Fin.val_zero]
    omega
  · exact .of_complete ..

/-- The rounds take 16. -/
theorem bufRoundsStep_progress (c : Config) {s : State} (hp : s.phase = .bufRounds) :
    Progress s (bufRoundsStep c s) := by
  refine .inr ?_
  by_cases hr : s.work.rnd = 15
  · rw [bufRoundsStep_last hr]
    refine ⟨nofun, ?_⟩
    rw [State.stepsLeft_bufWrite rfl, State.stepsLeft_bufRounds hp, hr]
    rfl
  · rw [bufRoundsStep_more hr]
    refine ⟨hp ▸ nofun, ?_⟩
    rw [State.stepsLeft_bufRounds (by exact hp), State.stepsLeft_bufRounds hp]
    have hrnd := rnd_succ_val hr
    dsimp only
    omega

/-- Writing it takes 1, after which the block is none of those to do. -/
theorem bufWriteStep_progress {c : Config} {s t : State} (hp : s.phase = .bufWrite)
    (ht : bufWriteStep c s = .next t) : Progress s t := by
  obtain ⟨u, ⟨hu, rfl⟩ | ⟨-, rfl⟩⟩ := bufWriteStep_cases ht
  · by_cases hlast : u.work.blk + 1 = u.work.lout.toNat / 8
    · rw [State.blockWritten_last (by exact hlast)]
      exact .of_complete ..
    · rw [State.blockWritten_more (by exact hlast)]
      refine .inr ⟨nofun, ?_⟩
      have hwork : u.work = s.work := by rw [State.writeBytes_frame hu]
      rw [State.stepsLeft_bufRead rfl, State.stepsLeft_bufWrite hp, ← hwork, Nat.sub_sub]
  · exact .of_complete ..

/-- Every core step of a running command is one of the steps left, or ends the command early. -/
theorem State.Inv.coreStep_progress {c : Config} {s t : State} (h : s.Inv c) (hp : s.phase ≠ .idle)
    (ht : coreStep c s = .next t) : Progress s t := by
  cases hph : s.phase
  case idle => exact absurd hph hp
  case keygen =>
    rw [coreStep_keygen hph] at ht
    cases ht
    exact .of_complete ..
  case rounds =>
    rw [coreStep_rounds hph] at ht
    cases ht
    exact roundsStep_progress c hph
  case bufRead =>
    have hblk := (h.buffer (by rw [hph]; rfl)).block
    exact bufReadStep_progress hph hblk (coreStep_bufRead hph ▸ ht)
  case bufRounds =>
    rw [coreStep_bufRounds hph] at ht
    cases ht
    exact bufRoundsStep_progress c hph
  case bufWrite => exact bufWriteStep_progress hph (coreStep_bufWrite hph ▸ ht)

theorem State.Inv.coreSteps_ended {c : Config} {s : State} (h : s.Inv c) (hp : s.phase ≠ .idle) :
    ∃ n u, n ≤ s.stepsLeft ∧ coreSteps c n s = .next u ∧ u.Ended := by
  induction hm : s.stepsLeft generalizing s with
  | zero => exact absurd (h.stepsLeft_pos hp) (by omega)
  | succ m ih =>
    obtain ⟨t, ht⟩ := h.coreStep_next
    obtain hend | ⟨hpt, hleft⟩ := h.coreStep_progress hp ht
    · exact ⟨1, t, by omega, coreSteps_succ ht 0, hend⟩
    · obtain ⟨n, u, hn, hu, hend⟩ := ih (coreStep_inv h ht) hpt (by omega)
      exact ⟨n + 1, u, by omega, (coreSteps_succ ht n).trans hu, hend⟩

/-- Settles O56, by induction on the steps left: every core step takes one off, and none are left only to
an idle core. -/
theorem runningCommandCompletes : Obligations.RunningCommandCompletes := fun _ _ h hb =>
  h.coreSteps_ended (h.busyPhase.1 hb)

end Sys2Proof.Machine

/-! PROOFS. 60_exceptions.md: acceptance, drop and the order of the checks (rules R200, R201 and R203). -/

namespace Sys2Proof.Machine

/-! ### A busy core -/

theorem exec_busy {s : State} (hb : s.status.busy = true) (i : Instr) : exec i s = .next s.drop := by
  obtain ⟨body, hexec⟩ := exec_issue i
  rw [hexec, State.issue_busy hb]

/-- A command's word is dropped as any other. -/
theorem command_busy {s : State} (hb : s.status.busy = true) (w : Word) :
    command w s = .next s.drop := by
  cases hd : decode w with
  | ok i => rw [command_of_decode hd, exec_busy hb]
  | error e => simp only [command, hd, State.illegal_busy hb]

/-- Settles O9: the drop comes before the decoding, and before each command's own part. -/
theorem busyCommandIsDropped : Obligations.BusyCommandIsDropped := fun s hb =>
  ⟨fun w rest hhost => (stepWith_cmd hhost).trans (command_busy (s := { s with host := rest }) hb w),
    exec_busy hb⟩

/-! ### An idle core: the first error that applies -/

/-- The lower eight bits of a command's word are its opcode (30_encoding.md rule R81). -/
theorem encode_opcode (i : Instr) : (encode i).extractLsb' 0 8 = opcodeOf i := by
  cases i <;> decide

theorem encode_injective {i j : Instr} (h : encode i = encode j) : i = j :=
  Except.ok.inj ((decode_encode i).symm.trans (h ▸ decode_encode j))

theorem block_or_buffer {i : Instr} (h : i ≠ .setkey) :
    (i = .encb ∨ i = .decb) ∨ i = .encbuf ∨ i = .decbuf := by
  cases i <;> simp at h ⊢

/-- ENCB and DECB are a CMD write that starts a block command (42_block_core.md rules R147 and R148). -/
theorem exec_block {i : Instr} (h : i = .encb ∨ i = .decb) :
    ∃ d, ∀ s, exec i s = .next (s.issue (opcodeOf i) (State.startBlock d)) := by
  obtain rfl | rfl := h
  · exact ⟨.encode, fun _ => rfl⟩
  · exact ⟨.decode, fun _ => rfl⟩

theorem exists_bufferCommand {i : Instr} (h : i = .encbuf ∨ i = .decbuf) :
    ∃ d, (i, d) ∈ bufferCommands := by
  obtain rfl | rfl := h
  · exact ⟨.encode, List.mem_cons_self⟩
  · exact ⟨.decode, List.mem_cons_of_mem _ List.mem_cons_self⟩

section Idle

variable {i : Instr} {s : State} (hb : s.status.busy = false)
include hb

/-- SETKEY has no error of its own (40_subkey_schedule.md rule R103). -/
theorem exec_setkey_running : ∃ t, exec .setkey s = .next t ∧ Running 0x01#8 s t := by
  obtain ⟨t, -, ht, hrun, -⟩ := setkeyLoadsTheSchedule.1 Config.chip s hb
  exact ⟨t, ht, hrun⟩

theorem exec_noKey_completed (hi : i ≠ .setkey) (hk : s.status.keyValid = false) :
    ∃ t, exec i s = .next t ∧ Completed .noKey (opcodeOf i) s t := by
  obtain hi | hi := block_or_buffer hi
  · obtain ⟨d, hexec⟩ := exec_block hi
    obtain ⟨t, ht, hcomp, -⟩ := blockCommandNeedsKey hexec hb hk
    exact ⟨t, ht, hcomp⟩
  · obtain ⟨d, hd⟩ := exists_bufferCommand hi
    obtain ⟨hnoKey, -⟩ := bufferAcceptanceChecksInOrder _ hd s hb
    obtain ⟨t, ht, hcomp, -⟩ := hnoKey hk
    exact ⟨t, ht, hcomp⟩

theorem exec_block_running (hi : i = .encb ∨ i = .decb) (hk : s.status.keyValid = true) :
    ∃ t, exec i s = .next t ∧ Running (opcodeOf i) s t := by
  obtain ⟨d, hexec⟩ := exec_block hi
  obtain ⟨t, -, ht, hrun, -⟩ := blockCommandRuns hexec hb Config.chip hk
  exact ⟨t, ht, hrun⟩

theorem exec_buffer_outOfRange (hi : i = .encbuf ∨ i = .decbuf) (hk : s.status.keyValid = true)
    (hr : s.OutOfRange) : ∃ t, exec i s = .next t ∧ Completed .range (opcodeOf i) s t := by
  obtain ⟨d, hd⟩ := exists_bufferCommand hi
  obtain ⟨-, hrange, -⟩ := bufferAcceptanceChecksInOrder _ hd s hb
  obtain ⟨t, ht, hcomp, -⟩ := hrange hk hr
  exact ⟨t, ht, hcomp⟩

theorem exec_buffer_empty (hi : i = .encbuf ∨ i = .decbuf) (hk : s.status.keyValid = true)
    (hl : s.len = 0#32) : ∃ t, exec i s = .next t ∧ Completed .none (opcodeOf i) s t := by
  obtain ⟨d, hd⟩ := exists_bufferCommand hi
  obtain ⟨-, -, hempty, -⟩ := bufferAcceptanceChecksInOrder _ hd s hb
  obtain ⟨t, ht, hcomp, -⟩ := hempty hk hl
  exact ⟨t, ht, hcomp⟩

theorem exec_buffer_running (hi : i = .encbuf ∨ i = .decbuf) (hk : s.status.keyValid = true)
    (hr : ¬ s.OutOfRange) (hl : s.len ≠ 0#32) :
    ∃ t, exec i s = .next t ∧ Running (opcodeOf i) s t := by
  obtain ⟨d, hd⟩ := exists_bufferCommand hi
  obtain ⟨-, -, -, hok⟩ := bufferAcceptanceChecksInOrder _ hd s hb
  simp only [State.OutOfRange, not_or, not_lt] at hr
  obtain ⟨hlen, hsrc, hdst⟩ := hr
  obtain ⟨t, ht, hrun, -⟩ := hok hk hl hlen hsrc hdst
  exact ⟨t, ht, hrun⟩

/-- The clauses above leave no acceptance out: the command runs or has completed. -/
theorem exec_running_or_completed (i : Instr) : ∃ t, exec i s = .next t
    ∧ (Running (opcodeOf i) s t ∨ ∃ code, Completed code (opcodeOf i) s t) := by
  by_cases hset : i = .setkey
  · obtain ⟨t, ht, hrun⟩ := exec_setkey_running hb
    exact ⟨t, hset ▸ ht, .inl (hset ▸ hrun)⟩
  cases hk : s.status.keyValid
  · obtain ⟨t, ht, hcomp⟩ := exec_noKey_completed hb hset hk
    exact ⟨t, ht, .inr ⟨_, hcomp⟩⟩
  · obtain hi | hi := block_or_buffer hset
    · obtain ⟨t, ht, hrun⟩ := exec_block_running hb hi hk
      exact ⟨t, ht, .inl hrun⟩
    by_cases hr : s.OutOfRange
    · obtain ⟨t, ht, hcomp⟩ := exec_buffer_outOfRange hb hi hk hr
      exact ⟨t, ht, .inr ⟨_, hcomp⟩⟩
    by_cases hl : s.len = 0#32
    · obtain ⟨t, ht, hcomp⟩ := exec_buffer_empty hb hi hk hl
      exact ⟨t, ht, .inr ⟨_, hcomp⟩⟩
    · obtain ⟨t, ht, hrun⟩ := exec_buffer_running hb hi hk hr hl
      exact ⟨t, ht, .inl hrun⟩

/-- Either way LASTOP shows the opcode and OVR is as it was (60_exceptions.md rules R200 and R204). -/
theorem exec_idle_lastop {t : State} (h : exec i s = .next t) :
    t.status.lastop = opcodeOf i ∧ t.status.ovr = s.status.ovr := by
  obtain ⟨u, hu, hout⟩ := exec_running_or_completed hb i
  obtain rfl := Host.Outcome.next.inj (hu.symm.trans h)
  obtain ⟨-, -, -, -, hl, ho, -⟩ | ⟨-, -, -, -, -, -, hl, ho⟩ := hout
  · exact ⟨hl, ho⟩
  · exact ⟨hl, ho⟩

end Idle

/-- An outcome has one next state. -/
theorem of_next_eq {o : Host.Outcome State Fault Refusal} {P : State → Prop} {t : State}
    (ht : o = .next t) (h : ∃ u, o = .next u ∧ P u) : P t := by
  obtain ⟨u, hu, hP⟩ := h
  exact Host.Outcome.next.inj (hu.symm.trans ht) ▸ hP

/-- Settles O12: the word is no command's, or one command's, and then the step is its `exec`. -/
theorem acceptanceReportsTheFirstError : Obligations.AcceptanceReportsTheFirstError := by
  intro s w rest hhost hb
  by_cases hw : ∀ i, w ≠ encode i
  · obtain ⟨t, ht, hcomp, -⟩ := (illegalWordCompletesAtOnce s w rest hhost hw).1 hb
    have ⟨_, _, _, _, _, hl, ho⟩ := hcomp
    exact ⟨t, ht, hl, ho, fun _ => hcomp, fun h => absurd h (hw _), fun i h => absurd h (hw i),
      fun i h => absurd h (hw i), fun i h => absurd h (hw i)⟩
  obtain ⟨i, rfl⟩ : ∃ i, w = encode i := by simpa using hw
  let s' : State := { s with host := rest }
  have hb' : s'.status.busy = false := hb
  obtain ⟨t, ht⟩ := exec_eq_next i s'
  obtain ⟨hl, ho⟩ := exec_idle_lastop hb' ht
  refine ⟨t, (step_cmd hhost).trans ht, hl.trans (encode_opcode i).symm, ho,
    fun h => absurd rfl (h i), fun h => ?_, fun j h => ?_, fun j h => ?_, fun j h => ?_⟩
  all_goals obtain rfl := encode_injective h
  · exact of_next_eq ht (exec_setkey_running hb')
  · exact fun hi hk => of_next_eq ht (exec_noKey_completed hb' hi hk)
  · exact fun hi hk => of_next_eq ht (exec_block_running hb' hi hk)
  · exact fun hi hk => ⟨fun hr => of_next_eq ht (exec_buffer_outOfRange hb' hi hk hr),
      fun _ hl => of_next_eq ht (exec_buffer_empty hb' hi hk hl),
      fun hr hl => of_next_eq ht (exec_buffer_running hb' hi hk hr hl)⟩

/-! ### The frame of a CMD write -/

theorem CommandFrame.sameHostRegisters {s t : State} (h : CommandFrame s t) :
    SameHostRegisters s t := by
  rw [h]
  exact ⟨rfl, rfl, rfl, rfl, rfl, rfl, rfl, rfl⟩

theorem SameBufferResults.refl (s : State) : SameBufferResults s s := ⟨rfl, rfl⟩

/-- A CMD write keeps OUTLEN and BLKDONE if the command's own acceptance part does. -/
theorem State.issue_sameBufferResults {body : State → State}
    (hbody : ∀ a, SameBufferResults a (body a)) (op : BitVec 8) (s : State) :
    SameBufferResults s (s.issue op body) := by
  cases hb : s.status.busy
  · rw [State.issue_idle hb]
    exact hbody (s.accept op)
  · rw [State.issue_busy hb]
    exact .refl s

theorem State.startBlock_sameBufferResults (d : Dir) (s : State) :
    SameBufferResults s (s.startBlock d) := by
  cases hk : s.status.keyValid
  · rw [State.startBlock_noKey hk]
    exact .refl s
  · rw [State.startBlock_keyed hk]
    exact .refl s

/-- Only an accepted buffer command writes OUTLEN and BLKDONE (10_state.md rules R36 and R37). -/
theorem exec_sameBufferResults {i : Instr} {s t : State} (h : exec i s = .next t)
    (hi : i = .setkey ∨ i = .encb ∨ i = .decb ∨ s.status.busy = true) : SameBufferResults s t := by
  obtain rfl | rfl | rfl | hb := hi
  case inr.inr.inr =>
    obtain rfl := Host.Outcome.next.inj ((exec_busy hb i).symm.trans h)
    exact .refl s
  all_goals cases h
  · exact State.issue_sameBufferResults (body := State.startKeygen) SameBufferResults.refl _ s
  all_goals exact State.issue_sameBufferResults (State.startBlock_sameBufferResults _) _ s

/-- Settles O10: the frame that every CMD write keeps, and what the report of an accepted one says. -/
theorem acceptanceFrame : Obligations.AcceptanceFrame := by
  intro i s t h
  have hframe := exec_frame h
  have hmem : t.mem = s.mem := by rw [hframe]
  have hhost : t.host = s.host := by rw [hframe]
  have hreply : t.reply = s.reply := by rw [hframe]
  have hdirty : t.dirty = s.dirty := by rw [hframe]
  have hstale : t.stale = s.stale := by rw [hframe]
  exact ⟨hframe.sameHostRegisters, hframe.sameDout, exec_sameSchedule h, fun a => by rw [hmem],
    hhost, hreply, hdirty, hstale, fun hb => (exec_idle_lastop hb h).symm,
    exec_sameBufferResults h⟩

end Sys2Proof.Machine

/-! PROOFS. 70_reset_and_hazards.md: reset (rules R240 to R243). -/

namespace Sys2Proof.Machine

/-! ### The registers after a reset -/

/-- A reset is one step of the machine, from any state (70_reset_and_hazards.md rule R240). -/
theorem step_reset {s : State} {rest : List Event} (h : s.host = .reset :: rest) :
    step s = .next (State.resetEvent Config.chip { s with host := rest }) := stepWith_cons h

/-- Every register reads as in the reset state (10_state.md rule R49). -/
theorem State.resetEvent_readReg (c : Config) (s : State) (r : Reg) :
    (s.resetEvent c).readReg r = State.reset.readReg r := by
  cases r <;> simp [State.readReg, State.reset]

/-- Settles O50: what reads after a reset is what reads in the reset state, and an idle core waits. -/
theorem resetSetsEveryRegister : Obligations.ResetSetsEveryRegister := by
  intro s rest h
  obtain ⟨hread, -⟩ := resetStateIsAsTheSpecSays
  refine ⟨_, step_reset h, rfl, fun offset ho => ?_, rfl, rfl, rfl, rfl, rfl, rfl, coreStep_idle rfl⟩
  rw [State.resetEvent_readReg, hread offset ho]

/-- Settles O51: KEY_VALID is 0 after a reset, and an acceptance writes no memory. -/
theorem resetForgetsTheKey : Obligations.ResetForgetsTheKey := by
  intro s t rest i h ht hi
  obtain rfl := Host.Outcome.next.inj ((step_reset h).symm.trans ht)
  obtain ⟨u, hu, hcomp⟩ := exec_noKey_completed
    (s := State.resetEvent Config.chip { s with host := rest }) rfl hi rfl
  obtain ⟨-, -, -, hmem, -⟩ := acceptanceFrame i _ u hu
  exact ⟨u, hu, hcomp, hmem⟩

/-! ### Memory after a reset -/

/-- No output block is in progress unless a buffer command runs (70_reset_and_hazards.md rule R242). -/
theorem State.pendingBlock_of_not_buffer (c : Config) {s : State} (h : s.phase.isBuffer = false) :
    s.pendingBlock c = none := by
  unfold State.pendingBlock
  cases hp : s.phase
  case idle | keygen | rounds => rfl
  case bufRead | bufRounds | bufWrite => exact absurd h (by rw [hp]; decide)

/-- A byte of memory after the writing of the bytes `js` was cut off is the old one, or one of the block
`o` at its own address. -/
theorem State.cutOff_read (c : Config) (o : Block) (s : State) {js : List Nat} {m : Memory}
    (hm : Memory.wf m) (a : Nat) :
    Memory.read (s.cutOff c o js m) a = Memory.read m a
      ∨ ∃ j ∈ js, a = byteAddr s.work.ldst s.work.blk j
        ∧ Memory.read (s.cutOff c o js m) a = blockByte o j := by
  induction js generalizing m with
  | nil => exact .inl rfl
  | cons j js ih =>
    unfold State.cutOff
    split
    next hok =>
      split
      next =>
        obtain hkeep | ⟨i, hi, hwritten⟩ := ih (Memory.wf_write hm hok.1 (blockByte o j))
        · rw [hkeep, Memory.read_write hm.1]
          split
          next ha => exact .inr ⟨j, List.mem_cons_self, ha, rfl⟩
          next => exact .inl rfl
        · exact .inr ⟨i, List.mem_cons_of_mem j hi, hwritten⟩
      next =>
        obtain hkeep | ⟨i, hi, hwritten⟩ := ih hm
        · exact .inl hkeep
        · exact .inr ⟨i, List.mem_cons_of_mem j hi, hwritten⟩
    next => exact .inl rfl

theorem State.memAfterReset_of_none {c : Config} {s : State} (h : s.pendingBlock c = none) :
    s.memAfterReset c = s.mem := by rw [State.memAfterReset, h]

theorem State.memAfterReset_of_some {c : Config} {s : State} {o : Block}
    (h : s.pendingBlock c = some o) : s.memAfterReset c = s.cutOff c o byteOrder s.mem := by
  rw [State.memAfterReset, h]

/-- Settles O52: the bytes that a reset may leave written are those of the block in progress. -/
theorem resetKeepsMemoryButTheBlockInProgress :
    Obligations.ResetKeepsMemoryButTheBlockInProgress := by
  intro s t rest h hm ht
  obtain rfl := Host.Outcome.next.inj ((step_reset h).symm.trans ht)
  let s' : State := { s with host := rest }
  refine ⟨rfl, rfl, rfl, fun hp a => ?_, fun a => ?_⟩
  · have hnone := State.pendingBlock_of_not_buffer Config.chip (s := s') hp
    rw [State.resetEvent_mem, State.memAfterReset_of_none hnone]
  · rw [State.resetEvent_mem]
    cases ho : State.pendingBlock Config.chip s' with
    | none => exact .inl (by rw [State.memAfterReset_of_none ho])
    | some o =>
      rw [State.memAfterReset_of_some ho]
      obtain hkeep | ⟨j, hj, ha, hread⟩ := s'.cutOff_read Config.chip o (js := byteOrder) hm a
      · exact .inl hkeep
      · exact .inr ⟨o, j, mem_byteOrder.1 hj, ha, rfl, hread⟩

end Sys2Proof.Machine

/-! PROOFS. 70_reset_and_hazards.md: the core steps of a command (rule R261). -/

namespace Sys2Proof.Machine

/-! ### Steps that do not complete the command -/

/-- STATUS changes in the core steps that complete a command alone (60_exceptions.md rule R204). -/
theorem coreStep_status {c : Config} {s t : State} (ht : coreStep c s = .next t)
    (hp : t.phase ≠ .idle) : t.status = s.status := by
  cases hph : s.phase
  case idle =>
    rw [coreStep_idle hph] at ht
    cases ht
    rfl
  case keygen =>
    rw [coreStep_keygen hph] at ht
    cases ht
    exact absurd rfl hp
  case rounds =>
    rw [coreStep_rounds hph] at ht
    cases ht
    by_cases hr : s.work.rnd = 15
    · rw [roundsStep_last hr] at hp
      exact absurd rfl hp
    · rw [roundsStep_more hr]
  case bufRead =>
    obtain ⟨v, -, rfl⟩ | ⟨-, rfl⟩ := bufReadStep_cases (coreStep_bufRead hph ▸ ht)
    · rfl
    · exact absurd rfl hp
  case bufRounds =>
    rw [coreStep_bufRounds hph] at ht
    cases ht
    by_cases hr : s.work.rnd = 15
    · rw [bufRoundsStep_last hr]
    · rw [bufRoundsStep_more hr]
  case bufWrite =>
    obtain ⟨u, ⟨hu, rfl⟩ | ⟨-, rfl⟩⟩ := bufWriteStep_cases (coreStep_bufWrite hph ▸ ht)
    · by_cases hlast : u.work.blk + 1 = u.work.lout.toNat / 8
      · rw [State.blockWritten_last (by exact hlast)] at hp
        exact absurd rfl hp
      · rw [State.blockWritten_more (by exact hlast), State.writeBytes_frame hu]
    · exact absurd rfl hp

/-- A core step away from IDLE starts away from IDLE (60_exceptions.md rule R216). -/
theorem coreStep_not_idle {c : Config} {s t : State} (ht : coreStep c s = .next t)
    (hp : t.phase ≠ .idle) : s.phase ≠ .idle := fun hs => by
  rw [coreStep_idle hs] at ht
  cases ht
  exact hp hs

/-- A command that still runs after `n` core steps has run through all of them, with STATUS as it was. -/
theorem coreSteps_status {c : Config} {s u : State} {n : Nat} (hu : coreSteps c n s = .next u)
    (hp : u.phase ≠ .idle) {m : Nat} (hm : m ≤ n) :
    ∃ v, coreSteps c m s = .next v ∧ v.phase ≠ .idle ∧ v.status = s.status := by
  induction n generalizing s m with
  | zero =>
    obtain rfl := Nat.le_zero.1 hm
    cases hu
    exact ⟨u, rfl, hp, rfl⟩
  | succ n ih =>
    cases ht : coreStep c s with
    | fault r => exact nomatch (coreSteps_fault ht n).symm.trans hu
    | refused r => exact nomatch (coreSteps_refused ht n).symm.trans hu
    | next t =>
      rw [coreSteps_succ ht] at hu
      have htp : t.phase ≠ .idle := by
        obtain ⟨v, hv, hvp, -⟩ := ih hu (Nat.zero_le n)
        exact Host.Outcome.next.inj hv ▸ hvp
      cases m with
      | zero => exact ⟨s, rfl, coreStep_not_idle ht htp, rfl⟩
      | succ m =>
        obtain ⟨v, hv, hvp, hstatus⟩ := ih hu (Nat.le_of_succ_le_succ hm)
        exact ⟨v, (coreSteps_succ ht m).trans hv, hvp, hstatus.trans (coreStep_status ht htp)⟩

/-! ### The steps of each command -/

/-- A command that its acceptance completes takes no core step. -/
theorem Completed.takesSteps {code : ErrCode} {op : BitVec 8} {s t : State}
    (h : Completed code op s t) (c : Config) : TakesSteps c 0 t := by
  obtain ⟨-, hbusy, hdone, -⟩ := h
  exact ⟨fun m hm => absurd hm (Nat.not_lt_zero m), t, rfl, hbusy, hdone⟩

theorem State.blockCount_eq {s : State} : s.blockCount = (s.len.toNat + 7) / 8 :=
  Nat.mul_div_cancel_left _ (by decide)

theorem setkey_takesSteps (c : Config) {s : State} (hb : s.status.busy = false) :
    ∃ t, exec .setkey s = .next t ∧ TakesSteps c 1 t := by
  obtain ⟨hset, -⟩ := setkeyLoadsTheSchedule
  obtain ⟨t, u, ht, ⟨hbusy, -⟩, -, -, -, hu, -, -, ⟨-, hidle, hdone, -⟩, -⟩ := hset c s hb
  refine ⟨t, ht, fun m hm => ?_, u, coreSteps_succ hu 0, hidle, hdone⟩
  obtain rfl := Nat.lt_one_iff.1 hm
  exact ⟨t, rfl, hbusy⟩

theorem block_takesSteps (c : Config) {i : Instr} (hi : i = .encb ∨ i = .decb) {s : State}
    (hb : s.status.busy = false) (hk : s.status.keyValid = true) :
    ∃ t, exec i s = .next t ∧ TakesSteps c 16 t := by
  obtain ⟨d, hexec⟩ := exec_block hi
  obtain ⟨t, u, ht, -, -, -, -, -, -, -, hbusy, hu, -, ⟨-, hidle, hdone, -⟩, -⟩ :=
    blockCommandRuns hexec hb c hk
  refine ⟨t, ht, fun m hm => ?_, u, hu, hidle, hdone⟩
  obtain ⟨v, hv, hvb, -⟩ := hbusy m hm
  exact ⟨v, hv, hvb⟩

/-- One step before the end of the buffer command the last block is still to be written, so the command
has run until then. -/
theorem AtBlock.takesSteps {c : Config} {op : BitVec 8} {d : Dir} {s t : State}
    (h : AtBlock c op d s 0 t) (hs : s.BufferAccepted c) :
    TakesSteps c (18 * s.blockCount) t := by
  obtain ⟨k, hk⟩ : ∃ k, s.blockCount = k + 1 := by
    have := hs.nonempty
    rw [State.blockCount_eq]
    exact ⟨(s.len.toNat + 7) / 8 - 1, by omega⟩
  obtain ⟨u, hu, hsteps⟩ := h.reach hs (k := k) (by omega)
  have hphase : u.phase = .bufRead := by
    obtain ⟨w, n, bs, l, rfl⟩ := hu
    rfl
  obtain ⟨v, hv, hwrite, -⟩ := coreSteps_readBlock hphase (hu.readable hs)
  have hbefore : coreSteps c (18 * k + 17) t = .next v := (coreSteps_add hsteps 17).trans hv
  obtain ⟨x, -, hend⟩ := h.run hs
  obtain ⟨hbusy, -⟩ := h.running
  refine ⟨fun m hm => ?_, _, hend, rfl, rfl⟩
  obtain ⟨y, hy, -, hstatus⟩ := coreSteps_status hbefore (hwrite ▸ nofun) (m := m) (by omega)
  exact ⟨y, hy, hstatus ▸ hbusy⟩

theorem buffer_takesSteps {c : Config} {i : Instr} (hi : i = .encbuf ∨ i = .decbuf) {s : State}
    (h : s.BufferAccepted c) :
    ∃ t, exec i s = .next t ∧ TakesSteps c (18 * ((s.len.toNat + 7) / 8)) t := by
  obtain ⟨d, hd⟩ := exists_bufferCommand hi
  exact ⟨_, exec_bufferCommand hd h.idle, State.blockCount_eq ▸ (h.startBuffer _ d).takesSteps h⟩

/-- NO_KEY comes before RANGE, and either completes the command (60_exceptions.md rule R203). -/
theorem outOfRange_completed {i : Instr} (hi : i = .encbuf ∨ i = .decbuf) {s : State}
    (hb : s.status.busy = false) (hr : s.OutOfRange) :
    ∃ t code, exec i s = .next t ∧ Completed code (opcodeOf i) s t := by
  cases hk : s.status.keyValid
  · have hset : i ≠ .setkey := by rcases hi with rfl | rfl <;> decide
    obtain ⟨t, ht⟩ := exec_noKey_completed hb hset hk
    exact ⟨t, _, ht⟩
  · obtain ⟨t, ht⟩ := exec_buffer_outOfRange hb hi hk hr
    exact ⟨t, _, ht⟩

/-- Settles O13: a command that is accepted runs for its steps, and the others complete at their
acceptance. -/
theorem commandsTakeTheirStepCounts : Obligations.CommandsTakeTheirStepCounts := by
  intro c s hb
  refine ⟨setkey_takesSteps c hb, fun hk i hi => block_takesSteps c hi hb hk,
    fun h i hi => buffer_takesSteps hi h, fun hk hl i hi => ?_, fun i hi hk => ?_, fun i hi hr => ?_,
    fun w rest hhost hw => ?_⟩
  · obtain ⟨t, ht, hcomp⟩ := exec_buffer_empty hb hi hk hl
    exact ⟨t, ht, hcomp.takesSteps c⟩
  · obtain ⟨t, ht, hcomp⟩ := exec_noKey_completed hb hi hk
    exact ⟨t, ht, hcomp.takesSteps c⟩
  · obtain ⟨t, code, ht, hcomp⟩ := outOfRange_completed hi hb hr
    exact ⟨t, ht, hcomp.takesSteps c⟩
  · obtain ⟨t, ht, hcomp, -⟩ := (illegalWordCompletesAtOnce s w rest hhost hw).1 hb
    exact ⟨t, ht, hcomp.takesSteps c⟩

end Sys2Proof.Machine
